-- ==== Sys2Proof/Word.lean ====
section
/-!
DEFINITION. The words the block moves: levels and bits (spec/00_scope.md R9), the 12-bit sample (R7), the 40-bit
request and response words (spec/30_encoding.md R88, R89), the five driven bits of a frame (R82).
-/

namespace Sys2Proof

/-- A level is a bit: `true` is `High` = 1, `false` is `Low` = 0 (spec/00_scope.md R9). -/
abbrev Level := Bool

/-- `High` of spec/00_scope.md R9. -/
abbrev high : Level := true

/-- `Low` of spec/00_scope.md R9. -/
abbrev low : Level := false

/-- A 12-bit unsigned sample (spec/00_scope.md R7, `SAMPLE_BITS`). -/
abbrev Sample := BitVec 12

/-- A converter channel as it is transmitted, 3 bits (spec/10_state.md R32). -/
abbrev Chan := BitVec 3

/-- A request word (spec/30_encoding.md R88) or a response word (R89). -/
abbrev Word40 := BitVec 40

/-- The five bits driven on pulses 1 to 5 of a frame, pulse 1 the most significant (spec/30_encoding.md R82). -/
abbrev FrameWord := BitVec 5

/-- The opaque value passed with a press event (spec/10_state.md R25): the block never inspects it. DESIGN CHOICE
(notes/assumptions/16.md, safe): labels are natural numbers, so that there are as many as anyone needs. -/
abbrev Label := Nat

end Sys2Proof
end

