-- ==== Sys2Proof/Syntax.lean ====
section
/-!
DEFINITION. The operations of spec/opcode_table.json, one constructor a row, and the words that spell them.
-/

namespace Sys2Proof

/-- The five rows of spec/opcode_table.json. -/
inductive Instr where
  /-- READ_CHANNEL: read converter channel `ch`, a signed integer (spec/30_encoding.md R84, spec/40_adc_driver.md R100). -/
  | readChannel (ch : Int)
  /-- POLL: poll the touch channel at position `k` (spec/41_touch_channel.md R130). -/
  | poll (k : Nat)
  /-- POLL_PASS: poll every position once, in order (spec/42_poll_loop.md R150). -/
  | pollPass
  /-- RUN: poll forever (spec/42_poll_loop.md R154). -/
  | run
  /-- SPI_FRAME_READ: one frame for the 3-bit channel `c` (spec/40_adc_driver.md R102). -/
  | spiFrameRead (c : Chan)
deriving DecidableEq, Repr

/-- The words that spell an operation: a request word of the request port (format REQ40), or the five driven bits of
a frame (format SPI18). -/
inductive Code where
  | request (w : Word40)
  | frame (w : FrameWord)
deriving DecidableEq, Repr

/-- Why the model gives an input no meaning: the value of the refusal mark (spec/10_state.md R40). -/
inductive Reason where
  /-- Opcode `0x00` or `0x05` to `0xFF` (spec/60_exceptions.md R178). -/
  | reservedOpcode
  /-- POLL_PASS or RUN with `w[31:0] ≠ 0` (R178). -/
  | nonZeroOperand
  /-- POLL with `k ≥ N` (R178). -/
  | pollPositionOutOfRange
  /-- A configuration that breaks spec/10_state.md R20, R23 or R26 (R178). -/
  | illFormedConfiguration
  /-- A frame form the block never emits: no start bit, or prefix 0 (spec/30_encoding.md R86, U7). -/
  | frameNeverEmitted
  /-- A request while the block is busy or running (spec/60_exceptions.md R180, U10). -/
  | requestWhileBusy
  /-- A completion with no press event outstanding: a move spec/60_exceptions.md R188 does not give the host. -/
  | completionWithoutEvent
  /-- Another agent wrote one of the block's pins (spec/70_reset_and_hazards.md R215, U9). -/
  | pinInterference
deriving DecidableEq, Repr

end Sys2Proof
end

