-- ==== Sys2Proof/WellFormed.lean ====
section
/-!
DEFINITION. Which terms of `Instr` the request port can spell (spec/30_encoding.md R84, R88): the operand of
READ_CHANNEL is a 32-bit two's complement integer, that of POLL a 32-bit unsigned one.
-/

namespace Sys2Proof

/-- The operand fits its field of the request word (spec/30_encoding.md R88). -/
def Instr.wellFormed : Instr → Bool
  | .readChannel ch => decide (-2147483648 ≤ ch) && decide (ch < 2147483648)
  | .poll k => decide (k < 4294967296)
  | .pollPass => true
  | .run => true
  | .spiFrameRead _ => true

end Sys2Proof
end

