-- ==== Sys2Proof/Decode.lean ====
section
/-!
DEFINITION. The decoder of spec/30_encoding.md R91, total on 40-bit request words, the reading of a frame's five
driven bits (R82), the encoder written from the same tables (R88, R82), and the host's `decodeTableWord`.
-/

namespace Sys2Proof

/-- `w[39:32]` (spec/30_encoding.md R88). -/
def opcodeOf (w : Word40) : BitVec 8 := w.extractLsb' 32 8

/-- `w[31:0]` (spec/30_encoding.md R88). -/
def operandOf (w : Word40) : BitVec 32 := w.extractLsb' 0 32

/-- The request decoder of spec/30_encoding.md R91. -/
def decodeRequest (w : Word40) : Except Reason Instr :=
  let op := opcodeOf w
  let arg := operandOf w
  if op = 0x01#8 then .ok (.readChannel arg.toInt)
  else if op = 0x02#8 then .ok (.poll arg.toNat)
  else if op = 0x03#8 then (if arg = 0#32 then .ok .pollPass else .error .nonZeroOperand)
  else if op = 0x04#8 then (if arg = 0#32 then .ok .run else .error .nonZeroOperand)
  else .error .reservedOpcode

/-- The start bit and the prefix of a frame word, both 1 (spec/30_encoding.md R81, R82). -/
def framePrefix (w : FrameWord) : BitVec 2 := w.extractLsb' 3 2

/-- The frame whose pulses 1 to 5 carry `w`; the forms of spec/30_encoding.md R86 are rejected. -/
def decodeFrame (w : FrameWord) : Except Reason Instr :=
  if framePrefix w = 0b11#2 then .ok (.spiFrameRead (w.extractLsb' 0 3)) else .error .frameNeverEmitted

/-- The decoder: total, an instruction or the reason there is none. -/
def decode : Code → Except Reason Instr
  | .request w => decodeRequest w
  | .frame w => decodeFrame w

/-- A request word from its two fields (spec/30_encoding.md R88). -/
def requestWord (op : BitVec 8) (arg : BitVec 32) : Word40 := op ++ arg

/-- The five driven bits `0b11 ++ chan[2:0]` (spec/30_encoding.md R82). -/
def frameWord (c : Chan) : FrameWord := 0b11#2 ++ c

/-- The encoder: the words of an instruction (spec/30_encoding.md R88, R82). -/
def encode : Instr → Code
  | .readChannel ch => .request (requestWord 0x01#8 (BitVec.ofInt 32 ch))
  | .poll k => .request (requestWord 0x02#8 (BitVec.ofNat 32 k))
  | .pollPass => .request (requestWord 0x03#8 0#32)
  | .run => .request (requestWord 0x04#8 0#32)
  | .spiFrameRead c => .frame (frameWord c)

/-- The code a word of spec/opcode_table.json stands for: the table's request rows have 40 bits, its frame row five
(one byte in whole bytes); `none` where the word has a bit above those. A request is one 40-bit word and no byte order
applies to it (spec/20_memory.md R64), so its bits are numbered as the table numbers them (notes/assumptions/29.md). -/
def tableCode (nbits w : Nat) : Option Code :=
  if nbits = 40 then (if w < 2 ^ 40 then some (.request (BitVec.ofNat 40 w)) else none)
  else if nbits < 40 then (if w < 32 then some (.frame (BitVec.ofNat 5 w)) else none)
  else none

/-- The instruction the decoder reads from a table word (`none` where it refuses). -/
def decodeTableWord (nbits w : Nat) : Option Instr :=
  match tableCode nbits w with
  | some c => (decode c).toOption
  | none => none

end Sys2Proof
end

