-- ==== Sys2Proof/Config.lean ====
section
/-!
DEFINITION. What construction fixes (spec/10_state.md R20 to R28) and the free values: opaque constants that stand
for every draw the spec leaves open (spec/93_implementation_defined.md U1, U2, U4, U5, U19).
-/

namespace Sys2Proof

/-- One entry of the channel table: the converter channel read, an integer as the caller gives it, and the label
passed with its press event (spec/10_state.md R25). -/
structure ChannelEntry where
  ch : Int
  label : Label
deriving DecidableEq, Repr

/-- The configuration, read-only after construction (spec/10_state.md R20 to R28). -/
structure Config where
  /-- The four platform pin identifiers, unbounded integers (R20). -/
  pinCs : Int
  pinClk : Int
  pinMosi : Int
  pinMiso : Int
  /-- The level that asserts chip-select (R21). -/
  csActive : Level
  /-- `P`, `RL` and `RH`, one set for every channel (R22, R24). -/
  pressThreshold : Nat
  releaseLow : Nat
  releaseHigh : Nat
  /-- The channel table, position 0 first (R25). -/
  channels : List ChannelEntry
  /-- The three lower bounds in nanoseconds (R27). -/
  tSetupMin : Nat
  tHighMin : Nat
  tCsIdleMin : Nat
deriving DecidableEq, Repr

/-- FREE VALUE: the bit the converter drives at a sample for which `Draws.miso` holds none (spec/10_state.md R30, U2). -/
opaque Config.misoFree : Nat → Level

/-- FREE VALUE: the levels MOSI goes through in the low phase before one of pulses 6 to 18, where `Draws.mosi` holds
no entry (spec/30_encoding.md R83, U1). -/
opaque Config.mosiFree : Nat → List Level

/-- FREE VALUE: how many nanoseconds a wait lasts beyond its minimum where `Draws.delay` holds none
(spec/40_adc_driver.md R113, U19). -/
opaque Config.delayFree : Nat → Nat

/-- FREE VALUE: the level of an output pin between its acquisition and the reset write, and after a failed reset
(spec/70_reset_and_hazards.md R201, R202; U4, U5). -/
opaque Config.levelFree : Nat → Level

/-- The configuration `State.reset` is built with. DESIGN CHOICE (notes/assumptions/9.md, unsafe for a claim about
`State.reset` alone): the spec leaves every field but `csActive` OPEN. The thresholds are the spec's example values
(spec/10_state.md R22), the table names the eight converter channels in order. -/
def Config.default : Config where
  pinCs := 0
  pinClk := 1
  pinMosi := 2
  pinMiso := 3
  csActive := low
  pressThreshold := 900
  releaseLow := 1900
  releaseHigh := 2100
  channels := [⟨0, 0⟩, ⟨1, 1⟩, ⟨2, 2⟩, ⟨3, 3⟩, ⟨4, 4⟩, ⟨5, 5⟩, ⟨6, 6⟩, ⟨7, 7⟩]
  tSetupMin := 0
  tHighMin := 0
  tCsIdleMin := 0

end Sys2Proof
end

