-- ==== Sys2Proof/Machine/State.lean ====
section
/-!
DEFINITION. The state of the machine: every element of spec/10_state.md R43, then what the other agents hold (the
host's moves, the draws, the platform's lines) and the recorded events, all of it plain data; and `State.reset`.
-/

namespace Sys2Proof.Machine

/-- The four roles a pin identifier is given (spec/10_state.md R20), in acquisition order (spec/70_reset_and_hazards.md R200). -/
inductive Role where
  | cs | clk | mosi | miso
deriving DecidableEq, Repr

/-- The three output pins (spec/00_scope.md R10). -/
inductive OutPin where
  | cs | clk | mosi
deriving DecidableEq, Repr

/-- The two kinds of wait (spec/00_scope.md R11). -/
inductive WaitKind where
  | setup | high
deriving DecidableEq, Repr

/-- A pin event (spec/00_scope.md R11). A wait also carries the nanoseconds it lasted (notes/assumptions/5.md). -/
inductive PinEvent where
  | write (p : OutPin) (l : Level)
  | sample (b : Level)
  | wait (kind : WaitKind) (ns : Nat)
deriving DecidableEq, Repr

/-- A response: the status `resp[39:32]` and the value `resp[31:0]` (spec/30_encoding.md R89). -/
structure Response where
  status : BitVec 8
  value : BitVec 32
deriving DecidableEq, Repr

/-- What is recorded, in the one total order of spec/20_memory.md R70. -/
inductive Event where
  /-- A pin event of the block (spec/00_scope.md R11). -/
  | pin (e : PinEvent)
  /-- The time chip-select has been idle when a frame starts (spec/70_reset_and_hazards.md R213; notes/assumptions/6.md). -/
  | csIdle (ns : Nat)
  /-- A response (spec/30_encoding.md R89). -/
  | response (r : Response)
  /-- A press event: the position, as a 32-bit unsigned integer, and its label (spec/30_encoding.md R92). -/
  | press (k : BitVec 32) (label : Label)
  /-- The host's completion of the outstanding press event (spec/42_poll_loop.md R155). -/
  | completed
deriving DecidableEq, Repr

/-- The sequencer position (spec/10_state.md R34). -/
inductive Pos where
  | idle
  | reading (n : Nat)
  | polling (k : Nat)
  | passing (k : Nat)
  | dispatching (k : Nat)
  | failed
deriving DecidableEq, Repr

/-- The state of one touch channel (spec/10_state.md R36). -/
inductive Touch where
  | released
  | pressed
deriving DecidableEq, Repr

/-- The fault record's content (spec/10_state.md R39). -/
inductive FaultRecord where
  | pinAcquisitionFailure (pin : Int)
deriving DecidableEq, Repr

/-- The handles the block holds, one a role, as far as they have been acquired (spec/10_state.md R31): `none` is a pin
that this construction has not acquired, as after a failed reset (spec/70_reset_and_hazards.md R201). -/
structure Handles where
  cs : Option Nat
  clk : Option Nat
  mosi : Option Nat
  miso : Option Nat
deriving DecidableEq, Repr

/-- The platform's I/O layer (spec/60_exceptions.md R186): the lines it holds, each with its handle, and the next
handle it will give out. -/
structure Platform where
  held : List (Int × Nat)
  next : Nat
deriving DecidableEq, Repr

/-- The draws to come (spec/00_scope.md R10): while a list holds an entry the draw is that entry; beyond it the draw is
the free value of `Config` at `used`, which every such draw advances. -/
structure Draws where
  /-- The bits the converter will drive on MISO, sample by sample (spec/10_state.md R30). -/
  miso : List Level
  /-- The levels MOSI goes through before each of the pulses 6 to 18 (spec/30_encoding.md R83). -/
  mosi : List (List Level)
  /-- How long each wait and each CS idle gap lasts beyond its minimum (spec/40_adc_driver.md R113). -/
  delay : List Nat
  /-- How many free values have been taken. -/
  used : Nat
deriving DecidableEq, Repr

/-- What the block does in one turn: nothing reaches it, it takes a request, it takes a completion, or it is constructed. -/
inductive Work where
  | waiting
  | serving (c : Code)
  | completing
  | constructing (cfg : Config) (unavailable : List Int)
deriving DecidableEq, Repr

/-- How a turn is cut short before it is over. -/
inductive Ending where
  /-- The host stops the block (spec/42_poll_loop.md R160, spec/60_exceptions.md R188). -/
  | stop
  /-- The host resets the block with a configuration (spec/60_exceptions.md R188). -/
  | construct (cfg : Config) (unavailable : List Int)
  /-- Another agent writes one of the block's pins (spec/70_reset_and_hazards.md R215). -/
  | drive (p : OutPin) (l : Level)
deriving DecidableEq, Repr

/-- What can reach the block in one turn (spec/60_exceptions.md R188, spec/70_reset_and_hazards.md R215). -/
inductive Move where
  /-- The host constructs the block again with a configuration, on a platform that cannot provide the lines
  `unavailable` (spec/70_reset_and_hazards.md R200, R208). -/
  | construct (cfg : Config) (unavailable : List Int)
  /-- A request (spec/30_encoding.md R88), or the driven bits of one frame (notes/assumptions/11.md). -/
  | issue (c : Code)
  /-- The host completes the outstanding press event (spec/42_poll_loop.md R155). -/
  | complete
  /-- The host stops the block between two operations (spec/42_poll_loop.md R160). -/
  | stop
  /-- The block begins the turn `w`, and after its first `j` primitives the host stops or resets it ("at any step",
  spec/42_poll_loop.md R160, spec/60_exceptions.md R188), or another agent writes a pin (spec/70_reset_and_hazards.md
  R215); notes/assumptions/34.md. -/
  | during (w : Work) (j : Nat) (e : Ending)
  /-- Another agent writes one of the block's pins between two operations (spec/70_reset_and_hazards.md R215). -/
  | drive (p : OutPin) (l : Level)
deriving DecidableEq, Repr

/-- The machine's state. -/
structure State where
  /-- The configuration (spec/10_state.md R20 to R28). -/
  cfg : Config
  /-- The pin handles (R31). -/
  handles : Handles
  /-- The driven levels (R29). -/
  cs : Level
  clk : Level
  mosi : Level
  /-- The driver registers (R32). -/
  chan : Chan
  acc : Sample
  n : Nat
  /-- The sequencer position (R34). -/
  pc : Pos
  /-- The channel state file, position 0 first (R36). -/
  st : List Touch
  /-- Whether the block is inside RUN (R37). -/
  running : Bool
  /-- The fault record (R39). -/
  fault : Option FaultRecord
  /-- The refusal mark (R40). -/
  refused : Option Reason
  /-- Whether the host has stopped the block (spec/42_poll_loop.md R160): the model's own (notes/assumptions/19.md). -/
  stopped : Bool
  /-- What has been recorded since construction, oldest first (spec/20_memory.md R70). -/
  trace : List Event
  /-- How many frames have ended since construction: the model's own (notes/assumptions/6.md). -/
  frames : Nat
  /-- The moves to come, a slot a step; `none` is a turn in which nothing reaches the block (notes/assumptions/2.md). -/
  inputs : List (Option Move)
  /-- The draws to come. -/
  draws : Draws
  /-- The platform's lines. -/
  platform : Platform
deriving DecidableEq, Repr

/-- Why the machine stops. -/
inductive Fault where
  /-- Raised by a step in `pc = Failed` (spec/60_exceptions.md R173): the block takes no step. Safe: the spec gives it
  none (notes/assumptions/24.md). -/
  | pinAcquisitionFailure (pin : Int)
  /-- Raised by a step in `pc = Failed` with no fault recorded: no run reaches one. Safe. -/
  | failedWithoutRecord
  /-- Raised by a step of a block the host has stopped: the spec makes no claim of one (spec/42_poll_loop.md R160).
  Safe (notes/assumptions/19.md). -/
  | stopped
  /-- Raised by a step at `Reading(n)` or `Polling(k)` of a block that is neither stopped nor refused: an operation is one
  step, so no run reaches such a state between two steps. Safe (notes/assumptions/21.md). -/
  | insideOperation
deriving DecidableEq, Repr

/-- Why the machine gives no meaning. -/
inductive Refusal where
  /-- An instruction that has no meaning yet; no arm of this model answers it. Safe. -/
  | notModelled (mnemonic : String)
  /-- Raised by a step in a state that carries the refusal mark (spec/10_state.md R40, spec/60_exceptions.md R178).
  Safe (notes/assumptions/12.md). -/
  | marked (r : Reason)
deriving DecidableEq, Repr

/-- The machine right after a reset that succeeded (spec/10_state.md R43), built with `Config.default` on a platform
that held no line before. The values the spec leaves open are in notes/assumptions/9.md, 10.md, 14.md and 32.md. -/
def State.reset : State where
  cfg := Config.default
  handles := ⟨some 0, some 1, some 2, some 3⟩
  cs := high
  clk := low
  mosi := low
  chan := 0
  acc := 0
  n := 1
  pc := .idle
  st := List.replicate 8 .released
  running := false
  fault := none
  refused := none
  stopped := false
  trace := [.pin (.write .cs high), .pin (.write .clk low), .pin (.write .mosi low)]
  frames := 0
  inputs := []
  draws := ⟨[], [], [], 3⟩
  platform := ⟨[(0, 0), (1, 1), (2, 2), (3, 3)], 4⟩

end Sys2Proof.Machine
end

