-- ==== Sys2Proof/Machine/Ops.lean ====
section
/-!
DEFINITION. The primitives every operation is written with (spec/00_scope.md R10): draws, pin writes, the MISO sample,
waits, the response, the press event, the sequencer position, the refusal; and the one shared operation by which a
request ends (with `OK`, or in the error `InvalidChannel`, spec/60_exceptions.md R171).
-/

namespace Sys2Proof.Machine

/-- The draw of one MISO bit (spec/10_state.md R30). -/
def drawMiso (d : Draws) : Level × Draws :=
  match d.miso with
  | b :: rest => (b, { d with miso := rest })
  | [] => (Config.misoFree d.used, { d with used := d.used + 1 })

/-- The draw of the levels MOSI goes through in one low phase of pulses 6 to 18 (spec/30_encoding.md R83). -/
def drawMosi (d : Draws) : List Level × Draws :=
  match d.mosi with
  | ls :: rest => (ls, { d with mosi := rest })
  | [] => (Config.mosiFree d.used, { d with used := d.used + 1 })

/-- The draw of the time a wait lasts beyond its minimum (spec/40_adc_driver.md R113). -/
def drawDelay (d : Draws) : Nat × Draws :=
  match d.delay with
  | t :: rest => (t, { d with delay := rest })
  | [] => (Config.delayFree d.used, { d with used := d.used + 1 })

/-- Records an event at its place in the total order (spec/20_memory.md R70). -/
def emit (e : Event) (s : State) : State :=
  { s with trace := s.trace ++ [e] }

/-- `pc <- p` (spec/00_scope.md R10). -/
def setPos (p : Pos) (s : State) : State :=
  { s with pc := p }

/-- The level an output pin is driven to, with nothing recorded. -/
def setLevel (p : OutPin) (l : Level) (s : State) : State :=
  match p with
  | .cs => { s with cs := l }
  | .clk => { s with clk := l }
  | .mosi => { s with mosi := l }

/-- `PinWrite(p, l)` (spec/00_scope.md R10): the level and its pin event. -/
def pinWrite (p : OutPin) (l : Level) (s : State) : State :=
  emit (.pin (.write p l)) (setLevel p l s)

/-- The configured minimum of a wait (spec/10_state.md R27). -/
def minWait (cfg : Config) : WaitKind → Nat
  | .setup => cfg.tSetupMin
  | .high => cfg.tHighMin

/-- `WaitAtLeast(t)` (spec/40_adc_driver.md R113): at least the minimum elapses, no pin is written. -/
def waitAtLeast (kind : WaitKind) (s : State) : State :=
  emit (.pin (.wait kind (minWait s.cfg kind + (drawDelay s.draws).1))) { s with draws := (drawDelay s.draws).2 }

/-- The time chip-select has been idle when a frame starts: at least `T_CS_IDLE_MIN` from the second frame since
construction on (spec/10_state.md R27, spec/70_reset_and_hazards.md R213). -/
def csIdleGap (s : State) : State :=
  emit (.csIdle ((if s.frames = 0 then 0 else s.cfg.tCsIdleMin) + (drawDelay s.draws).1))
    { s with draws := (drawDelay s.draws).2 }

/-- The bit `PinRead(MISO)` returns. -/
def misoLevel (s : State) : Level := (drawMiso s.draws).1

/-- `PinRead(MISO)` (spec/00_scope.md R10): the sample is taken and recorded. -/
def sampleMiso (s : State) : State :=
  emit (.pin (.sample (misoLevel s))) { s with draws := (drawMiso s.draws).2 }

/-- The state of the touch channel at position `k` (spec/10_state.md R36); `released` beyond the table, which no
operation reads. -/
def touchAt (s : State) (k : Nat) : Touch := s.st.getD k .released

/-- `st[k] <- t`, and no other position. -/
def setTouch (k : Nat) (t : Touch) (s : State) : State :=
  { s with st := s.st.set k t }

/-- The status `OK` (spec/30_encoding.md R89). -/
def statusOk : BitVec 8 := 0x00#8

/-- The status `InvalidChannel` (spec/30_encoding.md R89, spec/60_exceptions.md R171). -/
def statusInvalidChannel : BitVec 8 := 0x01#8

/-- The code of `PinAcquisitionFailure` (spec/60_exceptions.md R173): the code of a fault record, never of a response. -/
def codePinAcquisitionFailure : BitVec 8 := 0x02#8

/-- The code of a fault record (spec/60_exceptions.md R173). -/
def faultCode : FaultRecord → BitVec 8
  | .pinAcquisitionFailure _ => codePinAcquisitionFailure

/-- The 40-bit response word (spec/30_encoding.md R89). -/
def responseWord (r : Response) : Word40 := r.status ++ r.value

/-- `Respond(r); pc <- Idle`: how every request that ends ends. -/
def finish (r : Response) (s : State) : State :=
  setPos .idle (emit (.response r) s)

/-- `raise InvalidChannel(ch)` (spec/60_exceptions.md R171, R177): the error response carries the operand, nothing is
saved, no pin is written, control goes back to `Idle`. -/
def raiseInvalidChannel (ch : Int) (s : State) : State :=
  finish ⟨statusInvalidChannel, BitVec.ofInt 32 ch⟩ s

/-- `refuse(reason)` (spec/60_exceptions.md R178): the mark is set; no response, no pin event. -/
def refuse (r : Reason) (s : State) : State :=
  { s with refused := some r }

/-- A stop (spec/42_poll_loop.md R160): the levels it leaves on the pins are unspecified, so free values, and the block takes
no step until it is constructed again (notes/assumptions/19.md). -/
def halt (s : State) : State :=
  { s with
    cs := Config.levelFree s.draws.used
    clk := Config.levelFree (s.draws.used + 1)
    mosi := Config.levelFree (s.draws.used + 2)
    stopped := true
    draws := { s.draws with used := s.draws.used + 3 } }

/-- `pc <- Dispatching(k); Emit(PressEvent(k, label))` (spec/42_poll_loop.md R150, R155). -/
def dispatch (k : Nat) (label : Label) (s : State) : State :=
  emit (.press (BitVec.ofNat 32 k) label) (setPos (.dispatching k) s)

end Sys2Proof.Machine
end

