-- ==== Sys2Proof/Machine/Operands.lean ====
section
/-!
DEFINITION. The operand forms: the signed channel of a read and its three transmitted bits, the five bits a frame
drives, the shift that assembles a sample, the sample as a response value.
-/

namespace Sys2Proof.Machine

/-- `0 <= ch <= 7` (spec/30_encoding.md R84). -/
def channelValid (ch : Int) : Bool := decide (0 ≤ ch) && decide (ch ≤ 7)

/-- `ch[2:0]` (spec/30_encoding.md R84). -/
def chanBits (ch : Int) : Chan := BitVec.ofInt 3 ch

/-- The start bit, fixed high (spec/30_encoding.md R81). -/
def startBit : Level := high

/-- The configuration prefix, 1 (spec/30_encoding.md R82). -/
def cfgPrefix : Level := high

/-- The MOSI levels of pulses 1 to 5 with the pulse each belongs to (spec/40_adc_driver.md R102). -/
def commandPulses (c : Chan) : List (Nat × Level) :=
  [(1, startBit), (2, cfgPrefix), (3, c.getLsbD 2), (4, c.getLsbD 1), (5, c.getLsbD 0)]

/-- The data pulses 7 to 18 (spec/40_adc_driver.md R102). -/
def dataPulses : List Nat := List.range' 7 12

/-- `((acc << 1) | d)[11:0]` (spec/30_encoding.md R85). -/
def shiftIn (acc : Sample) (d : Level) : Sample :=
  (acc <<< 1) ||| (BitVec.ofBool d).setWidth 12

/-- `zext_32(r)` (spec/30_encoding.md R89). -/
def sampleValue (r : Sample) : BitVec 32 := r.setWidth 32

/-- A poll's result as a response value: 1 for a press, else 0 (spec/30_encoding.md R89). -/
def pressValue (p : Bool) : BitVec 32 := if p then 1#32 else 0#32

end Sys2Proof.Machine
end

