-- ==== Sys2Proof/Machine/Driver.lean ====
section
/-!
DEFINITION. The ADC driver (spec/40_adc_driver.md): the clock pulse, the frame sequence, READ_CHANNEL and
SPI_FRAME_READ.
-/

namespace Sys2Proof.Machine

/-- `Pulse()` (spec/40_adc_driver.md R103). -/
def pulse (s : State) : State :=
  pinWrite .clk low (waitAtLeast .high (pinWrite .clk high (waitAtLeast .setup s)))

/-- `pc <- Reading(n)`, with the pulse index register (spec/40_adc_driver.md R102, spec/10_state.md R32). -/
def atPulse (n : Nat) (s : State) : State :=
  { s with n := n, pc := .reading n }

/-- The levels MOSI is driven through in the low phase before one of pulses 6 to 18: unspecified, so drawn, and written
only while CLK is Low and before the pulse's setup wait (spec/30_encoding.md R83, spec/40_adc_driver.md R104, R108). -/
def lateMosi (s : State) : State :=
  (drawMosi s.draws).1.foldl (fun t l => pinWrite .mosi l t) { s with draws := (drawMosi s.draws).2 }

/-- One of pulses 1 to 5: the bit is written, then the pulse (spec/40_adc_driver.md R102, steps 2 and 3). -/
def commandPulse (s : State) (nb : Nat × Level) : State :=
  pulse (pinWrite .mosi nb.2 (atPulse nb.1 s))

/-- Pulse 6, the null cycle: MISO is not sampled (spec/40_adc_driver.md R102, step 4). -/
def nullPulse (s : State) : State :=
  pulse (lateMosi (atPulse 6 s))

/-- `d <- PinRead(MISO); acc <- ((acc << 1) | d)[11:0]` (spec/40_adc_driver.md R102, step 5). -/
def shiftSample (s : State) : State :=
  { sampleMiso s with acc := shiftIn s.acc (misoLevel s) }

/-- One of pulses 7 to 18: the pulse, then the sample after its falling edge (spec/40_adc_driver.md R105). -/
def dataPulse (s : State) (n : Nat) : State :=
  shiftSample (pulse (lateMosi (atPulse n s)))

/-- `chan <- c; acc <- 0` (spec/40_adc_driver.md R102), with the position of the CS write before pulse 1, `Reading(1)`
(spec/10_state.md R34; notes/assumptions/35.md). -/
def beginRead (c : Chan) (s : State) : State :=
  { atPulse 1 s with chan := c, acc := 0 }

/-- The CS idle time before the read, its beginning, and the CS assertion (spec/40_adc_driver.md R102, step 1). -/
def openFrame (c : Chan) (s : State) : State :=
  pinWrite .cs s.cfg.csActive (beginRead c (csIdleGap s))

/-- The CS de-assertion (spec/40_adc_driver.md R102, step 6). -/
def closeFrame (s : State) : State :=
  { pinWrite .cs (!s.cfg.csActive) s with frames := s.frames + 1 }

/-- `ReadFrame(c)` (spec/40_adc_driver.md R102); the sample it returns is the register `acc` of the state after it. -/
def readFrame (c : Chan) (s : State) : State :=
  closeFrame (dataPulses.foldl dataPulse (nullPulse ((commandPulses c).foldl commandPulse (openFrame c s))))

/-- READ_CHANNEL (spec/40_adc_driver.md R100): the range check before any pin is touched (R101), one frame, the
response. -/
def execReadChannel (ch : Int) (s : State) : Host.Outcome State Fault Refusal :=
  .next (if channelValid ch then
      finish ⟨statusOk, sampleValue (readFrame (chanBits ch) s).acc⟩ (readFrame (chanBits ch) s)
    else raiseInvalidChannel ch s)

/-- SPI_FRAME_READ (spec/40_adc_driver.md R102): one frame; the sample stays in `acc`. It is no request, so no response
is made, and with the frame over the position is `Idle` (notes/assumptions/11.md). -/
def execSpiFrameRead (c : Chan) (s : State) : Host.Outcome State Fault Refusal :=
  .next (setPos .idle (readFrame c s))

end Sys2Proof.Machine
end

