-- ==== Sys2Proof/Machine/Flags.lean ====
section
/-!
DEFINITION. The block has no flags register (spec/10_state.md R38); its only condition state is the Released/Pressed bit
of each touch channel, and this file holds its one computation, the hysteresis function (spec/41_touch_channel.md R132).
-/

namespace Sys2Proof.Machine

/-- `Hyst` (spec/41_touch_channel.md R132): the new state and whether the poll reports a press, for the sample `s`. -/
def hyst (cfg : Config) (t : Touch) (s : Nat) : Touch × Bool :=
  match t with
  | .released => if s < cfg.pressThreshold then (.pressed, true) else (.released, false)
  | .pressed => if cfg.releaseLow < s ∧ s < cfg.releaseHigh then (.released, false) else (.pressed, false)

end Sys2Proof.Machine
end

