-- ==== Sys2Proof/Machine/Touch.lean ====
section
/-!
DEFINITION. The touch channel comparator (spec/41_touch_channel.md): one poll step, and POLL.
-/

namespace Sys2Proof.Machine

/-- The converter channel `ch_k` of position `k`, as it is transmitted (spec/10_state.md R25, R26). -/
def channelAt (cfg : Config) (k : Nat) : Chan :=
  chanBits ((cfg.channels[k]?.map (·.ch)).getD 0)

/-- The state after the read of a poll of position `k`: `s <- ReadFrame(ch_k); pc <- Polling(k)` (spec/41_touch_channel.md
R130, R131). -/
def pollRead (k : Nat) (s : State) : State :=
  setPos (.polling k) (readFrame (channelAt s.cfg k) s)

/-- What `Hyst` gives for position `k` and the sample just read. -/
def pollHyst (k : Nat) (s : State) : Touch × Bool :=
  hyst s.cfg (touchAt s k) s.acc.toNat

/-- `PollStep(k)` (spec/41_touch_channel.md R130): whether the poll reports a press, and the state after it. -/
def pollStep (k : Nat) (s : State) : Bool × State :=
  ((pollHyst k (pollRead k s)).2, setTouch k (pollHyst k (pollRead k s)).1 (pollRead k s))

/-- POLL (spec/41_touch_channel.md R130): a position outside the table is refused (spec/60_exceptions.md R178); otherwise
one poll step and its result as the response, with no dispatch (spec/42_poll_loop.md R161). -/
def execPoll (k : Nat) (s : State) : Host.Outcome State Fault Refusal :=
  .next (if s.cfg.channels.length ≤ k then refuse .pollPositionOutOfRange s
    else finish ⟨statusOk, pressValue (pollStep k s).1⟩ (pollStep k s).2)

end Sys2Proof.Machine
end

