-- ==== Sys2Proof/Machine/Loop.lean ====
section
/-!
DEFINITION. The poll loop (spec/42_poll_loop.md): a pass from a position to its next waiting point, POLL_PASS, RUN, and
the host's completion of a press event.
-/

namespace Sys2Proof.Machine

/-- The end of a pass: RUN goes round to position 0 (spec/42_poll_loop.md R154, R159), POLL_PASS responds `OK, 0` (R150).
DESIGN CHOICE (notes/assumptions/33.md): with an empty table RUN stands at `Passing(0)` too, though there is no position 0:
the spec's pseudocode writes no `pc` there, and a running block is not `Idle`. -/
def endPass (s : State) : State :=
  if s.running then setPos (.passing 0) s else finish ⟨statusOk, 0#32⟩ s

/-- `Pass()` over the entries left, the first of them at position `k` (spec/42_poll_loop.md R150, R151): each is polled in
order; a press is dispatched and the block waits there (R152, R155). -/
def passLoop : List ChannelEntry → Nat → State → State
  | [], _, s => endPass s
  | e :: rest, k, s =>
    let r := pollStep k (setPos (.passing k) s)
    if r.1 then dispatch k e.label r.2 else passLoop rest (k + 1) r.2

/-- The pass from position `k` on, up to its next waiting point or its end. -/
def passFrom (k : Nat) (s : State) : State :=
  passLoop (s.cfg.channels.drop k) k s

/-- POLL_PASS (spec/42_poll_loop.md R150). -/
def execPollPass (s : State) : Host.Outcome State Fault Refusal :=
  .next (passFrom 0 s)

/-- RUN (spec/42_poll_loop.md R154): `running <- 1`, then pass after pass. -/
def execRun (s : State) : Host.Outcome State Fault Refusal :=
  .next (passFrom 0 { s with running := true })

/-- `AwaitCompletion()` ends for the event of position `k` and the pass goes on behind it (spec/42_poll_loop.md R152, R155). -/
def completeDispatch (k : Nat) (s : State) : State :=
  passFrom (k + 1) (emit .completed s)

end Sys2Proof.Machine
end

