-- ==== Sys2Proof/Machine/Dispatch.lean ====
section
/-!
DEFINITION. The meaning of each operation, one arm a constructor.
-/

namespace Sys2Proof.Machine

def exec (i : Instr) (s : State) : Host.Outcome State Fault Refusal :=
  match i with
  | .readChannel ch => Sys2Proof.Machine.execReadChannel ch s
  | .poll k => Sys2Proof.Machine.execPoll k s
  | .pollPass => Sys2Proof.Machine.execPollPass s
  | .run => Sys2Proof.Machine.execRun s
  | .spiFrameRead c => Sys2Proof.Machine.execSpiFrameRead c s

end Sys2Proof.Machine
end

