-- ==== Sys2Proof/Machine/Reset.lean ====
section
/-!
DEFINITION. Reset, which is the construction of the block (spec/70_reset_and_hazards.md R200 to R208), and the platform's
acquisition of a line (spec/60_exceptions.md R186).
-/

namespace Sys2Proof.Machine

/-- `P < RL` and `RL < RH` (spec/10_state.md R23). -/
def thresholdsWf (cfg : Config) : Bool :=
  decide (cfg.pressThreshold < cfg.releaseLow) && decide (cfg.releaseLow < cfg.releaseHigh)

/-- Every `ch_k` in `[0,7]` (spec/10_state.md R26). -/
def channelsWf (cfg : Config) : Bool :=
  cfg.channels.all fun e => decide (0 ≤ e.ch) && decide (e.ch ≤ 7)

/-- The identifier of a role (spec/10_state.md R20). -/
def pinOf (cfg : Config) : Role → Int
  | .cs => cfg.pinCs
  | .clk => cfg.pinClk
  | .mosi => cfg.pinMosi
  | .miso => cfg.pinMiso

/-- The four roles in acquisition order (spec/70_reset_and_hazards.md R200). -/
def acquisitionOrder : List Role := [.cs, .clk, .mosi, .miso]

/-- Four pairwise distinct identifiers (spec/10_state.md R20). -/
def pinsWf (cfg : Config) : Bool :=
  decide (acquisitionOrder.map (pinOf cfg)).Nodup

/-- A well-formed configuration (spec/60_exceptions.md R178). -/
def configWf (cfg : Config) : Bool :=
  thresholdsWf cfg && channelsWf cfg && pinsWf cfg

/-- `Acquire(pin)` (spec/60_exceptions.md R186): a line the platform already holds gives its handle again; otherwise it is
provisioned once, or cannot be. -/
def acquire (unavailable : List Int) (pin : Int) (p : Platform) : Option (Nat × Platform) :=
  match p.held.lookup pin with
  | some h => some (h, p)
  | none =>
    if unavailable.contains pin then none
    else some (p.next, ⟨p.held ++ [(pin, p.next)], p.next + 1⟩)

/-- The block's handle of a role becomes `h` (spec/10_state.md R31). -/
def setHandle (r : Role) (h : Nat) (s : State) : State :=
  match r with
  | .cs => { s with handles := { s.handles with cs := some h } }
  | .clk => { s with handles := { s.handles with clk := some h } }
  | .mosi => { s with handles := { s.handles with mosi := some h } }
  | .miso => { s with handles := { s.handles with miso := some h } }

/-- A block of which nothing has been set yet: no handle, pin levels unspecified (spec/70_reset_and_hazards.md R201, R202),
an empty record, the driver registers at the values of notes/assumptions/10.md. What the host, the converter and the
platform hold is kept (R207). DESIGN CHOICE (notes/assumptions/36.md): while the construction is under way, `pc`, `st`,
`running`, `fault` and `refused` already hold their reset values, `pc = Idle` among them, though R200 writes them last. -/
def blank (cfg : Config) (s : State) : State where
  cfg := cfg
  handles := ⟨none, none, none, none⟩
  cs := Config.levelFree s.draws.used
  clk := Config.levelFree (s.draws.used + 1)
  mosi := Config.levelFree (s.draws.used + 2)
  chan := 0
  acc := 0
  n := 1
  pc := .idle
  st := List.replicate cfg.channels.length .released
  running := false
  fault := none
  refused := none
  stopped := false
  trace := []
  frames := 0
  inputs := s.inputs
  draws := { s.draws with used := s.draws.used + 3 }
  platform := s.platform

/-- The three writes of reset, in its order (spec/70_reset_and_hazards.md R202). -/
def idlePins (s : State) : State :=
  pinWrite .mosi low (pinWrite .clk low (pinWrite .cs (!s.cfg.csActive) s))

/-- The acquisition loop (spec/70_reset_and_hazards.md R200, R201): the first failure is recorded and ends it. -/
def acquirePins (unavailable : List Int) : List Role → State → State
  | [], s => idlePins s
  | r :: rest, s =>
    match acquire unavailable (pinOf s.cfg r) s.platform with
    | none => { s with fault := some (.pinAcquisitionFailure (pinOf s.cfg r)), pc := .failed }
    | some (h, p) => acquirePins unavailable rest (setHandle r h { s with platform := p })

/-- `Reset(config)` (spec/70_reset_and_hazards.md R200). A refused configuration is found before any pin is acquired
(spec/60_exceptions.md R176). -/
def construct (cfg : Config) (unavailable : List Int) (s : State) : State :=
  if configWf cfg then acquirePins unavailable acquisitionOrder (blank cfg s)
  else refuse .illFormedConfiguration s

end Sys2Proof.Machine
end

