-- ==== Sys2Proof/Machine/Moments.lean ====
section
/-!
DEFINITION. The moments of an operation: the states it goes through, one a primitive of spec/00_scope.md R10, in order. A stop
or a reset may fall after any of them (spec/42_poll_loop.md R160). The last moment of an operation is the state its meaning
gives.
-/

namespace Sys2Proof.Machine

/-- The states a piece of an operation goes through from a state, without that state itself. -/
abbrev Moments := State → List State

/-- The state a piece of an operation ends in. -/
def ends (m : Moments) (s : State) : State := (m s).getLastD s

/-- One primitive. -/
def one (f : State → State) : Moments := fun s => [f s]

/-- One piece, and the next from where it ends. -/
def followedBy (f g : Moments) : Moments := fun s => f s ++ g (ends f s)

/-- One piece for each entry of a list, in order. -/
def each {α : Type} (f : α → Moments) : List α → Moments
  | [] => fun _ => []
  | x :: xs => followedBy (f x) (each f xs)

/-- The state after the first `j` primitives, or the last where there are not so many. -/
def momentAt (j : Nat) (m : Moments) (s : State) : State := ((m s).take j).getLastD s

/-- `pulse` (spec/40_adc_driver.md R103). -/
def pulseMoments : Moments :=
  each one [waitAtLeast .setup, pinWrite .clk high, waitAtLeast .high, pinWrite .clk low]

/-- `lateMosi` (spec/30_encoding.md R83): the draw, then each write. -/
def lateMoments : Moments := fun s =>
  followedBy (one fun t => { t with draws := (drawMosi t.draws).2 })
    (each (fun l => one (pinWrite .mosi l)) (drawMosi s.draws).1) s

/-- `commandPulse` (spec/40_adc_driver.md R102, steps 2 and 3). -/
def commandMoments (nb : Nat × Level) : Moments :=
  followedBy (each one [atPulse nb.1, pinWrite .mosi nb.2]) pulseMoments

/-- `nullPulse` (spec/40_adc_driver.md R102, step 4). -/
def nullMoments : Moments :=
  followedBy (one (atPulse 6)) (followedBy lateMoments pulseMoments)

/-- `dataPulse` (spec/40_adc_driver.md R102, step 5). -/
def dataMoments (n : Nat) : Moments :=
  followedBy (one (atPulse n)) (followedBy lateMoments (followedBy pulseMoments (one shiftSample)))

/-- `openFrame` (spec/40_adc_driver.md R102, step 1). -/
def openMoments (c : Chan) : Moments :=
  each one [csIdleGap, beginRead c, fun s => pinWrite .cs s.cfg.csActive s]

/-- `readFrame` (spec/40_adc_driver.md R102). -/
def frameMoments (c : Chan) : Moments :=
  followedBy (openMoments c) (followedBy (each commandMoments (commandPulses c)) (followedBy nullMoments
    (followedBy (each dataMoments dataPulses) (one closeFrame))))

/-- `finish`: the response, then the position. -/
def finishMoments (r : Response) : Moments := each one [emit (.response r), setPos .idle]

/-- READ_CHANNEL (spec/40_adc_driver.md R100). -/
def readChannelMoments (ch : Int) : Moments :=
  if channelValid ch then
    followedBy (frameMoments (chanBits ch)) fun t => finishMoments ⟨statusOk, sampleValue t.acc⟩ t
  else finishMoments ⟨statusInvalidChannel, BitVec.ofInt 32 ch⟩

/-- `pollStep` (spec/41_touch_channel.md R130). -/
def pollStepMoments (k : Nat) : Moments := fun s =>
  followedBy (frameMoments (channelAt s.cfg k))
    (each one [setPos (.polling k), fun t => setTouch k (pollHyst k t).1 t]) s

/-- POLL (spec/41_touch_channel.md R130). -/
def pollMoments (k : Nat) : Moments := fun s =>
  if s.cfg.channels.length ≤ k then [refuse .pollPositionOutOfRange s]
  else followedBy (pollStepMoments k) (finishMoments ⟨statusOk, pressValue (pollStep k s).1⟩) s

/-- `endPass` (spec/42_poll_loop.md R150, R154). -/
def endPassMoments : Moments := fun s =>
  if s.running then [setPos (.passing 0) s] else finishMoments ⟨statusOk, 0#32⟩ s

/-- `dispatch` (spec/42_poll_loop.md R150). -/
def dispatchMoments (k : Nat) (label : Label) : Moments :=
  each one [setPos (.dispatching k), emit (.press (BitVec.ofNat 32 k) label)]

/-- `passLoop` (spec/42_poll_loop.md R150). -/
def passMoments : List ChannelEntry → Nat → Moments
  | [], _ => endPassMoments
  | e :: rest, k => fun s =>
    followedBy (followedBy (one (setPos (.passing k))) (pollStepMoments k))
      (if (pollStep k (setPos (.passing k) s)).1 then dispatchMoments k e.label else passMoments rest (k + 1)) s

/-- `passFrom` (spec/42_poll_loop.md R150). -/
def passFromMoments (k : Nat) : Moments := fun s => passMoments (s.cfg.channels.drop k) k s

/-- The moments of each operation's meaning. -/
def execMoments : Instr → Moments
  | .readChannel ch => readChannelMoments ch
  | .poll k => pollMoments k
  | .pollPass => passFromMoments 0
  | .run => followedBy (one fun s => { s with running := true }) (passFromMoments 0)
  | .spiFrameRead c => followedBy (frameMoments c) (one (setPos .idle))

/-- `acquirePins` (spec/70_reset_and_hazards.md R200): each acquisition, then the three writes of reset. -/
def acquireMoments (unavailable : List Int) : List Role → Moments
  | [] => each one [fun s => pinWrite .cs (!s.cfg.csActive) s, pinWrite .clk low, pinWrite .mosi low]
  | r :: rest => fun s =>
    match acquire unavailable (pinOf s.cfg r) s.platform with
    | none => [{ s with fault := some (.pinAcquisitionFailure (pinOf s.cfg r)), pc := .failed }]
    | some (h, p) =>
      followedBy (one fun t => setHandle r h { t with platform := p }) (acquireMoments unavailable rest) s

/-- `construct` (spec/70_reset_and_hazards.md R200). -/
def constructMoments (cfg : Config) (unavailable : List Int) : Moments :=
  if configWf cfg then followedBy (one (blank cfg)) (acquireMoments unavailable acquisitionOrder)
  else one (refuse .illFormedConfiguration)

end Sys2Proof.Machine
end

