-- ==== Sys2Proof/Machine/Port.lean ====
section
/-!
DEFINITION. What reaches the block between two operations (spec/60_exceptions.md R188): the next slot of the host's moves,
the taking of a request (R176, R180), and what the block does of itself when nothing reaches it.
-/

namespace Sys2Proof.Machine

/-- The move of this turn: the first slot, `none` where the list is at its end. -/
def nextMove (s : State) : Option Move := s.inputs.headD none

/-- The state with the slot of this turn read. -/
def afterSlot (s : State) : State := { s with inputs := s.inputs.tail }

/-- Taking a request: only while `pc = Idle` and `running = 0` (spec/60_exceptions.md R180); a word that spells no
operation is refused (R176, spec/30_encoding.md R90). -/
def takeCode (c : Code) (s : State) : Host.Outcome State Fault Refusal :=
  if s.pc = .idle ∧ s.running = false then
    match decode c with
    | .ok i => exec i s
    | .error r => .next (refuse r s)
  else .next (refuse .requestWhileBusy s)

/-- Taking a completion: only while a press event is outstanding (spec/42_poll_loop.md R155). -/
def takeCompletion (s : State) : Host.Outcome State Fault Refusal :=
  match s.pc with
  | .dispatching k => .next (completeDispatch k s)
  | _ => .next (refuse .completionWithoutEvent s)

/-- The stop of a failed block: the recorded fault (spec/60_exceptions.md R173, spec/10_state.md R39). -/
def failedFault (s : State) : Fault :=
  match s.fault with
  | some (.pinAcquisitionFailure pin) => .pinAcquisitionFailure pin
  | none => .failedWithoutRecord

/-- A step no move reaches: `Idle` waits for a request, `Dispatching(k)` for the completion (spec/60_exceptions.md R189), a
pass goes on from its position (spec/42_poll_loop.md R159). -/
def advance (s : State) : Host.Outcome State Fault Refusal :=
  match s.pc with
  | .idle => .next s
  | .dispatching _ => .next s
  | .passing k => .next (passFrom k s)
  | .reading _ => .fault .insideOperation
  | .polling _ => .fault .insideOperation
  | .failed => .fault (failedFault s)

/-- `advance` primitive by primitive. -/
def advanceMoments (s : State) : List State :=
  match s.pc with
  | .passing k => passFromMoments k s
  | _ => []

/-- `takeCode` primitive by primitive. -/
def codeMoments (c : Code) (s : State) : List State :=
  if s.pc = .idle ∧ s.running = false then
    match decode c with
    | .ok i => execMoments i s
    | .error r => [refuse r s]
  else [refuse .requestWhileBusy s]

/-- `takeCompletion` primitive by primitive. -/
def completionMoments (s : State) : List State :=
  match s.pc with
  | .dispatching k => followedBy (one (emit .completed)) (passFromMoments (k + 1)) s
  | _ => [refuse .completionWithoutEvent s]

/-- Whether the block may take a step: what `gate` asks. -/
def mayStep (s : State) : Bool :=
  !s.stopped && decide (s.pc ≠ .failed) && s.refused.isNone

/-- What a block may do that is neither stopped nor failed nor refused: a stopped block takes no step
(spec/42_poll_loop.md R160), nor does a failed one (spec/60_exceptions.md R173, R176), and a refused one has no meaning any
more (R178). -/
def gate (act : State → Host.Outcome State Fault Refusal) (s : State) : Host.Outcome State Fault Refusal :=
  if s.stopped then .fault .stopped
  else if s.pc = .failed then .fault (failedFault s)
  else
    match s.refused with
    | some r => .refused (.marked r)
    | none => act s

/-- The states a turn goes through, primitive by primitive; none where the block may take no step or waits. -/
def workMoments (w : Work) (s : State) : List State :=
  match w with
  | .constructing cfg unavailable => constructMoments cfg unavailable s
  | .waiting => if mayStep s then advanceMoments s else []
  | .serving c => if mayStep s then codeMoments c s else []
  | .completing => if mayStep s then completionMoments s else []

/-- How a turn that is cut short ends, from the state it had reached: a reset begins with a stop, and a pin write by
another agent gives the run no meaning (spec/70_reset_and_hazards.md R215). -/
def endWith (e : Ending) (s : State) : State :=
  match e with
  | .stop => halt s
  | .construct cfg unavailable => construct cfg unavailable (halt s)
  | .drive _ _ => refuse .pinInterference s

/-- Whether a turn cut short is one in which the host stops or constructs the block: whatever its state. -/
def hostActs (w : Work) (e : Ending) : Bool :=
  match e with
  | .stop => true
  | .construct _ _ => true
  | .drive _ _ =>
    match w with
    | .constructing _ _ => true
    | _ => false

/-- The turn `w`, cut short after its first `j` primitives. -/
def cutTurn (w : Work) (j : Nat) (e : Ending) (s : State) : Host.Outcome State Fault Refusal :=
  .next (endWith e (momentAt j (workMoments w) s))

/-- One turn. The host may construct or stop the block whatever its state (spec/42_poll_loop.md R160,
spec/60_exceptions.md R188); every other turn goes through `gate`. -/
def turn (m : Option Move) (s : State) : Host.Outcome State Fault Refusal :=
  match m with
  | none => gate advance s
  | some (.issue c) => gate (takeCode c) s
  | some .complete => gate takeCompletion s
  | some (.drive _ _) => gate (fun s => .next (refuse .pinInterference s)) s
  | some .stop => .next (halt s)
  | some (.construct cfg unavailable) => .next (construct cfg unavailable s)
  | some (.during w j e) => if hostActs w e then cutTurn w j e s else gate (cutTurn w j e) s

/-- The code of a word of spec/opcode_table.json as the move that issues it; a word that is none lets the turn pass. -/
def tableMove (nbits w : Nat) : Option Move :=
  (tableCode nbits w).map .issue

end Sys2Proof.Machine
end

