-- ==== Sys2Proof/Machine/Step.lean ====
section
/-!
DEFINITION. One step of the machine, and the host's placing of an instruction.
-/

namespace Sys2Proof.Machine

/-- One step: the slot of this turn is read and the turn is taken. -/
def step (s : State) : Host.Outcome State Fault Refusal :=
  turn (nextMove s) (afterSlot s)

/-- `s` with the instruction of a table word issued at the next step. The block takes a request only while it is idle,
not running, not refused, not failed and not stopped (spec/60_exceptions.md R176, R180), so these are set to that; a
request is loaded from outside the machine (notes/assumptions/9.md). -/
def State.withFetchWord (s : State) (nbits w : Nat) : State :=
  { s with
    pc := .idle
    running := false
    refused := none
    stopped := false
    inputs := tableMove nbits w :: s.inputs }

end Sys2Proof.Machine
end

