-- ==== Sys2Proof/Safety.lean ====
section
/-!
DEFINITION. What counts as a safe run, in the terms statements use: what an observer reads off a record of events, the
wire protocol as a checker of its own (written from spec/40_adc_driver.md R103 to R107, not from the driver), and the
invariants of the machine between two steps.
-/

namespace Sys2Proof.Safety

open Sys2Proof.Machine

/-! ### Reading a record of events -/

/-- The bits sampled from MISO, in order (spec/00_scope.md R11, `Sample`). -/
def samples : List Event → List Level
  | [] => []
  | .pin (.sample b) :: es => b :: samples es
  | _ :: es => samples es

/-- The writes to one output pin, in order. -/
def writesOf (p : OutPin) : List Event → List Level
  | [] => []
  | .pin (.write q l) :: es => if q = p then l :: writesOf p es else writesOf p es
  | _ :: es => writesOf p es

/-- How long the waits of one kind lasted, in order. -/
def waitsOf (k : WaitKind) : List Event → List Nat
  | [] => []
  | .pin (.wait k' ns) :: es => if k' = k then ns :: waitsOf k es else waitsOf k es
  | _ :: es => waitsOf k es

/-- The responses made, in order. -/
def responses : List Event → List Response
  | [] => []
  | .response r :: es => r :: responses es
  | _ :: es => responses es

/-- The press events emitted, in order. -/
def presses : List Event → List (BitVec 32 × Label)
  | [] => []
  | .press k label :: es => (k, label) :: presses es
  | _ :: es => presses es

/-- The pin events alone (spec/00_scope.md R11). -/
def pinEvents : List Event → List PinEvent
  | [] => []
  | .pin e :: es => e :: pinEvents es
  | _ :: es => pinEvents es

/-- The CS idle times recorded, in order. -/
def csIdles : List Event → List Nat
  | [] => []
  | .csIdle ns :: es => ns :: csIdles es
  | _ :: es => csIdles es

/-- What the converter sees: the MOSI level at each write of CLK High, in order, when MOSI is at `m` before. -/
def mosiAtRise (m : Level) : List Event → List Level
  | [] => []
  | .pin (.write .mosi l) :: es => mosiAtRise l es
  | .pin (.write .clk true) :: es => m :: mosiAtRise m es
  | _ :: es => mosiAtRise m es

/-- The value of a string of bits, most significant first: the sum of `d * 2^(places after it)` (spec/30_encoding.md R85). -/
def weighted : List Level → Nat
  | [] => 0
  | b :: bs => b.toNat * 2 ^ bs.length + weighted bs

/-- The sample of the `j`-th frame of a record, from the bits sampled in it, twelve a frame. -/
def frameSample (es : List Event) (j : Nat) : Nat := weighted (((samples es).drop (12 * j)).take 12)

/-- The levels of pulses 1 to 5 of the `j`-th frame of a record, eighteen pulses a frame, MOSI at `m` before. -/
def frameCommand (m : Level) (es : List Event) (j : Nat) : List Level := ((mosiAtRise m es).drop (18 * j)).take 5

/-- The changes from low to high along a line's levels, the line at `l` before. -/
def risingEdges : Level → List Level → Nat
  | _, [] => 0
  | l, x :: xs => (if l = false ∧ x = true then 1 else 0) + risingEdges x xs

/-- The changes from high to low along a line's levels, the line at `l` before. -/
def fallingEdges : Level → List Level → Nat
  | _, [] => 0
  | l, x :: xs => (if l = true ∧ x = false then 1 else 0) + fallingEdges x xs

/-- The levels of pulses 1 to 5 of a frame for channel `c`: start bit, prefix, channel bits MSB first
(spec/30_encoding.md R80, R81, R82). -/
def commandLevels (c : Chan) : List Level :=
  [true, true, c.getLsbD 2, c.getLsbD 1, c.getLsbD 0]

/-- The pin events of one clock pulse, its two waits as long as `t` says (spec/40_adc_driver.md R103). -/
def pulseEvents (t : Nat × Nat) : List PinEvent :=
  [.wait .setup t.1, .write .clk true, .wait .high t.2, .write .clk false]

/-- The pin events of a frame for channel `c` in which MOSI is not written after pulse 5, written out pulse by pulse:
`Write(CS, CS_ACTIVE)`, five pulses with their bit, the null pulse, twelve pulses each with its sample, `Write(CS, not
CS_ACTIVE)` (spec/40_adc_driver.md R108). `cmd`, `null` and `data` give each pulse its two wait times, `data` also the
sampled bits. -/
def frameEvents (active : Level) (c : Chan) (cmd : List (Nat × Nat)) (null : Nat × Nat)
    (data : List ((Nat × Nat) × Level)) : List PinEvent :=
  [.write .cs active]
    ++ (List.zipWith (fun l t => .write .mosi l :: pulseEvents t) (commandLevels c) cmd).flatten
    ++ pulseEvents null
    ++ (data.map fun d => pulseEvents d.1 ++ [.sample d.2]).flatten
    ++ [.write .cs (!active)]

/-! ### The wire protocol and the press-event handshake, as a checker of recorded events -/

/-- What the checker remembers: the levels of the three lines, the rising edges and samples since chip-select was
asserted, the wait that has elapsed since the last write, whether a press event is outstanding, how many frames have ended,
and whether the idle time before the next frame has been recorded. -/
structure Bus where
  cs : Level
  clk : Level
  mosi : Level
  rises : Nat
  taken : Nat
  held : Option WaitKind
  outstanding : Bool
  frames : Nat
  gap : Bool
deriving DecidableEq, Repr

/-- The bus after the three writes of reset (spec/70_reset_and_hazards.md R202). -/
def Bus.start (cfg : Config) : Bus := ⟨!cfg.csActive, false, false, 0, 0, none, false, 0, false⟩

/-- One event, or `none` where the protocol forbids it: chip-select moves only with CLK low, is asserted only right
after its idle time, which is at least `T_CS_IDLE_MIN` from the second frame on (spec/10_state.md R27,
spec/70_reset_and_hazards.md R213; notes/assumptions/6.md), and is released only after 18 rising edges and 12 samples
(spec/40_adc_driver.md R106, R107); CLK rises only inside a frame, after a setup wait of at least `T_SETUP_MIN`, the
first two times with MOSI at 1, and falls only after a high wait of at least `T_HIGH_MIN` (R103, R81, R82,
spec/70_reset_and_hazards.md R210, R211); MOSI is written only with CLK low and before the setup wait (R104); MISO is
sampled once after the falling edge of each of pulses 7 to 18 and before anything else (R105); responses and press
events stand between frames, and nothing but its completion follows a press event (spec/42_poll_loop.md R153, R155). -/
def busStep (cfg : Config) (b : Bus) : Event → Option Bus
  | .pin (.write .cs l) =>
    if l = cfg.csActive then
      if b.cs = (!cfg.csActive) ∧ b.clk = false ∧ b.outstanding = false ∧ b.gap = true then
        some { b with cs := l, rises := 0, taken := 0, held := none, gap := false }
      else none
    else if b.cs = cfg.csActive ∧ b.clk = false ∧ b.rises = 18 ∧ b.taken = 12 ∧ b.held = none then
      some { b with cs := l, frames := b.frames + 1 }
    else none
  | .pin (.write .clk true) =>
    if b.cs = cfg.csActive ∧ b.clk = false ∧ b.held = some .setup ∧ b.rises < 18 ∧ (b.rises < 2 → b.mosi = true) then
      some { b with clk := true, rises := b.rises + 1, held := none }
    else none
  | .pin (.write .clk false) =>
    if b.cs = cfg.csActive ∧ b.clk = true ∧ b.held = some .high then some { b with clk := false, held := none } else none
  | .pin (.write .mosi l) =>
    if b.cs = cfg.csActive ∧ b.clk = false ∧ b.held = none ∧ b.rises < 18 ∧ b.taken = b.rises - 6 then
      some { b with mosi := l }
    else none
  | .pin (.sample _) =>
    if b.cs = cfg.csActive ∧ b.clk = false ∧ b.held = none ∧ b.taken + 7 = b.rises then
      some { b with taken := b.taken + 1 }
    else none
  | .pin (.wait .setup ns) =>
    if b.cs = cfg.csActive ∧ b.clk = false ∧ b.held = none ∧ b.taken = b.rises - 6 ∧ cfg.tSetupMin ≤ ns then
      some { b with held := some .setup }
    else none
  | .pin (.wait .high ns) =>
    if b.cs = cfg.csActive ∧ b.clk = true ∧ b.held = none ∧ cfg.tHighMin ≤ ns then
      some { b with held := some .high }
    else none
  | .csIdle ns =>
    if b.cs = (!cfg.csActive) ∧ b.outstanding = false ∧ b.gap = false ∧ (0 < b.frames → cfg.tCsIdleMin ≤ ns) then
      some { b with gap := true }
    else none
  | .response _ => if b.cs = (!cfg.csActive) ∧ b.outstanding = false ∧ b.gap = false then some b else none
  | .press _ _ =>
    if b.cs = (!cfg.csActive) ∧ b.outstanding = false ∧ b.gap = false then some { b with outstanding := true } else none
  | .completed => if b.outstanding = true then some { b with outstanding := false } else none

/-- The checker over a record: `none` as soon as an event is forbidden. -/
def busRun (cfg : Config) : Bus → List Event → Option Bus
  | b, [] => some b
  | b, e :: es => (busStep cfg b e).bind fun b' => busRun cfg b' es

/-! ### The machine between two steps -/

/-- The three writes of reset (spec/70_reset_and_hazards.md R202). -/
def resetWrites (cfg : Config) : List Event :=
  [.pin (.write .cs (!cfg.csActive)), .pin (.write .clk false), .pin (.write .mosi false)]

/-- `pc = Dispatching(k)` for some `k`. -/
def awaiting : Pos → Bool
  | .dispatching _ => true
  | _ => false

/-- A block that was, or may have been, cut short inside a turn: the host stopped it, or another agent wrote a pin
(spec/70_reset_and_hazards.md R215); a construction that is refused after that leaves its own mark. The spec makes no claim
of the first (spec/42_poll_loop.md R160) and gives the others no meaning (spec/60_exceptions.md R178). -/
def CutShort (s : State) : Prop :=
  s.stopped = true ∨ s.refused = some .pinInterference ∨ s.refused = some .illFormedConfiguration

/-- The record of a block that has not failed is a sequence of whole frames, responses and press events that obeys the
wire protocol from the reset levels on, and it ends with the levels the state holds, chip-select idle, and a press event
outstanding exactly while the position is `Dispatching(k)`. The record of a block cut short is the beginning of one that
obeys the protocol: it may end in the middle of a frame. -/
def BusKept (s : State) : Prop :=
  s.pc = .failed ∨
  (CutShort s ∧
    ∃ later es b, s.trace ++ later = resetWrites s.cfg ++ es ∧ busRun s.cfg (Bus.start s.cfg) es = some b) ∨
  ∃ es b, s.trace = resetWrites s.cfg ++ es ∧ busRun s.cfg (Bus.start s.cfg) es = some b ∧
    b.cs = s.cs ∧ b.clk = s.clk ∧ b.mosi = s.mosi ∧ s.cs = (!s.cfg.csActive) ∧ s.clk = false ∧
    b.outstanding = awaiting s.pc ∧ b.frames = s.frames ∧ b.gap = false

/-- The positions a block holds between two steps (spec/10_state.md R34): `Idle` outside RUN, the start of a pass inside
RUN, or a press event outstanding for a position of the table. -/
def Resting (s : State) : Prop :=
  (s.pc = .idle ∧ s.running = false) ∨ (s.pc = .passing 0 ∧ s.running = true) ∨
    ∃ k, s.pc = .dispatching k ∧ k < s.cfg.channels.length

/-- Every pin has its handle (spec/10_state.md R31). -/
def Equipped (h : Handles) : Prop :=
  h.cs.isSome ∧ h.clk.isSome ∧ h.mosi.isSome ∧ h.miso.isSome

/-- A constructed block at rest: well-formed configuration, all handles held, one channel state per position, no fault,
chip-select idle, CLK low, the pulse index in 1..18, a position of `Resting`. -/
def Settled (s : State) : Prop :=
  configWf s.cfg = true ∧ Equipped s.handles ∧ s.st.length = s.cfg.channels.length ∧ s.fault = none ∧
    s.cs = (!s.cfg.csActive) ∧ s.clk = false ∧ (1 ≤ s.n ∧ s.n ≤ 18) ∧ Resting s

/-- A block whose construction failed: `pc = Failed`, the record names one of its four pins, nothing was written
(spec/70_reset_and_hazards.md R201). -/
def Dead (s : State) : Prop :=
  s.pc = .failed ∧ (∃ r, s.fault = some (.pinAcquisitionFailure (pinOf s.cfg r))) ∧ s.trace = []

/-- The invariant of the machine between two steps. -/
def Sound (s : State) : Prop := CutShort s ∨ Settled s ∨ Dead s

/-! ### What a slot asks for -/

/-- The slot that lets the block take the whole of a turn. -/
def ordinary : Work → Option Move
  | .waiting => none
  | .serving c => some (.issue c)
  | .completing => some .complete
  | .constructing cfg unavailable => some (.construct cfg unavailable)

/-- The host constructs the block in this slot, if only in part. -/
def buildsAnew : Option Move → Bool
  | some (.construct _ _) => true
  | some (.during (.constructing _ _) _ _) => true
  | some (.during _ _ (.construct _ _)) => true
  | _ => false

/-- The host stops or constructs the block in this slot, or constructs it in part: whatever its state. -/
def endsTheBlock : Option Move → Bool
  | some (.construct _ _) => true
  | some .stop => true
  | some (.during w _ e) => hostActs w e
  | _ => false

/-! ### What an operation leaves alone, and what a pass does -/

/-- Everything but the pins, the driver registers, the position, the channel states and the record is as it was. -/
def Kept (s t : State) : Prop :=
  t.cfg = s.cfg ∧ t.handles = s.handles ∧ t.running = s.running ∧ t.fault = s.fault ∧ t.refused = s.refused ∧
    t.stopped = s.stopped ∧ t.inputs = s.inputs ∧ t.platform = s.platform

/-- What the poll of position `k + j`, the `j`-th of a pass that recorded `es`, computes from the state before the pass. -/
def polledAs (k : Nat) (s : State) (es : List Event) (j : Nat) : Touch × Bool :=
  hyst s.cfg (touchAt s (k + j)) (frameSample es j)

/-- `t` is `s` after the polls of the `m` positions from `k` on, in order and with one frame each, which recorded `es`
(spec/42_poll_loop.md R150, R151): each frame is that of its position's own channel, each state follows `Hyst` on its own
sample, no other state changes, and no poll but the last may have reported a press. -/
structure PassGoes (k : Nat) (s t : State) (es : List Event) (m : Nat) : Prop where
  trace : t.trace = s.trace ++ es
  kept : Kept s t
  bound : k + m ≤ s.cfg.channels.length
  frames : t.frames = s.frames + m
  sampled : (samples es).length = 12 * m
  pulsed : (mosiAtRise s.mosi es).length = 18 * m
  own : ∀ j < m, ∀ e, s.cfg.channels[k + j]? = some e → frameCommand s.mosi es j = commandLevels (BitVec.ofInt 3 e.ch)
  polled : ∀ j < m, touchAt t (k + j) = (polledAs k s es j).1
  others : ∀ i, i < k ∨ k + m ≤ i → touchAt t i = touchAt s i
  length : t.st.length = s.st.length
  quiet : ∀ j, j + 1 < m → (polledAs k s es j).2 = false

/-- The pass reached its end with no press: every position from `k` on was polled, nothing was dispatched. -/
def PassEnds (k : Nat) (s : State) (es : List Event) (m : Nat) : Prop :=
  k + m = s.cfg.channels.length ∧ (∀ j < m, (polledAs k s es j).2 = false) ∧ presses es = []

/-- The pass waits at the position it polled last, which reported the press: its event, with the position and its label,
is the one press event and the last event recorded (spec/42_poll_loop.md R152, R155, spec/30_encoding.md R92). -/
def PassWaits (k : Nat) (s t : State) (es : List Event) (m : Nat) : Prop :=
  ∃ j e, m = j + 1 ∧ (polledAs k s es j).2 = true ∧ s.cfg.channels[k + j]? = some e ∧
    t.pc = .dispatching (k + j) ∧ presses es = [(BitVec.ofNat 32 (k + j), e.label)] ∧
    es.getLast? = some (.press (BitVec.ofNat 32 (k + j)) e.label) ∧ responses es = []

end Sys2Proof.Safety
end

