-- ==== Sys2Proof/Certificates/Slice0/Obligations.lean ====
section
/-!
DEFINITION. The statements for the provers, each from the rule or section of spec/ its docstring names. `s.inputs = m ::
rest` says which move, or none, is in the slot the next step reads.
-/

open Sys2Proof Sys2Proof.Machine Sys2Proof.Safety

/-! ### Encodings -/

/-- The decoder undoes the encoder on every instruction the words can spell (spec/30_encoding.md R82, R84, R88, R91). -/
def Obligations.DecodeOfEncode : Prop :=
  ∀ i : Instr, i.wellFormed = true → decode (encode i) = .ok i

/-- Every word has at most one spelling: what decodes is well-formed and encodes to the same word (spec/30_encoding.md
R91). -/
def Obligations.EncodeOfDecode : Prop :=
  ∀ (c : Code) (i : Instr), decode c = .ok i → i.wellFormed = true ∧ encode i = c

/-- The request decoder on every 40-bit word, as numbers: opcode `op`, operand `arg`, the channel read as a two's complement
number; 4294967296 is `2^32` and 2147483648 is `2^31` (spec/30_encoding.md R91). -/
def Obligations.RequestDecoder : Prop :=
  ∀ op arg : Nat, op < 256 → arg < 4294967296 →
    decode (.request (BitVec.ofNat 40 (op * 4294967296 + arg))) =
      if op = 1 then .ok (.readChannel (if arg < 2147483648 then (arg : Int) else (arg : Int) - 4294967296))
      else if op = 2 then .ok (.poll arg)
      else if op = 3 then (if arg = 0 then .ok .pollPass else .error .nonZeroOperand)
      else if op = 4 then (if arg = 0 then .ok .run else .error .nonZeroOperand)
      else .error .reservedOpcode

/-- Five driven bits are a frame of the block exactly when they are, as a number, 24 plus a channel number
(spec/30_encoding.md R82, R86). -/
def Obligations.FrameWordsAreTwentyFourPlusChannel : Prop :=
  ∀ (w : FrameWord) (c : Chan), decode (.frame w) = .ok (.spiFrameRead c) ↔ w.toNat = 24 + c.toNat

/-- The words of spec/30_encoding.md R93, of test vectors V-D1 to V-D6 and of the frame of channel 5 (R82) decode to what
the spec says they are, and five driven bits without the prefix are no frame (R86); that the model refuses those, and the
name of that reason, are its choice (notes/assumptions/20.md). -/
def Obligations.WrittenOutWordsDecode : Prop :=
  decode (.request 0x0100000005#40) = .ok (.readChannel 5) ∧
  decode (.request 0x01FFFFFFFF#40) = .ok (.readChannel (-1)) ∧
  decode (.request 0x0200000002#40) = .ok (.poll 2) ∧
  decode (.request 0x0300000000#40) = .ok .pollPass ∧
  decode (.request 0x0400000000#40) = .ok .run ∧
  decode (.frame 0b11101#5) = .ok (.spiFrameRead 5#3) ∧
  decode (.request 0x0000000000#40) = .error .reservedOpcode ∧
  decode (.request 0x0500000000#40) = .error .reservedOpcode ∧
  decode (.request 0xFF00000005#40) = .error .reservedOpcode ∧
  decode (.request 0x0400000002#40) = .error .nonZeroOperand ∧
  decode (.request 0x02FFFFFFFF#40) = .ok (.poll 4294967295) ∧
  decode (.request 0x01FFFFFFF9#40) = .ok (.readChannel (-7)) ∧
  decode (.frame 0b10101#5) = .error .frameNeverEmitted

/-! ### One step runs the decoded instruction -/

/-- An idle block that is neither running nor refused takes the request of its slot: the step is `exec` of the decoded
instruction at the state with the slot read (spec/60_exceptions.md R176, R180). The slots, and that a
frame's driven bits may be issued too, are the model's (notes/assumptions/2.md, 11.md). -/
def Obligations.StepRunsTheDecodedInstruction : Prop :=
  ∀ (s : State) (c : Code) (rest : List (Option Move)) (i : Instr),
    s.pc = .idle → s.running = false → s.refused = none → s.stopped = false →
      s.inputs = some (.issue c) :: rest → decode c = .ok i →
      step s = exec i { s with inputs := rest }

/-- A word that spells no operation is refused: the mark is set with the decoder's reason, and nothing else of the block
changes, so there is no pin event and no response (spec/30_encoding.md R90, spec/60_exceptions.md R178). That the mark
comes in a next state is the model's choice (notes/assumptions/12.md). -/
def Obligations.UndecodableRequestIsMarked : Prop :=
  ∀ (s : State) (c : Code) (rest : List (Option Move)) (r : Reason),
    s.pc = .idle → s.running = false → s.refused = none → s.stopped = false →
      s.inputs = some (.issue c) :: rest → decode c = .error r →
      step s = .next { s with inputs := rest, refused := some r }

/-- A POLL of a position outside the table is refused the same way (spec/30_encoding.md R90, spec/60_exceptions.md R178;
notes/assumptions/12.md). -/
def Obligations.PollOutsideTheTableIsMarked : Prop :=
  ∀ (s : State) (k : Nat), s.cfg.channels.length ≤ k →
    exec (.poll k) s = .next { s with refused := some .pollPositionOutOfRange }

/-! ### READ_CHANNEL and the frame -/

/-- READ_CHANNEL of a valid channel (spec/40_adc_driver.md R100, R102): one frame for that channel, twelve samples, the
response `OK` with their value last, `Idle`; no channel state and no other element is written. -/
def Obligations.ReadChannelCompletes : Prop :=
  ∀ (s : State) (ch : Int), 0 ≤ ch → ch ≤ 7 →
    ∃ t es, exec (.readChannel ch) s = .next t ∧ t.trace = s.trace ++ es ∧
      (mosiAtRise s.mosi es).take 5 = commandLevels (BitVec.ofNat 3 ch.toNat) ∧
      (samples es).length = 12 ∧ t.acc.toNat = weighted (samples es) ∧
      responses es = [⟨0x00#8, BitVec.ofNat 32 (weighted (samples es))⟩] ∧
      es.getLast? = some (.response ⟨0x00#8, BitVec.ofNat 32 (weighted (samples es))⟩) ∧
      presses es = [] ∧ t.frames = s.frames + 1 ∧ t.chan = BitVec.ofNat 3 ch.toNat ∧ t.pc = .idle ∧
      t.st = s.st ∧ Kept s t

/-- An invalid channel (spec/40_adc_driver.md R101, spec/60_exceptions.md R171, R177): the error response with the operand,
no pin event, and the state is otherwise the state before with `pc = Idle`. -/
def Obligations.InvalidChannelTouchesNothing : Prop :=
  ∀ (s : State) (ch : Int), ch < 0 ∨ 7 < ch →
    exec (.readChannel ch) s =
      .next { s with trace := s.trace ++ [.response ⟨0x01#8, BitVec.ofInt 32 ch⟩], pc := .idle }

/-- SPI_FRAME_READ (spec/40_adc_driver.md R102): the frame alone; the sample is left in `acc`, no response is made
and the position is `Idle`, which is the model's choice (notes/assumptions/11.md). -/
def Obligations.SpiFrameReadCompletes : Prop :=
  ∀ (s : State) (c : Chan),
    ∃ t es, exec (.spiFrameRead c) s = .next t ∧ t.trace = s.trace ++ es ∧
      (mosiAtRise s.mosi es).take 5 = commandLevels c ∧ (mosiAtRise s.mosi es).length = 18 ∧
      (samples es).length = 12 ∧ t.acc.toNat = weighted (samples es) ∧ responses es = [] ∧ presses es = [] ∧
      t.frames = s.frames + 1 ∧ t.chan = c ∧ t.cs = (!s.cfg.csActive) ∧ t.clk = false ∧ t.pc = .idle ∧
      t.st = s.st ∧ Kept s t

/-- The start bit and the command field on the wire (spec/30_encoding.md R81, R82): the converter reads, on the first five
rising edges, 24 plus the channel number, and on pulses 2 to 5 alone 8 plus the channel number, most significant first. -/
def Obligations.CommandFieldOnTheWire : Prop :=
  ∀ (s : State) (c : Chan),
    ∃ t es, exec (.spiFrameRead c) s = .next t ∧ t.trace = s.trace ++ es ∧
      weighted ((mosiAtRise s.mosi es).take 5) = 24 + c.toNat ∧
      weighted (((mosiAtRise s.mosi es).drop 1).take 4) = 8 + c.toNat ∧
      (mosiAtRise s.mosi es)[0]? = some true

/-- The pulse count (spec/40_adc_driver.md R106, the spec's own inference from R102, R103 and R107): a valid read drives
exactly 18 rising and 18 falling edges on CLK, all of them between the assertion and the release of chip-select, and an
invalid read drives none. CLK is Low before (spec/40_adc_driver.md R107; `SoundIsKept`). -/
def Obligations.EighteenPulsesOrNone : Prop :=
  ∀ (s : State) (ch : Int), s.clk = false →
    ∃ t es, exec (.readChannel ch) s = .next t ∧ t.trace = s.trace ++ es ∧
      (0 ≤ ch ∧ ch ≤ 7 →
        risingEdges s.clk (writesOf .clk es) = 18 ∧ fallingEdges s.clk (writesOf .clk es) = 18 ∧
        ∃ before inside after,
          es = before ++ .pin (.write .cs s.cfg.csActive) :: inside ++ .pin (.write .cs (!s.cfg.csActive)) :: after ∧
          writesOf .clk inside = writesOf .clk es ∧ writesOf .cs inside = []) ∧
      (ch < 0 ∨ 7 < ch → risingEdges s.clk (writesOf .clk es) = 0 ∧ fallingEdges s.clk (writesOf .clk es) = 0)

/-- Result assembly (spec/30_encoding.md R85): when the converter drives `d_7 .. d_18`, the read responds with the sum of
`d_n * 2^(18 - n)`, bit `18 - n` of the result is `d_n`, and the result is at most 4095. -/
def Obligations.ResultIsTheSampledBits : Prop :=
  ∀ (s : State) (ch : Int) (d rest : List Level), 0 ≤ ch → ch ≤ 7 → d.length = 12 → s.draws.miso = d ++ rest →
    ∃ t es, exec (.readChannel ch) s = .next t ∧ t.trace = s.trace ++ es ∧ samples es = d ∧
      responses es = [⟨0x00#8, BitVec.ofNat 32 (weighted d)⟩] ∧ weighted d ≤ 4095 ∧
      (∀ n, 7 ≤ n → n ≤ 18 → some (t.acc.getLsbD (18 - n)) = d[n - 7]?) ∧ t.draws.miso = rest

/-- The pin trace of a valid read under the reference choice that MOSI is not written after pulse 5 (spec/40_adc_driver.md
R108, spec/30_encoding.md R83): exactly the 91 pin events of R108, each wait at least its minimum. The trace is the spec's
own inference (R108); the numbers on the waits are the model's (notes/assumptions/5.md). -/
def Obligations.ReferenceTraceHasNinetyOneEvents : Prop :=
  ∀ (s : State) (ch : Int) (rest : List (List Level)), 0 ≤ ch → ch ≤ 7 →
    s.draws.mosi = List.replicate 13 [] ++ rest →
      ∃ t es cmd null data, exec (.readChannel ch) s = .next t ∧ t.trace = s.trace ++ es ∧
        pinEvents es = frameEvents s.cfg.csActive (BitVec.ofNat 3 ch.toNat) cmd null data ∧
        (pinEvents es).length = 91 ∧ cmd.length = 5 ∧ data.length = 12 ∧
        ∀ p ∈ cmd ++ null :: data.map Prod.fst, s.cfg.tSetupMin ≤ p.1 ∧ s.cfg.tHighMin ≤ p.2

/-- Pin state after a read (spec/40_adc_driver.md R111, the spec's own inference from R101 and R102): chip-select idle and
CLK Low after a valid read, MOSI at `chan[0]` under the reference choice and unspecified otherwise; after an invalid read
the pins are as they were. -/
def Obligations.PinsAfterARead : Prop :=
  ∀ (s : State) (ch : Int),
    ∃ t, exec (.readChannel ch) s = .next t ∧
      (0 ≤ ch ∧ ch ≤ 7 → t.cs = (!s.cfg.csActive) ∧ t.clk = false ∧
        ∀ rest, s.draws.mosi = List.replicate 13 [] ++ rest → t.mosi = (BitVec.ofNat 3 ch.toNat : Chan).getLsbD 0) ∧
      (ch < 0 ∨ 7 < ch → t.cs = s.cs ∧ t.clk = s.clk ∧ t.mosi = s.mosi)

/-- The waits of a frame (spec/70_reset_and_hazards.md R210, R211, R212, R218): 18 setup waits and 18 high waits, each at
least its minimum, so the frame lasts at least `18 * (T_SETUP_MIN + T_HIGH_MIN)`, the spec's own inference in
R218. That a wait's event carries its length is the model's choice (notes/assumptions/5.md). -/
def Obligations.FrameLastsAtLeastItsMinimum : Prop :=
  ∀ (s : State) (c : Chan),
    ∃ t es, exec (.spiFrameRead c) s = .next t ∧ t.trace = s.trace ++ es ∧
      (waitsOf .setup es).length = 18 ∧ (waitsOf .high es).length = 18 ∧
      (∀ ns ∈ waitsOf .setup es, s.cfg.tSetupMin ≤ ns) ∧ (∀ ns ∈ waitsOf .high es, s.cfg.tHighMin ≤ ns) ∧
      18 * (s.cfg.tSetupMin + s.cfg.tHighMin) ≤ (waitsOf .setup es).sum + (waitsOf .high es).sum

/-- Chip-select idle time (spec/10_state.md R27, spec/70_reset_and_hazards.md R213), in every frame of every operation, also
one that is cut short: each CS assertion that a step records stands right after an idle gap, and the gap is at
least `T_CS_IDLE_MIN` when a frame has been made before, since construction or earlier in the same step. That the gap is
recorded, and counts from the second frame on, is the model's choice (notes/assumptions/6.md). -/
def Obligations.ChipSelectIdlesBetweenFrames : Prop :=
  ∀ s t : State, buildsAnew (nextMove s) = false → step s = .next t →
    ∃ es, t.trace = s.trace ++ es ∧
      ∀ before after, es = before ++ .pin (.write .cs s.cfg.csActive) :: after →
        ∃ earlier ns, before = earlier ++ [.csIdle ns] ∧
          (0 < s.frames ∨ csIdles earlier ≠ [] → s.cfg.tCsIdleMin ≤ ns)

/-- The same of READ_CHANNEL, POLL and SPI_FRAME_READ one by one: the operation records one frame, its record starts with the
gap and the CS assertion, and the gap is at least `T_CS_IDLE_MIN` when a frame has been made before (notes/assumptions/6.md). -/
def Obligations.EachReadKeepsTheIdleTime : Prop :=
  ∀ (s : State) (i : Instr),
    (∃ ch, i = .readChannel ch ∧ 0 ≤ ch ∧ ch ≤ 7) ∨ (∃ c, i = .spiFrameRead c) ∨
      (∃ k, i = .poll k ∧ k < s.cfg.channels.length) →
    ∃ t ns es, exec i s = .next t ∧
      t.trace = s.trace ++ .csIdle ns :: .pin (.write .cs s.cfg.csActive) :: es ∧ csIdles es = [] ∧
      (0 < s.frames → s.cfg.tCsIdleMin ≤ ns)

/-- The frame of the driver's two operations, valid or not: the channel states, the configuration, the handles, `running`,
the fault record, the mark, the moves to come and the platform are as they were (spec/10_state.md R36, R37, R39, R40). -/
def Obligations.DriverOperationsLeaveTheRest : Prop :=
  ∀ (s t : State) (i : Instr), (∃ ch, i = .readChannel ch) ∨ (∃ c, i = .spiFrameRead c) →
    exec i s = .next t → t.st = s.st ∧ Kept s t

/-! ### POLL and the hysteresis function -/

/-- The table of spec/41_touch_channel.md R138, the spec's own inference from R132, for a well-formed configuration. -/
def Obligations.HysteresisTable : Prop :=
  ∀ (cfg : Config) (x : Nat), cfg.pressThreshold < cfg.releaseLow → cfg.releaseLow < cfg.releaseHigh →
    (x < cfg.pressThreshold → hyst cfg .released x = (.pressed, true) ∧ hyst cfg .pressed x = (.pressed, false)) ∧
    (cfg.pressThreshold ≤ x ∧ x ≤ cfg.releaseLow →
      hyst cfg .released x = (.released, false) ∧ hyst cfg .pressed x = (.pressed, false)) ∧
    (cfg.releaseLow < x ∧ x < cfg.releaseHigh →
      hyst cfg .released x = (.released, false) ∧ hyst cfg .pressed x = (.released, false)) ∧
    (cfg.releaseHigh ≤ x → hyst cfg .released x = (.released, false) ∧ hyst cfg .pressed x = (.pressed, false))

/-- POLL (spec/41_touch_channel.md R130, R131, R137): one frame, for the position's own channel and whatever its state; the
state of that position follows the hysteresis function on the sample read, no other does; the response is 1 for a press and
0 otherwise; `Idle`. -/
def Obligations.PollCompletes : Prop :=
  ∀ (s : State) (k : Nat) (e : ChannelEntry), s.cfg.channels[k]? = some e → s.st.length = s.cfg.channels.length →
    ∃ t es, exec (.poll k) s = .next t ∧ t.trace = s.trace ++ es ∧ t.frames = s.frames + 1 ∧
      (mosiAtRise s.mosi es).length = 18 ∧
      (mosiAtRise s.mosi es).take 5 = commandLevels (BitVec.ofInt 3 e.ch) ∧ (samples es).length = 12 ∧
      touchAt t k = (hyst s.cfg (touchAt s k) (weighted (samples es))).1 ∧
      (∀ j, j ≠ k → touchAt t j = touchAt s j) ∧ t.st.length = s.st.length ∧
      responses es = [⟨0x00#8, if (hyst s.cfg (touchAt s k) (weighted (samples es))).2 then 1#32 else 0#32⟩] ∧
      t.cs = (!s.cfg.csActive) ∧ t.clk = false ∧ t.pc = .idle ∧ Kept s t

/-- What a poll result says (spec/41_touch_channel.md R141, the spec's own inference from R132): the response is 1 exactly
when the state was Released and the sample below the threshold, and exactly when the state goes from Released to Pressed.
-/
def Obligations.PollReportsExactlyThePresses : Prop :=
  ∀ (s : State) (k : Nat), k < s.cfg.channels.length → s.st.length = s.cfg.channels.length →
    ∃ t es v, exec (.poll k) s = .next t ∧ t.trace = s.trace ++ es ∧ responses es = [⟨0x00#8, v⟩] ∧
      (v = 1#32 ↔ touchAt s k = .released ∧ weighted (samples es) < s.cfg.pressThreshold) ∧
      (v = 1#32 ↔ touchAt s k = .released ∧ touchAt t k = .pressed) ∧ (v = 1#32 ∨ v = 0#32)

/-- No direct request emits a press event (spec/42_poll_loop.md R161, the spec's own inference): a read, a frame and a
poll dispatch nothing. -/
def Obligations.OnlyAPassDispatches : Prop :=
  ∀ (s t : State) (i : Instr),
    (∃ ch, i = .readChannel ch) ∨ (∃ c, i = .spiFrameRead c) ∨ (∃ k, i = .poll k) → exec i s = .next t →
      ∃ es, t.trace = s.trace ++ es ∧ presses es = []

/-- A poll decides on the state of its own position and its own sample alone (spec/41_touch_channel.md R137, R139): two
blocks with the same configuration and the same draws to come, which agree on the state of position `k` and on nothing else,
give the same response and leave the same state there. -/
def Obligations.PollDependsOnItsOwnStateAlone : Prop :=
  ∀ (s s' : State) (k : Nat), k < s.cfg.channels.length → s.st.length = s.cfg.channels.length →
    s'.st.length = s'.cfg.channels.length → s'.cfg = s.cfg → s'.draws = s.draws → touchAt s' k = touchAt s k →
      ∃ t t' r, exec (.poll k) s = .next t ∧ exec (.poll k) s' = .next t' ∧
        t.trace.getLast? = some (.response r) ∧ t'.trace.getLast? = some (.response r) ∧ touchAt t' k = touchAt t k

/-- One press per excursion (spec/41_touch_channel.md R140, the spec's own inference from R132), over the samples `xs`
read by the polls of one position from Released: result `n` is that of the state the polls before it left. The first
sample below `P` presses; between two presses lies a sample in the open band; after a press and a later sample in the
band, the next sample below `P` presses. -/
def Obligations.OnePressPerExcursion : Prop :=
  ∀ (cfg : Config) (xs : List Nat), cfg.pressThreshold < cfg.releaseLow → cfg.releaseLow < cfg.releaseHigh →
    let before := fun n => (xs.take n).foldl (fun t x => (hyst cfg t x).1) Touch.released
    let presses := fun n => ∃ x, xs[n]? = some x ∧ (hyst cfg (before n) x).2 = true
    let below := fun n => ∃ x, xs[n]? = some x ∧ x < cfg.pressThreshold
    let inBand := fun n => ∃ x, xs[n]? = some x ∧ cfg.releaseLow < x ∧ x < cfg.releaseHigh
    (∀ n, below n → (∀ m < n, ¬ below m) → presses n) ∧
    (∀ i j, i < j → presses i → presses j → ∃ m, i < m ∧ m < j ∧ inBand m) ∧
    (∀ i m j, i < m → m < j → presses i → inBand m → below j → (∀ l, m < l → l < j → ¬ below l) → presses j)

/-! ### POLL_PASS, RUN and the press-event handshake -/

/-- POLL_PASS (spec/42_poll_loop.md R150, R151, R152): the positions are polled in order from 0; with no press the pass ends
in the response `OK, 0` and `Idle`; at the first press it waits, that event emitted and no later position read. The event's
position is taken modulo 2 to the 32 (notes/assumptions/17.md). -/
def Obligations.PollPassCompletes : Prop :=
  ∀ s : State, s.running = false → s.st.length = s.cfg.channels.length →
    ∃ t es m, exec .pollPass s = .next t ∧ PassGoes 0 s t es m ∧
      ((PassEnds 0 s es m ∧ responses es = [⟨0x00#8, 0#32⟩] ∧ es.getLast? = some (.response ⟨0x00#8, 0#32⟩) ∧
          t.pc = .idle) ∨
        PassWaits 0 s t es m)

/-- RUN (spec/42_poll_loop.md R154): `running` is set and the first pass is made; it waits at a press, or it is over and the
position is the start of the next pass; there is no response. That `exec` answers after one pass, and the position there, are
the model's choices (notes/assumptions/1.md, 17.md, 33.md). -/
def Obligations.RunCompletes : Prop :=
  ∀ s : State, s.st.length = s.cfg.channels.length →
    ∃ t es m, exec .run s = .next t ∧ t.running = true ∧ PassGoes 0 { s with running := true } t es m ∧
      ((PassEnds 0 { s with running := true } es m ∧ responses es = [] ∧ t.pc = .passing 0) ∨
        PassWaits 0 { s with running := true } t es m)

/-- Inside RUN the next pass follows with no step between (spec/42_poll_loop.md R159): the step at `Passing(k)` polls the
positions from `k` on. That a pass is one step is the model's choice (notes/assumptions/1.md). -/
def Obligations.RunGoesOnWithThePass : Prop :=
  ∀ (s : State) (k : Nat) (rest : List (Option Move)), s.pc = .passing k → s.running = true → s.refused = none → s.stopped = false →
    s.inputs = none :: rest → s.st.length = s.cfg.channels.length → k ≤ s.cfg.channels.length →
      ∃ t es m, step s = .next t ∧ PassGoes k { s with inputs := rest } t es m ∧
        ((PassEnds k { s with inputs := rest } es m ∧ responses es = [] ∧ t.pc = .passing 0) ∨
          PassWaits k { s with inputs := rest } t es m)

/-- Synchronous dispatch (spec/42_poll_loop.md R152, R155): while the event of position `k` is outstanding, its completion is
recorded first, and only then are the positions from `k + 1` on polled. That the step ends with the pass, and inside RUN
stands at `Passing(0)`, are the model's choices (notes/assumptions/1.md, 33.md). -/
def Obligations.CompletionLetsThePassGoOn : Prop :=
  ∀ (s : State) (k : Nat) (rest : List (Option Move)), s.pc = .dispatching k → s.refused = none → s.stopped = false →
    s.inputs = some .complete :: rest → s.st.length = s.cfg.channels.length → k < s.cfg.channels.length →
      ∃ t es m, step s = .next t ∧
        PassGoes (k + 1) { s with inputs := rest, trace := s.trace ++ [.completed] } t es m ∧
        ((PassEnds (k + 1) { s with inputs := rest, trace := s.trace ++ [.completed] } es m ∧
            ((s.running = true ∧ responses es = [] ∧ t.pc = .passing 0) ∨
              (s.running = false ∧ responses es = [⟨0x00#8, 0#32⟩] ∧ t.pc = .idle))) ∨
          PassWaits (k + 1) { s with inputs := rest, trace := s.trace ++ [.completed] } t es m)

/-- The stuck state (spec/60_exceptions.md R189, spec/42_poll_loop.md R155): as long as nothing reaches the block, an
outstanding press event holds it at `Dispatching(k)` with nothing changed. That the passing turn is a next state is the
model's choice (notes/assumptions/18.md). -/
def Obligations.OutstandingEventHoldsTheBlock : Prop :=
  ∀ (s : State) (k : Nat) (rest : List (Option Move)), s.pc = .dispatching k → s.refused = none → s.stopped = false →
    s.inputs = none :: rest → step s = .next { s with inputs := rest }

/-- An empty table (spec/42_poll_loop.md R158): POLL_PASS responds `OK, 0` at once with no pin event, and RUN makes no event,
neither in its first pass nor in any later step that nothing reaches. That a pass is a step, and where RUN stands meanwhile,
are the model's choices (notes/assumptions/1.md, 33.md). -/
def Obligations.EmptyTableMakesNoEvent : Prop :=
  ∀ s : State, s.cfg.channels = [] → s.running = false →
    exec .pollPass s = .next { s with trace := s.trace ++ [.response ⟨0x00#8, 0#32⟩], pc := .idle } ∧
    exec .run s = .next { s with running := true, pc := .passing 0 } ∧
    ∀ rest, s.refused = none → s.stopped = false → s.inputs = none :: rest →
      step { s with running := true, pc := .passing 0 } =
        .next { s with running := true, pc := .passing 0, inputs := rest }

/-- RUN has no exit (spec/42_poll_loop.md R154, R160): whatever reaches a running block other than a new construction, as long
as it is not stopped it is still running, not idle, and the step made no response. -/
def Obligations.RunNeverEndsNorResponds : Prop :=
  ∀ s t : State, s.running = true → s.pc ≠ .idle → buildsAnew (nextMove s) = false → step s = .next t →
    t.stopped = false → t.running = true ∧ t.pc ≠ .idle ∧ ∃ es, t.trace = s.trace ++ es ∧ responses es = []

/-! ### Invariants of every step -/

/-- Every step keeps the wire protocol and the press-event handshake: if the record obeys the checker of
`Sys2Proof.Safety.busStep` and ends with the levels the state holds, so does the record after the step; the record of a block
cut short is the beginning of one that does (spec/10_state.md R27, spec/40_adc_driver.md R103 to R107,
spec/42_poll_loop.md R153, R155). The record itself, with its idle gaps and completions, is the model's
(notes/assumptions/6.md, 25.md). -/
def Obligations.BusProtocolIsKept : Prop :=
  ∀ s t : State, BusKept s → step s = .next t → BusKept t

/-- The record at reset obeys the protocol. -/
def Obligations.BusProtocolHoldsAtReset : Prop := BusKept State.reset

/-- Every step keeps the machine settled between two steps, or failed for good, or cut short: well-formed configuration, handles
held, one state per position, chip-select idle, CLK low, a position of spec/10_state.md R34 at which the block may wait. Which
positions those are rests on notes/assumptions/1.md. -/
def Obligations.SoundIsKept : Prop :=
  ∀ s t : State, Sound s → step s = .next t → Sound t

/-- The machine is settled at reset. -/
def Obligations.SoundHoldsAtReset : Prop := Settled State.reset

/-- No operation writes any configuration field (spec/10_state.md R28); only a construction does, also one that cuts an
operation short: it sets the configuration it is given when that is well-formed. A refused one leaves the configuration
before, which is the model's choice (notes/assumptions/26.md). -/
def Obligations.OnlyConstructionConfigures : Prop :=
  ∀ s t : State, step s = .next t →
    (buildsAnew (nextMove s) = false → t.cfg = s.cfg) ∧
    (∀ cfg u, nextMove s = some (.construct cfg u) → t.cfg = if configWf cfg then cfg else s.cfg) ∧
    (∀ w j cfg u, nextMove s = some (.during w j (.construct cfg u)) → configWf cfg = true → t.cfg = cfg) ∧
    (∀ w j cfg u, nextMove s = some (.during w j (.construct cfg u)) → configWf cfg = false →
      (∀ cfg' u', w ≠ .constructing cfg' u') → t.cfg = s.cfg)

/-- The pin handles and the fault record are written by a construction only (spec/10_state.md R31, R39). -/
def Obligations.OnlyConstructionWritesHandlesAndFault : Prop :=
  ∀ s t : State, buildsAnew (nextMove s) = false → step s = .next t →
    t.handles = s.handles ∧ t.fault = s.fault ∧ t.platform = s.platform

/-- `running` is set by RUN, if only begun, and by nothing else, and cleared by nothing but a construction
(spec/10_state.md R37). -/
def Obligations.OnlyRunSetsRunning : Prop :=
  ∀ s t : State, buildsAnew (nextMove s) = false → step s = .next t → t.running ≠ s.running →
    s.running = false ∧ ∃ c, decode c = .ok .run ∧
      (nextMove s = some (.issue c) ∨ ∃ j e, nextMove s = some (.during (.serving c) j e))

/-! ### A stop, a reset or another agent's write, at any step -/

/-- A stop may fall after any event of any turn (spec/42_poll_loop.md R160, spec/60_exceptions.md R188): where the whole turn
would record `es`, a stop leaves the block stopped with a beginning of `es` recorded, and every beginning of `es`, in the
middle of a frame or between two polls of a pass, is left by a stop after some number of primitives. -/
def Obligations.StopFallsAfterAnyEvent : Prop :=
  ∀ (s t : State) (w : Work) (rest : List (Option Move)) (es : List Event), buildsAnew (ordinary w) = false →
    step { s with inputs := ordinary w :: rest } = .next t → t.trace = s.trace ++ es →
      (∀ j, ∃ u first later, step { s with inputs := some (.during w j .stop) :: rest } = .next u ∧ u.stopped = true ∧
        u.trace = s.trace ++ first ∧ es = first ++ later) ∧
      ∀ first later, es = first ++ later →
        ∃ j u, step { s with inputs := some (.during w j .stop) :: rest } = .next u ∧ u.stopped = true ∧
          u.trace = s.trace ++ first

/-- A reset may fall at any step too (spec/42_poll_loop.md R160, spec/60_exceptions.md R188): wherever a turn is cut short, a
construction with a well-formed configuration, on a platform that can provide every line, gives the reset values of
spec/10_state.md R43. -/
def Obligations.ResetInsideATurnGivesTheResetValues : Prop :=
  ∀ (s : State) (w : Work) (j : Nat) (cfg : Config) (rest : List (Option Move)), configWf cfg = true →
    s.inputs = some (.during w j (.construct cfg [])) :: rest →
      ∃ t, step s = .next t ∧ t.cfg = cfg ∧ Equipped t.handles ∧ t.cs = (!cfg.csActive) ∧ t.clk = false ∧ t.mosi = false ∧
        t.pc = .idle ∧ t.st = List.replicate cfg.channels.length .released ∧ t.running = false ∧ t.fault = none ∧
        t.refused = none ∧ t.stopped = false ∧ t.trace = resetWrites cfg ∧ t.inputs = rest

/-- Another agent's write to a pin may fall after any event of any turn, inside a frame too, and gives the run no meaning
(spec/70_reset_and_hazards.md R215): where the whole turn would record `es`, the write leaves the block marked with a
beginning of `es` recorded, every beginning of `es` is left by some such write, and the marked block is refused whatever
reaches it next other than a construction or a stop. The move's form is the model's (notes/assumptions/20.md, 34.md). -/
def Obligations.InterferenceInsideATurnIsMarked : Prop :=
  ∀ (s t : State) (w : Work) (p : OutPin) (l : Level) (rest : List (Option Move)) (es : List Event),
    buildsAnew (ordinary w) = false →
    step { s with inputs := ordinary w :: rest } = .next t → t.trace = s.trace ++ es →
      (∀ j, ∃ u first later, step { s with inputs := some (.during w j (.drive p l)) :: rest } = .next u ∧
        u.refused = some .pinInterference ∧ u.trace = s.trace ++ first ∧ es = first ++ later ∧
        (endsTheBlock (nextMove u) = false → step u = .refused (.marked .pinInterference))) ∧
      ∀ first later, es = first ++ later →
        ∃ j u, step { s with inputs := some (.during w j (.drive p l)) :: rest } = .next u ∧
          u.refused = some .pinInterference ∧ u.trace = s.trace ++ first

/-- The same inside a construction (spec/70_reset_and_hazards.md R200, R215): whatever the state of the block, the write sets
the mark. -/
def Obligations.InterferenceInsideAConstructionIsMarked : Prop :=
  ∀ (s : State) (cfg : Config) (u : List Int) (j : Nat) (p : OutPin) (l : Level) (rest : List (Option Move)),
    s.inputs = some (.during (.constructing cfg u) j (.drive p l)) :: rest →
      ∃ t, step s = .next t ∧ t.refused = some .pinInterference ∧ t.inputs = rest

/-- The position inside a read (spec/10_state.md R34, spec/40_adc_driver.md R102): at every moment of a frame but the idle
gap before it, the CS writes included, it is `Reading(n)` with `n` in 1 to 18, `n` the pulse register, and between 0 and 1
more than the rising edges made. That it is `Reading(1)` from the first write of `ReadFrame` on is deduced
(notes/assumptions/35.md). -/
def Obligations.PositionInsideARead : Prop :=
  ∀ (s u : State) (c : Chan), u ∈ frameMoments c s → ∃ es, u.trace = s.trace ++ es ∧
    ((u.pc = s.pc ∧ pinEvents es = []) ∨
      (u.pc = .reading u.n ∧ 1 ≤ u.n ∧ u.n ≤ 18 ∧
        (writesOf .clk es).count true ≤ u.n ∧ u.n ≤ (writesOf .clk es).count true + 1))

/-- The moments of an operation, at which a turn may be cut short, end in the state its meaning gives. -/
def Obligations.MomentsEndInTheNextState : Prop :=
  ∀ (i : Instr) (s t : State), exec i s = .next t → (execMoments i s).getLast? = some t

/-- A stopped block takes no step and answers no request until it is constructed again (spec/42_poll_loop.md R160). The named
fault is the model's form of it (notes/assumptions/19.md). -/
def Obligations.StoppedBlockTakesNoStep : Prop :=
  ∀ s : State, s.stopped = true → endsTheBlock (nextMove s) = false → step s = .fault .stopped

/-! ### Errors, refusals and construction -/

/-- A failed block takes no step and answers no request: it stops with the recorded pin (spec/60_exceptions.md R173,
R176). The slot holds anything but a construction or a stop. The named fault is the model's form of it
(notes/assumptions/24.md). -/
def Obligations.FailedBlockTakesNoStep : Prop :=
  ∀ (s : State) (pin : Int), s.pc = .failed → s.fault = some (.pinAcquisitionFailure pin) →
    s.stopped = false → endsTheBlock (nextMove s) = false →
      step s = .fault (.pinAcquisitionFailure pin)

/-- The refusal mark is sticky: a marked block has no meaning any more, whatever reaches it other than a construction or a
stop (spec/10_state.md R40, spec/60_exceptions.md R178). The named refusal is the model's form of it
(notes/assumptions/12.md). -/
def Obligations.MarkedBlockHasNoMeaning : Prop :=
  ∀ (s : State) (r : Reason), s.pc ≠ .failed → s.refused = some r →
    s.stopped = false → endsTheBlock (nextMove s) = false →
      step s = .refused (.marked r)

/-- A request outside `Idle`, or inside RUN, has no meaning (spec/60_exceptions.md R180, spec/93_implementation_defined.md
U10): it is marked and nothing else changes (notes/assumptions/20.md). -/
def Obligations.RequestWhileBusyIsMarked : Prop :=
  ∀ (s : State) (c : Code) (rest : List (Option Move)), s.pc ≠ .failed → s.refused = none → s.stopped = false →
    s.inputs = some (.issue c) :: rest → s.pc ≠ .idle ∨ s.running = true →
      step s = .next { s with inputs := rest, refused := some .requestWhileBusy }

/-- Another agent on one of the block's pins leaves the run without a meaning (spec/70_reset_and_hazards.md R215): it is
marked (notes/assumptions/20.md). -/
def Obligations.PinInterferenceIsMarked : Prop :=
  ∀ (s : State) (p : OutPin) (l : Level) (rest : List (Option Move)), s.pc ≠ .failed → s.refused = none → s.stopped = false →
    s.inputs = some (.drive p l) :: rest → step s = .next { s with inputs := rest, refused := some .pinInterference }

/-- A construction that succeeds (spec/70_reset_and_hazards.md R200, R202, R203, R204): the configuration is well-formed and
the platform holds or can provide each of the four lines; every element then has the value of spec/10_state.md R43, and the
record begins anew (notes/assumptions/13.md). -/
def Obligations.ConstructionSucceeds : Prop :=
  ∀ (s : State) (cfg : Config) (u : List Int) (rest : List (Option Move)),
    s.inputs = some (.construct cfg u) :: rest →
    cfg.pressThreshold < cfg.releaseLow → cfg.releaseLow < cfg.releaseHigh → (∀ e ∈ cfg.channels, 0 ≤ e.ch ∧ e.ch ≤ 7) →
    [cfg.pinCs, cfg.pinClk, cfg.pinMosi, cfg.pinMiso].Nodup →
    (∀ r, (s.platform.held.lookup (pinOf cfg r)).isSome ∨ pinOf cfg r ∉ u) →
      ∃ t, step s = .next t ∧ t.cfg = cfg ∧ Equipped t.handles ∧ t.cs = (!cfg.csActive) ∧ t.clk = false ∧ t.mosi = false ∧
        t.pc = .idle ∧ t.st = List.replicate cfg.channels.length .released ∧ t.running = false ∧ t.fault = none ∧
        t.refused = none ∧ t.stopped = false ∧ t.trace = resetWrites cfg ∧ t.inputs = rest

/-- A construction that fails (spec/70_reset_and_hazards.md R201, spec/60_exceptions.md R173): at the first role, in the
order CS, CLK, MOSI, MISO, whose line the platform neither holds nor can provide, the pin is recorded with the code 0x02, the
position is `Failed`, no pin is written, and no later pin is acquired. -/
def Obligations.ConstructionFailsAtTheFirstMissingPin : Prop :=
  ∀ (s : State) (cfg : Config) (u : List Int) (rest : List (Option Move)) (before after : List Role) (r : Role),
    s.inputs = some (.construct cfg u) :: rest →
    cfg.pressThreshold < cfg.releaseLow → cfg.releaseLow < cfg.releaseHigh → (∀ e ∈ cfg.channels, 0 ≤ e.ch ∧ e.ch ≤ 7) →
    [cfg.pinCs, cfg.pinClk, cfg.pinMosi, cfg.pinMiso].Nodup →
    [Role.cs, Role.clk, Role.mosi, Role.miso] = before ++ r :: after →
    (∀ q ∈ before, (s.platform.held.lookup (pinOf cfg q)).isSome ∨ pinOf cfg q ∉ u) →
    s.platform.held.lookup (pinOf cfg r) = none → pinOf cfg r ∈ u →
      ∃ t, step s = .next t ∧ t.pc = .failed ∧ t.fault = some (.pinAcquisitionFailure (pinOf cfg r)) ∧
        t.fault.map faultCode = some 0x02#8 ∧ t.trace = [] ∧
        t.cfg = cfg ∧ (∀ q ∈ r :: after, t.platform.held.lookup (pinOf cfg q) = s.platform.held.lookup (pinOf cfg q)) ∧
        (∀ q ∈ before, (t.platform.held.lookup (pinOf cfg q)).isSome)

/-- An ill-formed configuration is refused before any pin is acquired (spec/60_exceptions.md R176, R178, spec/10_state.md
R20, R23, R26): the mark is set; that the rest of the state stays as it was is the model's choice
(notes/assumptions/26.md). -/
def Obligations.IllFormedConfigurationIsMarked : Prop :=
  ∀ (s : State) (cfg : Config) (u : List Int) (rest : List (Option Move)),
    s.inputs = some (.construct cfg u) :: rest →
    cfg.releaseLow ≤ cfg.pressThreshold ∨ cfg.releaseHigh ≤ cfg.releaseLow ∨ (∃ e ∈ cfg.channels, e.ch < 0 ∨ 7 < e.ch) ∨
      ¬ [cfg.pinCs, cfg.pinClk, cfg.pinMosi, cfg.pinMiso].Nodup →
      step s = .next { s with inputs := rest, refused := some .illFormedConfiguration }

/-- Acquisition is idempotent (spec/60_exceptions.md R186): a line the platform has given out once is given again with the
same handle, even when the platform could no longer provide it, and nothing is provisioned a second time. The platform's
form is the model's (notes/assumptions/14.md). -/
def Obligations.AcquisitionIsIdempotent : Prop :=
  ∀ (u u' : List Int) (pin : Int) (h : Nat) (p q : Platform), acquire u pin p = some (h, q) → acquire u' pin q = some (h, q)

/-- The values the spec gives after reset (spec/10_state.md R43, spec/70_reset_and_hazards.md R204), in the reset state,
whose configuration is the model's choice (notes/assumptions/9.md); the levels are the spec's decisions D1, D2 and D3. -/
def Obligations.ResetStateValues : Prop :=
  State.reset.cs = (!State.reset.cfg.csActive) ∧ State.reset.cs = true ∧ State.reset.clk = false ∧
  State.reset.mosi = false ∧ State.reset.pc = .idle ∧ State.reset.running = false ∧ State.reset.fault = none ∧
  State.reset.refused = none ∧ Equipped State.reset.handles ∧
  State.reset.st.length = State.reset.cfg.channels.length ∧ (∀ x ∈ State.reset.st, x = .released) ∧
  State.reset.trace = resetWrites State.reset.cfg

/-- An idle block that nothing reaches waits with nothing changed (spec/10_state.md R34: `Idle` accepts a request;
notes/assumptions/18.md). -/
def Obligations.IdleBlockWaits : Prop :=
  ∀ (s : State) (rest : List (Option Move)), s.pc = .idle → s.refused = none → s.stopped = false → s.inputs = none :: rest →
    step s = .next { s with inputs := rest }
end

