-- ==== Sys2Proof/Laws/State.lean ====
section
/-!
SUPPORT. One lemma per field per update of the state, each true by unfolding, so that no later proof unfolds a record
update.
-/

namespace Sys2Proof.Machine

variable (s : State)

/-! ### `emit e s` -/

@[simp] theorem emit_cfg (e : Event) : (emit e s).cfg = s.cfg := rfl
@[simp] theorem emit_handles (e : Event) : (emit e s).handles = s.handles := rfl
@[simp] theorem emit_cs (e : Event) : (emit e s).cs = s.cs := rfl
@[simp] theorem emit_clk (e : Event) : (emit e s).clk = s.clk := rfl
@[simp] theorem emit_mosi (e : Event) : (emit e s).mosi = s.mosi := rfl
@[simp] theorem emit_chan (e : Event) : (emit e s).chan = s.chan := rfl
@[simp] theorem emit_acc (e : Event) : (emit e s).acc = s.acc := rfl
@[simp] theorem emit_n (e : Event) : (emit e s).n = s.n := rfl
@[simp] theorem emit_pc (e : Event) : (emit e s).pc = s.pc := rfl
@[simp] theorem emit_st (e : Event) : (emit e s).st = s.st := rfl
@[simp] theorem emit_running (e : Event) : (emit e s).running = s.running := rfl
@[simp] theorem emit_fault (e : Event) : (emit e s).fault = s.fault := rfl
@[simp] theorem emit_refused (e : Event) : (emit e s).refused = s.refused := rfl
@[simp] theorem emit_stopped (e : Event) : (emit e s).stopped = s.stopped := rfl
@[simp] theorem emit_trace (e : Event) : (emit e s).trace = s.trace ++ [e] := rfl
@[simp] theorem emit_frames (e : Event) : (emit e s).frames = s.frames := rfl
@[simp] theorem emit_inputs (e : Event) : (emit e s).inputs = s.inputs := rfl
@[simp] theorem emit_draws (e : Event) : (emit e s).draws = s.draws := rfl
@[simp] theorem emit_platform (e : Event) : (emit e s).platform = s.platform := rfl

/-! ### `setPos p s` -/

@[simp] theorem setPos_cfg (p : Pos) : (setPos p s).cfg = s.cfg := rfl
@[simp] theorem setPos_handles (p : Pos) : (setPos p s).handles = s.handles := rfl
@[simp] theorem setPos_cs (p : Pos) : (setPos p s).cs = s.cs := rfl
@[simp] theorem setPos_clk (p : Pos) : (setPos p s).clk = s.clk := rfl
@[simp] theorem setPos_mosi (p : Pos) : (setPos p s).mosi = s.mosi := rfl
@[simp] theorem setPos_chan (p : Pos) : (setPos p s).chan = s.chan := rfl
@[simp] theorem setPos_acc (p : Pos) : (setPos p s).acc = s.acc := rfl
@[simp] theorem setPos_n (p : Pos) : (setPos p s).n = s.n := rfl
@[simp] theorem setPos_pc (p : Pos) : (setPos p s).pc = p := rfl
@[simp] theorem setPos_st (p : Pos) : (setPos p s).st = s.st := rfl
@[simp] theorem setPos_running (p : Pos) : (setPos p s).running = s.running := rfl
@[simp] theorem setPos_fault (p : Pos) : (setPos p s).fault = s.fault := rfl
@[simp] theorem setPos_refused (p : Pos) : (setPos p s).refused = s.refused := rfl
@[simp] theorem setPos_stopped (p : Pos) : (setPos p s).stopped = s.stopped := rfl
@[simp] theorem setPos_trace (p : Pos) : (setPos p s).trace = s.trace := rfl
@[simp] theorem setPos_frames (p : Pos) : (setPos p s).frames = s.frames := rfl
@[simp] theorem setPos_inputs (p : Pos) : (setPos p s).inputs = s.inputs := rfl
@[simp] theorem setPos_draws (p : Pos) : (setPos p s).draws = s.draws := rfl
@[simp] theorem setPos_platform (p : Pos) : (setPos p s).platform = s.platform := rfl

/-! ### `setLevel .cs l s` -/

@[simp] theorem setLevel_cs_cfg (l : Level) : (setLevel .cs l s).cfg = s.cfg := rfl
@[simp] theorem setLevel_cs_handles (l : Level) : (setLevel .cs l s).handles = s.handles := rfl
@[simp] theorem setLevel_cs_cs (l : Level) : (setLevel .cs l s).cs = l := rfl
@[simp] theorem setLevel_cs_clk (l : Level) : (setLevel .cs l s).clk = s.clk := rfl
@[simp] theorem setLevel_cs_mosi (l : Level) : (setLevel .cs l s).mosi = s.mosi := rfl
@[simp] theorem setLevel_cs_chan (l : Level) : (setLevel .cs l s).chan = s.chan := rfl
@[simp] theorem setLevel_cs_acc (l : Level) : (setLevel .cs l s).acc = s.acc := rfl
@[simp] theorem setLevel_cs_n (l : Level) : (setLevel .cs l s).n = s.n := rfl
@[simp] theorem setLevel_cs_pc (l : Level) : (setLevel .cs l s).pc = s.pc := rfl
@[simp] theorem setLevel_cs_st (l : Level) : (setLevel .cs l s).st = s.st := rfl
@[simp] theorem setLevel_cs_running (l : Level) : (setLevel .cs l s).running = s.running := rfl
@[simp] theorem setLevel_cs_fault (l : Level) : (setLevel .cs l s).fault = s.fault := rfl
@[simp] theorem setLevel_cs_refused (l : Level) : (setLevel .cs l s).refused = s.refused := rfl
@[simp] theorem setLevel_cs_stopped (l : Level) : (setLevel .cs l s).stopped = s.stopped := rfl
@[simp] theorem setLevel_cs_trace (l : Level) : (setLevel .cs l s).trace = s.trace := rfl
@[simp] theorem setLevel_cs_frames (l : Level) : (setLevel .cs l s).frames = s.frames := rfl
@[simp] theorem setLevel_cs_inputs (l : Level) : (setLevel .cs l s).inputs = s.inputs := rfl
@[simp] theorem setLevel_cs_draws (l : Level) : (setLevel .cs l s).draws = s.draws := rfl
@[simp] theorem setLevel_cs_platform (l : Level) : (setLevel .cs l s).platform = s.platform := rfl

/-! ### `setLevel .clk l s` -/

@[simp] theorem setLevel_clk_cfg (l : Level) : (setLevel .clk l s).cfg = s.cfg := rfl
@[simp] theorem setLevel_clk_handles (l : Level) : (setLevel .clk l s).handles = s.handles := rfl
@[simp] theorem setLevel_clk_cs (l : Level) : (setLevel .clk l s).cs = s.cs := rfl
@[simp] theorem setLevel_clk_clk (l : Level) : (setLevel .clk l s).clk = l := rfl
@[simp] theorem setLevel_clk_mosi (l : Level) : (setLevel .clk l s).mosi = s.mosi := rfl
@[simp] theorem setLevel_clk_chan (l : Level) : (setLevel .clk l s).chan = s.chan := rfl
@[simp] theorem setLevel_clk_acc (l : Level) : (setLevel .clk l s).acc = s.acc := rfl
@[simp] theorem setLevel_clk_n (l : Level) : (setLevel .clk l s).n = s.n := rfl
@[simp] theorem setLevel_clk_pc (l : Level) : (setLevel .clk l s).pc = s.pc := rfl
@[simp] theorem setLevel_clk_st (l : Level) : (setLevel .clk l s).st = s.st := rfl
@[simp] theorem setLevel_clk_running (l : Level) : (setLevel .clk l s).running = s.running := rfl
@[simp] theorem setLevel_clk_fault (l : Level) : (setLevel .clk l s).fault = s.fault := rfl
@[simp] theorem setLevel_clk_refused (l : Level) : (setLevel .clk l s).refused = s.refused := rfl
@[simp] theorem setLevel_clk_stopped (l : Level) : (setLevel .clk l s).stopped = s.stopped := rfl
@[simp] theorem setLevel_clk_trace (l : Level) : (setLevel .clk l s).trace = s.trace := rfl
@[simp] theorem setLevel_clk_frames (l : Level) : (setLevel .clk l s).frames = s.frames := rfl
@[simp] theorem setLevel_clk_inputs (l : Level) : (setLevel .clk l s).inputs = s.inputs := rfl
@[simp] theorem setLevel_clk_draws (l : Level) : (setLevel .clk l s).draws = s.draws := rfl
@[simp] theorem setLevel_clk_platform (l : Level) : (setLevel .clk l s).platform = s.platform := rfl

/-! ### `setLevel .mosi l s` -/

@[simp] theorem setLevel_mosi_cfg (l : Level) : (setLevel .mosi l s).cfg = s.cfg := rfl
@[simp] theorem setLevel_mosi_handles (l : Level) : (setLevel .mosi l s).handles = s.handles := rfl
@[simp] theorem setLevel_mosi_cs (l : Level) : (setLevel .mosi l s).cs = s.cs := rfl
@[simp] theorem setLevel_mosi_clk (l : Level) : (setLevel .mosi l s).clk = s.clk := rfl
@[simp] theorem setLevel_mosi_mosi (l : Level) : (setLevel .mosi l s).mosi = l := rfl
@[simp] theorem setLevel_mosi_chan (l : Level) : (setLevel .mosi l s).chan = s.chan := rfl
@[simp] theorem setLevel_mosi_acc (l : Level) : (setLevel .mosi l s).acc = s.acc := rfl
@[simp] theorem setLevel_mosi_n (l : Level) : (setLevel .mosi l s).n = s.n := rfl
@[simp] theorem setLevel_mosi_pc (l : Level) : (setLevel .mosi l s).pc = s.pc := rfl
@[simp] theorem setLevel_mosi_st (l : Level) : (setLevel .mosi l s).st = s.st := rfl
@[simp] theorem setLevel_mosi_running (l : Level) : (setLevel .mosi l s).running = s.running := rfl
@[simp] theorem setLevel_mosi_fault (l : Level) : (setLevel .mosi l s).fault = s.fault := rfl
@[simp] theorem setLevel_mosi_refused (l : Level) : (setLevel .mosi l s).refused = s.refused := rfl
@[simp] theorem setLevel_mosi_stopped (l : Level) : (setLevel .mosi l s).stopped = s.stopped := rfl
@[simp] theorem setLevel_mosi_trace (l : Level) : (setLevel .mosi l s).trace = s.trace := rfl
@[simp] theorem setLevel_mosi_frames (l : Level) : (setLevel .mosi l s).frames = s.frames := rfl
@[simp] theorem setLevel_mosi_inputs (l : Level) : (setLevel .mosi l s).inputs = s.inputs := rfl
@[simp] theorem setLevel_mosi_draws (l : Level) : (setLevel .mosi l s).draws = s.draws := rfl
@[simp] theorem setLevel_mosi_platform (l : Level) : (setLevel .mosi l s).platform = s.platform := rfl

/-! ### `pinWrite .cs l s` -/

@[simp] theorem pinWrite_cs_cfg (l : Level) : (pinWrite .cs l s).cfg = s.cfg := rfl
@[simp] theorem pinWrite_cs_handles (l : Level) : (pinWrite .cs l s).handles = s.handles := rfl
@[simp] theorem pinWrite_cs_cs (l : Level) : (pinWrite .cs l s).cs = l := rfl
@[simp] theorem pinWrite_cs_clk (l : Level) : (pinWrite .cs l s).clk = s.clk := rfl
@[simp] theorem pinWrite_cs_mosi (l : Level) : (pinWrite .cs l s).mosi = s.mosi := rfl
@[simp] theorem pinWrite_cs_chan (l : Level) : (pinWrite .cs l s).chan = s.chan := rfl
@[simp] theorem pinWrite_cs_acc (l : Level) : (pinWrite .cs l s).acc = s.acc := rfl
@[simp] theorem pinWrite_cs_n (l : Level) : (pinWrite .cs l s).n = s.n := rfl
@[simp] theorem pinWrite_cs_pc (l : Level) : (pinWrite .cs l s).pc = s.pc := rfl
@[simp] theorem pinWrite_cs_st (l : Level) : (pinWrite .cs l s).st = s.st := rfl
@[simp] theorem pinWrite_cs_running (l : Level) : (pinWrite .cs l s).running = s.running := rfl
@[simp] theorem pinWrite_cs_fault (l : Level) : (pinWrite .cs l s).fault = s.fault := rfl
@[simp] theorem pinWrite_cs_refused (l : Level) : (pinWrite .cs l s).refused = s.refused := rfl
@[simp] theorem pinWrite_cs_stopped (l : Level) : (pinWrite .cs l s).stopped = s.stopped := rfl
@[simp] theorem pinWrite_cs_trace (l : Level) : (pinWrite .cs l s).trace = s.trace ++ [.pin (.write .cs l)] := rfl
@[simp] theorem pinWrite_cs_frames (l : Level) : (pinWrite .cs l s).frames = s.frames := rfl
@[simp] theorem pinWrite_cs_inputs (l : Level) : (pinWrite .cs l s).inputs = s.inputs := rfl
@[simp] theorem pinWrite_cs_draws (l : Level) : (pinWrite .cs l s).draws = s.draws := rfl
@[simp] theorem pinWrite_cs_platform (l : Level) : (pinWrite .cs l s).platform = s.platform := rfl

/-! ### `pinWrite .clk l s` -/

@[simp] theorem pinWrite_clk_cfg (l : Level) : (pinWrite .clk l s).cfg = s.cfg := rfl
@[simp] theorem pinWrite_clk_handles (l : Level) : (pinWrite .clk l s).handles = s.handles := rfl
@[simp] theorem pinWrite_clk_cs (l : Level) : (pinWrite .clk l s).cs = s.cs := rfl
@[simp] theorem pinWrite_clk_clk (l : Level) : (pinWrite .clk l s).clk = l := rfl
@[simp] theorem pinWrite_clk_mosi (l : Level) : (pinWrite .clk l s).mosi = s.mosi := rfl
@[simp] theorem pinWrite_clk_chan (l : Level) : (pinWrite .clk l s).chan = s.chan := rfl
@[simp] theorem pinWrite_clk_acc (l : Level) : (pinWrite .clk l s).acc = s.acc := rfl
@[simp] theorem pinWrite_clk_n (l : Level) : (pinWrite .clk l s).n = s.n := rfl
@[simp] theorem pinWrite_clk_pc (l : Level) : (pinWrite .clk l s).pc = s.pc := rfl
@[simp] theorem pinWrite_clk_st (l : Level) : (pinWrite .clk l s).st = s.st := rfl
@[simp] theorem pinWrite_clk_running (l : Level) : (pinWrite .clk l s).running = s.running := rfl
@[simp] theorem pinWrite_clk_fault (l : Level) : (pinWrite .clk l s).fault = s.fault := rfl
@[simp] theorem pinWrite_clk_refused (l : Level) : (pinWrite .clk l s).refused = s.refused := rfl
@[simp] theorem pinWrite_clk_stopped (l : Level) : (pinWrite .clk l s).stopped = s.stopped := rfl
@[simp] theorem pinWrite_clk_trace (l : Level) : (pinWrite .clk l s).trace = s.trace ++ [.pin (.write .clk l)] := rfl
@[simp] theorem pinWrite_clk_frames (l : Level) : (pinWrite .clk l s).frames = s.frames := rfl
@[simp] theorem pinWrite_clk_inputs (l : Level) : (pinWrite .clk l s).inputs = s.inputs := rfl
@[simp] theorem pinWrite_clk_draws (l : Level) : (pinWrite .clk l s).draws = s.draws := rfl
@[simp] theorem pinWrite_clk_platform (l : Level) : (pinWrite .clk l s).platform = s.platform := rfl

/-! ### `pinWrite .mosi l s` -/

@[simp] theorem pinWrite_mosi_cfg (l : Level) : (pinWrite .mosi l s).cfg = s.cfg := rfl
@[simp] theorem pinWrite_mosi_handles (l : Level) : (pinWrite .mosi l s).handles = s.handles := rfl
@[simp] theorem pinWrite_mosi_cs (l : Level) : (pinWrite .mosi l s).cs = s.cs := rfl
@[simp] theorem pinWrite_mosi_clk (l : Level) : (pinWrite .mosi l s).clk = s.clk := rfl
@[simp] theorem pinWrite_mosi_mosi (l : Level) : (pinWrite .mosi l s).mosi = l := rfl
@[simp] theorem pinWrite_mosi_chan (l : Level) : (pinWrite .mosi l s).chan = s.chan := rfl
@[simp] theorem pinWrite_mosi_acc (l : Level) : (pinWrite .mosi l s).acc = s.acc := rfl
@[simp] theorem pinWrite_mosi_n (l : Level) : (pinWrite .mosi l s).n = s.n := rfl
@[simp] theorem pinWrite_mosi_pc (l : Level) : (pinWrite .mosi l s).pc = s.pc := rfl
@[simp] theorem pinWrite_mosi_st (l : Level) : (pinWrite .mosi l s).st = s.st := rfl
@[simp] theorem pinWrite_mosi_running (l : Level) : (pinWrite .mosi l s).running = s.running := rfl
@[simp] theorem pinWrite_mosi_fault (l : Level) : (pinWrite .mosi l s).fault = s.fault := rfl
@[simp] theorem pinWrite_mosi_refused (l : Level) : (pinWrite .mosi l s).refused = s.refused := rfl
@[simp] theorem pinWrite_mosi_stopped (l : Level) : (pinWrite .mosi l s).stopped = s.stopped := rfl
@[simp] theorem pinWrite_mosi_trace (l : Level) : (pinWrite .mosi l s).trace = s.trace ++ [.pin (.write .mosi l)] := rfl
@[simp] theorem pinWrite_mosi_frames (l : Level) : (pinWrite .mosi l s).frames = s.frames := rfl
@[simp] theorem pinWrite_mosi_inputs (l : Level) : (pinWrite .mosi l s).inputs = s.inputs := rfl
@[simp] theorem pinWrite_mosi_draws (l : Level) : (pinWrite .mosi l s).draws = s.draws := rfl
@[simp] theorem pinWrite_mosi_platform (l : Level) : (pinWrite .mosi l s).platform = s.platform := rfl

/-! ### `waitAtLeast k s` -/

@[simp] theorem waitAtLeast_cfg (k : WaitKind) : (waitAtLeast k s).cfg = s.cfg := rfl
@[simp] theorem waitAtLeast_handles (k : WaitKind) : (waitAtLeast k s).handles = s.handles := rfl
@[simp] theorem waitAtLeast_cs (k : WaitKind) : (waitAtLeast k s).cs = s.cs := rfl
@[simp] theorem waitAtLeast_clk (k : WaitKind) : (waitAtLeast k s).clk = s.clk := rfl
@[simp] theorem waitAtLeast_mosi (k : WaitKind) : (waitAtLeast k s).mosi = s.mosi := rfl
@[simp] theorem waitAtLeast_chan (k : WaitKind) : (waitAtLeast k s).chan = s.chan := rfl
@[simp] theorem waitAtLeast_acc (k : WaitKind) : (waitAtLeast k s).acc = s.acc := rfl
@[simp] theorem waitAtLeast_n (k : WaitKind) : (waitAtLeast k s).n = s.n := rfl
@[simp] theorem waitAtLeast_pc (k : WaitKind) : (waitAtLeast k s).pc = s.pc := rfl
@[simp] theorem waitAtLeast_st (k : WaitKind) : (waitAtLeast k s).st = s.st := rfl
@[simp] theorem waitAtLeast_running (k : WaitKind) : (waitAtLeast k s).running = s.running := rfl
@[simp] theorem waitAtLeast_fault (k : WaitKind) : (waitAtLeast k s).fault = s.fault := rfl
@[simp] theorem waitAtLeast_refused (k : WaitKind) : (waitAtLeast k s).refused = s.refused := rfl
@[simp] theorem waitAtLeast_stopped (k : WaitKind) : (waitAtLeast k s).stopped = s.stopped := rfl
@[simp] theorem waitAtLeast_trace (k : WaitKind) : (waitAtLeast k s).trace = s.trace ++ [.pin (.wait k (minWait s.cfg k + (drawDelay s.draws).1))] := rfl
@[simp] theorem waitAtLeast_frames (k : WaitKind) : (waitAtLeast k s).frames = s.frames := rfl
@[simp] theorem waitAtLeast_inputs (k : WaitKind) : (waitAtLeast k s).inputs = s.inputs := rfl
@[simp] theorem waitAtLeast_draws (k : WaitKind) : (waitAtLeast k s).draws = (drawDelay s.draws).2 := rfl
@[simp] theorem waitAtLeast_platform (k : WaitKind) : (waitAtLeast k s).platform = s.platform := rfl

/-! ### `csIdleGap s` -/

@[simp] theorem csIdleGap_cfg : (csIdleGap s).cfg = s.cfg := rfl
@[simp] theorem csIdleGap_handles : (csIdleGap s).handles = s.handles := rfl
@[simp] theorem csIdleGap_cs : (csIdleGap s).cs = s.cs := rfl
@[simp] theorem csIdleGap_clk : (csIdleGap s).clk = s.clk := rfl
@[simp] theorem csIdleGap_mosi : (csIdleGap s).mosi = s.mosi := rfl
@[simp] theorem csIdleGap_chan : (csIdleGap s).chan = s.chan := rfl
@[simp] theorem csIdleGap_acc : (csIdleGap s).acc = s.acc := rfl
@[simp] theorem csIdleGap_n : (csIdleGap s).n = s.n := rfl
@[simp] theorem csIdleGap_pc : (csIdleGap s).pc = s.pc := rfl
@[simp] theorem csIdleGap_st : (csIdleGap s).st = s.st := rfl
@[simp] theorem csIdleGap_running : (csIdleGap s).running = s.running := rfl
@[simp] theorem csIdleGap_fault : (csIdleGap s).fault = s.fault := rfl
@[simp] theorem csIdleGap_refused : (csIdleGap s).refused = s.refused := rfl
@[simp] theorem csIdleGap_stopped : (csIdleGap s).stopped = s.stopped := rfl
@[simp] theorem csIdleGap_trace : (csIdleGap s).trace = s.trace ++ [.csIdle ((if s.frames = 0 then 0 else s.cfg.tCsIdleMin) + (drawDelay s.draws).1)] := rfl
@[simp] theorem csIdleGap_frames : (csIdleGap s).frames = s.frames := rfl
@[simp] theorem csIdleGap_inputs : (csIdleGap s).inputs = s.inputs := rfl
@[simp] theorem csIdleGap_draws : (csIdleGap s).draws = (drawDelay s.draws).2 := rfl
@[simp] theorem csIdleGap_platform : (csIdleGap s).platform = s.platform := rfl

/-! ### `sampleMiso s` -/

@[simp] theorem sampleMiso_cfg : (sampleMiso s).cfg = s.cfg := rfl
@[simp] theorem sampleMiso_handles : (sampleMiso s).handles = s.handles := rfl
@[simp] theorem sampleMiso_cs : (sampleMiso s).cs = s.cs := rfl
@[simp] theorem sampleMiso_clk : (sampleMiso s).clk = s.clk := rfl
@[simp] theorem sampleMiso_mosi : (sampleMiso s).mosi = s.mosi := rfl
@[simp] theorem sampleMiso_chan : (sampleMiso s).chan = s.chan := rfl
@[simp] theorem sampleMiso_acc : (sampleMiso s).acc = s.acc := rfl
@[simp] theorem sampleMiso_n : (sampleMiso s).n = s.n := rfl
@[simp] theorem sampleMiso_pc : (sampleMiso s).pc = s.pc := rfl
@[simp] theorem sampleMiso_st : (sampleMiso s).st = s.st := rfl
@[simp] theorem sampleMiso_running : (sampleMiso s).running = s.running := rfl
@[simp] theorem sampleMiso_fault : (sampleMiso s).fault = s.fault := rfl
@[simp] theorem sampleMiso_refused : (sampleMiso s).refused = s.refused := rfl
@[simp] theorem sampleMiso_stopped : (sampleMiso s).stopped = s.stopped := rfl
@[simp] theorem sampleMiso_trace : (sampleMiso s).trace = s.trace ++ [.pin (.sample (misoLevel s))] := rfl
@[simp] theorem sampleMiso_frames : (sampleMiso s).frames = s.frames := rfl
@[simp] theorem sampleMiso_inputs : (sampleMiso s).inputs = s.inputs := rfl
@[simp] theorem sampleMiso_draws : (sampleMiso s).draws = (drawMiso s.draws).2 := rfl
@[simp] theorem sampleMiso_platform : (sampleMiso s).platform = s.platform := rfl

/-! ### `setTouch k t s` -/

@[simp] theorem setTouch_cfg (k : Nat) (t : Touch) : (setTouch k t s).cfg = s.cfg := rfl
@[simp] theorem setTouch_handles (k : Nat) (t : Touch) : (setTouch k t s).handles = s.handles := rfl
@[simp] theorem setTouch_cs (k : Nat) (t : Touch) : (setTouch k t s).cs = s.cs := rfl
@[simp] theorem setTouch_clk (k : Nat) (t : Touch) : (setTouch k t s).clk = s.clk := rfl
@[simp] theorem setTouch_mosi (k : Nat) (t : Touch) : (setTouch k t s).mosi = s.mosi := rfl
@[simp] theorem setTouch_chan (k : Nat) (t : Touch) : (setTouch k t s).chan = s.chan := rfl
@[simp] theorem setTouch_acc (k : Nat) (t : Touch) : (setTouch k t s).acc = s.acc := rfl
@[simp] theorem setTouch_n (k : Nat) (t : Touch) : (setTouch k t s).n = s.n := rfl
@[simp] theorem setTouch_pc (k : Nat) (t : Touch) : (setTouch k t s).pc = s.pc := rfl
@[simp] theorem setTouch_st (k : Nat) (t : Touch) : (setTouch k t s).st = s.st.set k t := rfl
@[simp] theorem setTouch_running (k : Nat) (t : Touch) : (setTouch k t s).running = s.running := rfl
@[simp] theorem setTouch_fault (k : Nat) (t : Touch) : (setTouch k t s).fault = s.fault := rfl
@[simp] theorem setTouch_refused (k : Nat) (t : Touch) : (setTouch k t s).refused = s.refused := rfl
@[simp] theorem setTouch_stopped (k : Nat) (t : Touch) : (setTouch k t s).stopped = s.stopped := rfl
@[simp] theorem setTouch_trace (k : Nat) (t : Touch) : (setTouch k t s).trace = s.trace := rfl
@[simp] theorem setTouch_frames (k : Nat) (t : Touch) : (setTouch k t s).frames = s.frames := rfl
@[simp] theorem setTouch_inputs (k : Nat) (t : Touch) : (setTouch k t s).inputs = s.inputs := rfl
@[simp] theorem setTouch_draws (k : Nat) (t : Touch) : (setTouch k t s).draws = s.draws := rfl
@[simp] theorem setTouch_platform (k : Nat) (t : Touch) : (setTouch k t s).platform = s.platform := rfl

/-! ### `finish r s` -/

@[simp] theorem finish_cfg (r : Response) : (finish r s).cfg = s.cfg := rfl
@[simp] theorem finish_handles (r : Response) : (finish r s).handles = s.handles := rfl
@[simp] theorem finish_cs (r : Response) : (finish r s).cs = s.cs := rfl
@[simp] theorem finish_clk (r : Response) : (finish r s).clk = s.clk := rfl
@[simp] theorem finish_mosi (r : Response) : (finish r s).mosi = s.mosi := rfl
@[simp] theorem finish_chan (r : Response) : (finish r s).chan = s.chan := rfl
@[simp] theorem finish_acc (r : Response) : (finish r s).acc = s.acc := rfl
@[simp] theorem finish_n (r : Response) : (finish r s).n = s.n := rfl
@[simp] theorem finish_pc (r : Response) : (finish r s).pc = .idle := rfl
@[simp] theorem finish_st (r : Response) : (finish r s).st = s.st := rfl
@[simp] theorem finish_running (r : Response) : (finish r s).running = s.running := rfl
@[simp] theorem finish_fault (r : Response) : (finish r s).fault = s.fault := rfl
@[simp] theorem finish_refused (r : Response) : (finish r s).refused = s.refused := rfl
@[simp] theorem finish_stopped (r : Response) : (finish r s).stopped = s.stopped := rfl
@[simp] theorem finish_trace (r : Response) : (finish r s).trace = s.trace ++ [.response r] := rfl
@[simp] theorem finish_frames (r : Response) : (finish r s).frames = s.frames := rfl
@[simp] theorem finish_inputs (r : Response) : (finish r s).inputs = s.inputs := rfl
@[simp] theorem finish_draws (r : Response) : (finish r s).draws = s.draws := rfl
@[simp] theorem finish_platform (r : Response) : (finish r s).platform = s.platform := rfl

/-! ### `refuse r s` -/

@[simp] theorem refuse_cfg (r : Reason) : (refuse r s).cfg = s.cfg := rfl
@[simp] theorem refuse_handles (r : Reason) : (refuse r s).handles = s.handles := rfl
@[simp] theorem refuse_cs (r : Reason) : (refuse r s).cs = s.cs := rfl
@[simp] theorem refuse_clk (r : Reason) : (refuse r s).clk = s.clk := rfl
@[simp] theorem refuse_mosi (r : Reason) : (refuse r s).mosi = s.mosi := rfl
@[simp] theorem refuse_chan (r : Reason) : (refuse r s).chan = s.chan := rfl
@[simp] theorem refuse_acc (r : Reason) : (refuse r s).acc = s.acc := rfl
@[simp] theorem refuse_n (r : Reason) : (refuse r s).n = s.n := rfl
@[simp] theorem refuse_pc (r : Reason) : (refuse r s).pc = s.pc := rfl
@[simp] theorem refuse_st (r : Reason) : (refuse r s).st = s.st := rfl
@[simp] theorem refuse_running (r : Reason) : (refuse r s).running = s.running := rfl
@[simp] theorem refuse_fault (r : Reason) : (refuse r s).fault = s.fault := rfl
@[simp] theorem refuse_refused (r : Reason) : (refuse r s).refused = some r := rfl
@[simp] theorem refuse_stopped (r : Reason) : (refuse r s).stopped = s.stopped := rfl
@[simp] theorem refuse_trace (r : Reason) : (refuse r s).trace = s.trace := rfl
@[simp] theorem refuse_frames (r : Reason) : (refuse r s).frames = s.frames := rfl
@[simp] theorem refuse_inputs (r : Reason) : (refuse r s).inputs = s.inputs := rfl
@[simp] theorem refuse_draws (r : Reason) : (refuse r s).draws = s.draws := rfl
@[simp] theorem refuse_platform (r : Reason) : (refuse r s).platform = s.platform := rfl

/-! ### `dispatch k label s` -/

@[simp] theorem dispatch_cfg (k : Nat) (label : Label) : (dispatch k label s).cfg = s.cfg := rfl
@[simp] theorem dispatch_handles (k : Nat) (label : Label) : (dispatch k label s).handles = s.handles := rfl
@[simp] theorem dispatch_cs (k : Nat) (label : Label) : (dispatch k label s).cs = s.cs := rfl
@[simp] theorem dispatch_clk (k : Nat) (label : Label) : (dispatch k label s).clk = s.clk := rfl
@[simp] theorem dispatch_mosi (k : Nat) (label : Label) : (dispatch k label s).mosi = s.mosi := rfl
@[simp] theorem dispatch_chan (k : Nat) (label : Label) : (dispatch k label s).chan = s.chan := rfl
@[simp] theorem dispatch_acc (k : Nat) (label : Label) : (dispatch k label s).acc = s.acc := rfl
@[simp] theorem dispatch_n (k : Nat) (label : Label) : (dispatch k label s).n = s.n := rfl
@[simp] theorem dispatch_pc (k : Nat) (label : Label) : (dispatch k label s).pc = .dispatching k := rfl
@[simp] theorem dispatch_st (k : Nat) (label : Label) : (dispatch k label s).st = s.st := rfl
@[simp] theorem dispatch_running (k : Nat) (label : Label) : (dispatch k label s).running = s.running := rfl
@[simp] theorem dispatch_fault (k : Nat) (label : Label) : (dispatch k label s).fault = s.fault := rfl
@[simp] theorem dispatch_refused (k : Nat) (label : Label) : (dispatch k label s).refused = s.refused := rfl
@[simp] theorem dispatch_stopped (k : Nat) (label : Label) : (dispatch k label s).stopped = s.stopped := rfl
@[simp] theorem dispatch_trace (k : Nat) (label : Label) : (dispatch k label s).trace = s.trace ++ [.press (BitVec.ofNat 32 k) label] := rfl
@[simp] theorem dispatch_frames (k : Nat) (label : Label) : (dispatch k label s).frames = s.frames := rfl
@[simp] theorem dispatch_inputs (k : Nat) (label : Label) : (dispatch k label s).inputs = s.inputs := rfl
@[simp] theorem dispatch_draws (k : Nat) (label : Label) : (dispatch k label s).draws = s.draws := rfl
@[simp] theorem dispatch_platform (k : Nat) (label : Label) : (dispatch k label s).platform = s.platform := rfl

/-! ### `atPulse n s` -/

@[simp] theorem atPulse_cfg (n : Nat) : (atPulse n s).cfg = s.cfg := rfl
@[simp] theorem atPulse_handles (n : Nat) : (atPulse n s).handles = s.handles := rfl
@[simp] theorem atPulse_cs (n : Nat) : (atPulse n s).cs = s.cs := rfl
@[simp] theorem atPulse_clk (n : Nat) : (atPulse n s).clk = s.clk := rfl
@[simp] theorem atPulse_mosi (n : Nat) : (atPulse n s).mosi = s.mosi := rfl
@[simp] theorem atPulse_chan (n : Nat) : (atPulse n s).chan = s.chan := rfl
@[simp] theorem atPulse_acc (n : Nat) : (atPulse n s).acc = s.acc := rfl
@[simp] theorem atPulse_n (n : Nat) : (atPulse n s).n = n := rfl
@[simp] theorem atPulse_pc (n : Nat) : (atPulse n s).pc = .reading n := rfl
@[simp] theorem atPulse_st (n : Nat) : (atPulse n s).st = s.st := rfl
@[simp] theorem atPulse_running (n : Nat) : (atPulse n s).running = s.running := rfl
@[simp] theorem atPulse_fault (n : Nat) : (atPulse n s).fault = s.fault := rfl
@[simp] theorem atPulse_refused (n : Nat) : (atPulse n s).refused = s.refused := rfl
@[simp] theorem atPulse_stopped (n : Nat) : (atPulse n s).stopped = s.stopped := rfl
@[simp] theorem atPulse_trace (n : Nat) : (atPulse n s).trace = s.trace := rfl
@[simp] theorem atPulse_frames (n : Nat) : (atPulse n s).frames = s.frames := rfl
@[simp] theorem atPulse_inputs (n : Nat) : (atPulse n s).inputs = s.inputs := rfl
@[simp] theorem atPulse_draws (n : Nat) : (atPulse n s).draws = s.draws := rfl
@[simp] theorem atPulse_platform (n : Nat) : (atPulse n s).platform = s.platform := rfl

/-! ### `beginRead c s` -/

@[simp] theorem beginRead_cfg (c : Chan) : (beginRead c s).cfg = s.cfg := rfl
@[simp] theorem beginRead_handles (c : Chan) : (beginRead c s).handles = s.handles := rfl
@[simp] theorem beginRead_cs (c : Chan) : (beginRead c s).cs = s.cs := rfl
@[simp] theorem beginRead_clk (c : Chan) : (beginRead c s).clk = s.clk := rfl
@[simp] theorem beginRead_mosi (c : Chan) : (beginRead c s).mosi = s.mosi := rfl
@[simp] theorem beginRead_chan (c : Chan) : (beginRead c s).chan = c := rfl
@[simp] theorem beginRead_acc (c : Chan) : (beginRead c s).acc = 0 := rfl
@[simp] theorem beginRead_n (c : Chan) : (beginRead c s).n = 1 := rfl
@[simp] theorem beginRead_pc (c : Chan) : (beginRead c s).pc = .reading 1 := rfl
@[simp] theorem beginRead_st (c : Chan) : (beginRead c s).st = s.st := rfl
@[simp] theorem beginRead_running (c : Chan) : (beginRead c s).running = s.running := rfl
@[simp] theorem beginRead_fault (c : Chan) : (beginRead c s).fault = s.fault := rfl
@[simp] theorem beginRead_refused (c : Chan) : (beginRead c s).refused = s.refused := rfl
@[simp] theorem beginRead_stopped (c : Chan) : (beginRead c s).stopped = s.stopped := rfl
@[simp] theorem beginRead_trace (c : Chan) : (beginRead c s).trace = s.trace := rfl
@[simp] theorem beginRead_frames (c : Chan) : (beginRead c s).frames = s.frames := rfl
@[simp] theorem beginRead_inputs (c : Chan) : (beginRead c s).inputs = s.inputs := rfl
@[simp] theorem beginRead_draws (c : Chan) : (beginRead c s).draws = s.draws := rfl
@[simp] theorem beginRead_platform (c : Chan) : (beginRead c s).platform = s.platform := rfl

/-! ### `halt s` -/

@[simp] theorem halt_cfg : (halt s).cfg = s.cfg := rfl
@[simp] theorem halt_handles : (halt s).handles = s.handles := rfl
@[simp] theorem halt_cs : (halt s).cs = Config.levelFree s.draws.used := rfl
@[simp] theorem halt_clk : (halt s).clk = Config.levelFree (s.draws.used + 1) := rfl
@[simp] theorem halt_mosi : (halt s).mosi = Config.levelFree (s.draws.used + 2) := rfl
@[simp] theorem halt_chan : (halt s).chan = s.chan := rfl
@[simp] theorem halt_acc : (halt s).acc = s.acc := rfl
@[simp] theorem halt_n : (halt s).n = s.n := rfl
@[simp] theorem halt_pc : (halt s).pc = s.pc := rfl
@[simp] theorem halt_st : (halt s).st = s.st := rfl
@[simp] theorem halt_running : (halt s).running = s.running := rfl
@[simp] theorem halt_fault : (halt s).fault = s.fault := rfl
@[simp] theorem halt_refused : (halt s).refused = s.refused := rfl
@[simp] theorem halt_stopped : (halt s).stopped = true := rfl
@[simp] theorem halt_trace : (halt s).trace = s.trace := rfl
@[simp] theorem halt_frames : (halt s).frames = s.frames := rfl
@[simp] theorem halt_inputs : (halt s).inputs = s.inputs := rfl
@[simp] theorem halt_draws : (halt s).draws = { s.draws with used := s.draws.used + 3 } := rfl
@[simp] theorem halt_platform : (halt s).platform = s.platform := rfl

/-! ### `afterSlot s` -/

@[simp] theorem afterSlot_cfg : (afterSlot s).cfg = s.cfg := rfl
@[simp] theorem afterSlot_handles : (afterSlot s).handles = s.handles := rfl
@[simp] theorem afterSlot_cs : (afterSlot s).cs = s.cs := rfl
@[simp] theorem afterSlot_clk : (afterSlot s).clk = s.clk := rfl
@[simp] theorem afterSlot_mosi : (afterSlot s).mosi = s.mosi := rfl
@[simp] theorem afterSlot_chan : (afterSlot s).chan = s.chan := rfl
@[simp] theorem afterSlot_acc : (afterSlot s).acc = s.acc := rfl
@[simp] theorem afterSlot_n : (afterSlot s).n = s.n := rfl
@[simp] theorem afterSlot_pc : (afterSlot s).pc = s.pc := rfl
@[simp] theorem afterSlot_st : (afterSlot s).st = s.st := rfl
@[simp] theorem afterSlot_running : (afterSlot s).running = s.running := rfl
@[simp] theorem afterSlot_fault : (afterSlot s).fault = s.fault := rfl
@[simp] theorem afterSlot_refused : (afterSlot s).refused = s.refused := rfl
@[simp] theorem afterSlot_stopped : (afterSlot s).stopped = s.stopped := rfl
@[simp] theorem afterSlot_trace : (afterSlot s).trace = s.trace := rfl
@[simp] theorem afterSlot_frames : (afterSlot s).frames = s.frames := rfl
@[simp] theorem afterSlot_inputs : (afterSlot s).inputs = s.inputs.tail := rfl
@[simp] theorem afterSlot_draws : (afterSlot s).draws = s.draws := rfl
@[simp] theorem afterSlot_platform : (afterSlot s).platform = s.platform := rfl

end Sys2Proof.Machine
end

