-- ==== Sys2Proof/Laws/Driver.lean ====
section
/-!
SUPPORT. What the driver's operations can do, said once: `readFrame_spec` gives the whole state after a frame by the
values drawn in it, so that no later proof unfolds `readFrame`.
-/

namespace Sys2Proof.Machine

open Sys2Proof.Safety

/-! ### The values drawn in a frame and what they record -/

/-- The four events of a pulse whose waits lasted `t.1` and `t.2` nanoseconds. -/
def pulseRecord (t : Nat × Nat) : List Event := (pulseEvents t).map .pin

/-- The MOSI writes of one low phase after pulse 5. -/
def lateRecord (ls : List Level) : List Event := ls.map fun l => .pin (.write .mosi l)

/-- What one of pulses 7 to 18 draws: the late MOSI levels before it, its wait times, the bit sampled. -/
structure DataDraw where
  late : List Level
  waits : Nat × Nat
  bit : Level

/-- The events of one of pulses 7 to 18. -/
def DataDraw.record (d : DataDraw) : List Event :=
  lateRecord d.late ++ pulseRecord d.waits ++ [.pin (.sample d.bit)]

/-- The events of pulses 1 to 5, the levels `ls` on MOSI. -/
def commandRecord (ls : List Level) (ts : List (Nat × Nat)) : List Event :=
  (List.zipWith (fun l t => .pin (.write .mosi l) :: pulseRecord t) ls ts).flatten

/-- What a whole frame draws, and the draws left after it. -/
structure FrameDraw where
  gap : Nat
  cmd : List (Nat × Nat)
  late : List Level
  null : Nat × Nat
  data : List DataDraw
  left : Draws

/-- The bits a frame samples, in order. -/
def FrameDraw.bits (f : FrameDraw) : List Level := f.data.map (·.bit)

/-- The events of a frame for channel `c`. -/
def FrameDraw.record (f : FrameDraw) (cfg : Config) (c : Chan) : List Event :=
  .csIdle f.gap :: .pin (.write .cs cfg.csActive) :: (commandRecord (commandLevels c) f.cmd ++ lateRecord f.late ++
    pulseRecord f.null ++ (f.data.map (·.record)).flatten ++ [.pin (.write .cs (!cfg.csActive))])

/-- Both waits of a pulse lasted at least their minimum. -/
def WaitsOk (cfg : Config) (t : Nat × Nat) : Prop := cfg.tSetupMin ≤ t.1 ∧ cfg.tHighMin ≤ t.2

/-- The level MOSI is left at after a list of writes. -/
def lastLevel (m : Level) (ls : List Level) : Level := ls.foldl (fun _ l => l) m

/-- The level MOSI is left at after a frame. -/
def FrameDraw.mosi (f : FrameDraw) (c : Chan) : Level :=
  f.data.foldl (fun m d => lastLevel m d.late) (lastLevel (c.getLsbD 0) f.late)

/-- `f` can be what a frame from `s` draws. -/
structure FrameDraw.Fits (f : FrameDraw) (s : State) : Prop where
  cmd_length : f.cmd.length = 5
  data_length : f.data.length = 12
  gap_min : (if s.frames = 0 then 0 else s.cfg.tCsIdleMin) ≤ f.gap
  cmd_min : ∀ t ∈ f.cmd, WaitsOk s.cfg t
  null_min : WaitsOk s.cfg f.null
  data_min : ∀ d ∈ f.data, WaitsOk s.cfg d.waits
  miso : ∀ bits rest, bits.length = 12 → s.draws.miso = bits ++ rest → f.bits = bits ∧ f.left.miso = rest
  mosi : ∀ late rest, late.length = 13 → s.draws.mosi = late ++ rest →
    f.late :: f.data.map (·.late) = late ∧ f.left.mosi = rest

/-- The state after a frame for channel `c` that drew `f`. -/
def FrameDraw.after (f : FrameDraw) (c : Chan) (s : State) : State :=
  { s with
    chan := c
    acc := f.bits.foldl shiftIn 0#12
    n := 18
    pc := .reading 18
    cs := !s.cfg.csActive
    clk := low
    mosi := f.mosi c
    draws := f.left
    trace := s.trace ++ f.record s.cfg c
    frames := s.frames + 1 }

/-! ### Draws -/

@[simp] theorem drawDelay_miso (d : Draws) : (drawDelay d).2.miso = d.miso := by
  unfold drawDelay; split <;> rfl

@[simp] theorem drawDelay_mosi (d : Draws) : (drawDelay d).2.mosi = d.mosi := by
  unfold drawDelay; split <;> rfl

@[simp] theorem drawMosi_miso (d : Draws) : (drawMosi d).2.miso = d.miso := by
  unfold drawMosi; split <;> rfl

@[simp] theorem drawMiso_mosi (d : Draws) : (drawMiso d).2.mosi = d.mosi := by
  unfold drawMiso; split <;> rfl

theorem drawMiso_cons {d : Draws} {b : Level} {rest : List Level} (h : d.miso = b :: rest) :
    (drawMiso d).1 = b ∧ (drawMiso d).2.miso = rest := by
  unfold drawMiso; simp [h]

theorem drawMosi_cons {d : Draws} {ls : List Level} {rest : List (List Level)} (h : d.mosi = ls :: rest) :
    (drawMosi d).1 = ls ∧ (drawMosi d).2.mosi = rest := by
  unfold drawMosi; simp [h]

/-! ### Pulses -/

theorem pulse_spec (s : State) : ∃ t d, WaitsOk s.cfg t ∧ d.miso = s.draws.miso ∧ d.mosi = s.draws.mosi ∧
    pulse s = { s with clk := low, draws := d, trace := s.trace ++ pulseRecord t } := by
  refine ⟨(s.cfg.tSetupMin + (drawDelay s.draws).1, s.cfg.tHighMin + (drawDelay (drawDelay s.draws).2).1),
    (drawDelay (drawDelay s.draws).2).2, ⟨Nat.le_add_right _ _, Nat.le_add_right _ _⟩, by simp, by simp, ?_⟩
  simp [pulse, pinWrite, waitAtLeast, emit, setLevel, minWait, pulseRecord, pulseEvents]

theorem lateWrites_eq (ls : List Level) (s : State) :
    ls.foldl (fun t l => pinWrite .mosi l t) s =
      { s with mosi := lastLevel s.mosi ls, trace := s.trace ++ lateRecord ls } := by
  induction ls generalizing s with
  | nil => simp [lastLevel, lateRecord]
  | cons l ls ih =>
    rw [List.foldl_cons, ih]
    simp [lastLevel, lateRecord, pinWrite, emit, setLevel]

theorem lateMosi_eq (s : State) :
    lateMosi s = { s with
      mosi := lastLevel s.mosi (drawMosi s.draws).1
      draws := (drawMosi s.draws).2
      trace := s.trace ++ lateRecord (drawMosi s.draws).1 } := by
  simp [lateMosi, lateWrites_eq]

theorem commandPulse_spec (s : State) (nb : Nat × Level) : ∃ t d, WaitsOk s.cfg t ∧ d.miso = s.draws.miso ∧
    d.mosi = s.draws.mosi ∧ commandPulse s nb =
      { s with
        n := nb.1, pc := .reading nb.1, clk := low, mosi := nb.2, draws := d
        trace := s.trace ++ .pin (.write .mosi nb.2) :: pulseRecord t } := by
  obtain ⟨t, d, hw, h1, h2, h⟩ := pulse_spec (pinWrite .mosi nb.2 (atPulse nb.1 s))
  refine ⟨t, d, by simpa using hw, by simpa using h1, by simpa using h2, ?_⟩
  rw [commandPulse, h]
  simp [pinWrite, emit, setLevel, atPulse]

theorem nullPulse_spec (s : State) : ∃ t d, WaitsOk s.cfg t ∧ d.miso = s.draws.miso ∧
    d.mosi = (drawMosi s.draws).2.mosi ∧ nullPulse s =
      { s with
        n := 6, pc := .reading 6, clk := low, mosi := lastLevel s.mosi (drawMosi s.draws).1, draws := d
        trace := s.trace ++ (lateRecord (drawMosi s.draws).1 ++ pulseRecord t) } := by
  obtain ⟨t, d, hw, h1, h2, h⟩ := pulse_spec (lateMosi (atPulse 6 s))
  refine ⟨t, d, by simpa [lateMosi_eq] using hw, by simpa [lateMosi_eq] using h1, by simpa [lateMosi_eq] using h2, ?_⟩
  rw [nullPulse, h]
  simp [lateMosi_eq, atPulse]

theorem dataPulse_spec (s : State) (n : Nat) : ∃ (x : DataDraw) (d : Draws), WaitsOk s.cfg x.waits ∧
    (∀ b rest, s.draws.miso = b :: rest → x.bit = b ∧ d.miso = rest) ∧
    (∀ ls rest, s.draws.mosi = ls :: rest → x.late = ls ∧ d.mosi = rest) ∧
    dataPulse s n = { s with
        n := n, pc := .reading n, clk := low, mosi := lastLevel s.mosi x.late, draws := d
        acc := shiftIn s.acc x.bit, trace := s.trace ++ x.record } := by
  obtain ⟨t, d, hw, h1, h2, h⟩ := pulse_spec (lateMosi (atPulse n s))
  simp only [lateMosi_eq, atPulse_draws, drawMosi_miso] at h1 h2
  refine ⟨⟨(drawMosi s.draws).1, t, (drawMiso d).1⟩, (drawMiso d).2, by simpa [lateMosi_eq] using hw, ?_, ?_, ?_⟩
  · intro b rest hb
    exact drawMiso_cons (h1.trans hb)
  · intro ls rest hl
    refine ⟨(drawMosi_cons hl).1, ?_⟩
    rw [drawMiso_mosi, h2, (drawMosi_cons hl).2]
  · rw [dataPulse, h]
    simp [shiftSample, sampleMiso, misoLevel, emit, lateMosi_eq, atPulse, DataDraw.record]

/-! ### The two loops of the frame -/

theorem commandLoop_spec (l : List (Nat × Level)) (s : State) : ∃ ts d, ts.length = l.length ∧
    (∀ t ∈ ts, WaitsOk s.cfg t) ∧ d.miso = s.draws.miso ∧ d.mosi = s.draws.mosi ∧
    l.foldl commandPulse s = { s with
      n := l.foldl (fun _ nb => nb.1) s.n
      pc := l.foldl (fun _ nb => .reading nb.1) s.pc
      clk := l.foldl (fun _ _ => low) s.clk
      mosi := l.foldl (fun _ nb => nb.2) s.mosi
      draws := d
      trace := s.trace ++ commandRecord (l.map (·.2)) ts } := by
  induction l generalizing s with
  | nil => exact ⟨[], s.draws, rfl, by simp, rfl, rfl, by simp [commandRecord]⟩
  | cons nb l ih =>
    obtain ⟨t, d, hw, h1, h2, h⟩ := commandPulse_spec s nb
    obtain ⟨ts, d', hl, hws, h1', h2', h'⟩ := ih (commandPulse s nb)
    rw [h] at hws h1' h2'
    refine ⟨t :: ts, d', by simp [hl], ?_, h1'.trans h1, h2'.trans h2, ?_⟩
    · intro x hx
      rcases List.mem_cons.1 hx with rfl | hx
      · exact hw
      · exact hws x hx
    · rw [List.foldl_cons, h', h]
      simp [commandRecord]

theorem dataLoop_spec (l : List Nat) (s : State) : ∃ (xs : List DataDraw) (d : Draws), xs.length = l.length ∧
    (∀ x ∈ xs, WaitsOk s.cfg x.waits) ∧
    (∀ bits rest, bits.length = l.length → s.draws.miso = bits ++ rest → xs.map (·.bit) = bits ∧ d.miso = rest) ∧
    (∀ late rest, late.length = l.length → s.draws.mosi = late ++ rest → xs.map (·.late) = late ∧ d.mosi = rest) ∧
    l.foldl dataPulse s = { s with
      n := l.foldl (fun _ n => n) s.n
      pc := l.foldl (fun _ n => .reading n) s.pc
      clk := l.foldl (fun _ _ => low) s.clk
      mosi := xs.foldl (fun m x => lastLevel m x.late) s.mosi
      acc := (xs.map (·.bit)).foldl shiftIn s.acc
      draws := d
      trace := s.trace ++ (xs.map (·.record)).flatten } := by
  induction l generalizing s with
  | nil =>
    refine ⟨[], s.draws, rfl, by simp, ?_, ?_, by simp⟩ <;>
      (intro xs rest hl h; obtain rfl : xs = [] := by simpa using hl
       exact ⟨rfl, by simpa using h⟩)
  | cons n l ih =>
    obtain ⟨x, d, hw, h1, h2, h⟩ := dataPulse_spec s n
    obtain ⟨xs, d', hl, hws, h1', h2', h'⟩ := ih (dataPulse s n)
    rw [h] at hws h1' h2'
    refine ⟨x :: xs, d', by simp [hl], ?_, ?_, ?_, ?_⟩
    · intro y hy
      rcases List.mem_cons.1 hy with rfl | hy
      · exact hw
      · exact hws y hy
    · intro bits rest hlen hb
      cases bits with
      | nil => simp at hlen
      | cons b bits =>
        obtain ⟨hx, hd⟩ := h1 b (bits ++ rest) hb
        obtain ⟨hxs, hd'⟩ := h1' bits rest (by simpa using hlen) hd
        exact ⟨by simp [hx, hxs], hd'⟩
    · intro late rest hlen hb
      cases late with
      | nil => simp at hlen
      | cons b late =>
        obtain ⟨hx, hd⟩ := h2 b (late ++ rest) hb
        obtain ⟨hxs, hd'⟩ := h2' late rest (by simpa using hlen) hd
        exact ⟨by simp [hx, hxs], hd'⟩
    · rw [List.foldl_cons, h', h]
      simp

/-! ### The frame -/

/-- Everything a frame can do. -/
theorem readFrame_spec (c : Chan) (s : State) : ∃ f : FrameDraw, f.Fits s ∧ readFrame c s = f.after c s := by
  obtain ⟨ts, d1, hl1, hw1, hm1, ho1, h1⟩ := commandLoop_spec (commandPulses c) (openFrame c s)
  obtain ⟨t, d2, hw2, hm2, ho2, h2⟩ := nullPulse_spec ((commandPulses c).foldl commandPulse (openFrame c s))
  obtain ⟨xs, d3, hl3, hw3, hm3, ho3, h3⟩ :=
    dataLoop_spec dataPulses (nullPulse ((commandPulses c).foldl commandPulse (openFrame c s)))
  rw [h1] at h2 hw2 hm2 ho2
  have hopen : openFrame c s = { s with
      chan := c, acc := 0, n := 1, pc := .reading 1, cs := s.cfg.csActive, draws := (drawDelay s.draws).2
      trace := s.trace ++ [.csIdle ((if s.frames = 0 then 0 else s.cfg.tCsIdleMin) + (drawDelay s.draws).1),
        .pin (.write .cs s.cfg.csActive)] } := by
    simp [openFrame, beginRead, atPulse, csIdleGap, pinWrite, emit, setLevel]
  rw [h1, h2] at h3 hw3 hm3 ho3
  rw [hopen] at h1 h2 h3 hw1 hw2 hw3 hm1 hm2 hm3 ho1 ho2 ho3
  simp only [drawDelay_miso, drawDelay_mosi] at hm1 ho1
  refine ⟨⟨(if s.frames = 0 then 0 else s.cfg.tCsIdleMin) + (drawDelay s.draws).1, ts, (drawMosi d1).1, t, xs, d3⟩,
    ⟨hl1, hl3, Nat.le_add_right _ _, hw1, hw2, hw3, ?_, ?_⟩, ?_⟩
  · intro bits rest hlen hb
    exact hm3 bits rest hlen (by rw [hm2, hm1, hb])
  · intro late rest hlen hb
    cases late with
    | nil => simp at hlen
    | cons ls late =>
      have := drawMosi_cons (ho1.trans hb)
      obtain ⟨hx, hd⟩ := ho3 late rest (by simpa [dataPulses] using hlen) (by rw [ho2]; exact this.2)
      exact ⟨by simp [this.1, hx], hd⟩
  · rw [readFrame, hopen, h1, h2, h3]
    simp [closeFrame, pinWrite, emit, setLevel, FrameDraw.after, FrameDraw.record, FrameDraw.bits, FrameDraw.mosi,
      commandPulses, dataPulses, commandLevels, startBit, cfgPrefix, lastLevel, List.range'_succ, low, high]

end Sys2Proof.Machine
end

