-- ==== Sys2Proof/Laws/Record.lean ====
section
/-!
SUPPORT. The observers of `Sys2Proof.Safety` over a joined record, and what each reads off the record of a frame.
-/

namespace Sys2Proof.Safety

open Sys2Proof.Machine

/-! ### Joined records -/

@[simp] theorem samples_append (xs ys : List Event) : samples (xs ++ ys) = samples xs ++ samples ys := by
  induction xs with
  | nil => rfl
  | cons e xs ih => rcases e with ⟨_ | _ | _⟩ | _ | _ | _ | _ <;> simp [samples, ih]

@[simp] theorem writesOf_append (p : OutPin) (xs ys : List Event) :
    writesOf p (xs ++ ys) = writesOf p xs ++ writesOf p ys := by
  induction xs with
  | nil => rfl
  | cons e xs ih =>
    rcases e with ⟨_ | _ | _⟩ | _ | _ | _ | _ <;> simp [writesOf, ih]
    split <;> simp

@[simp] theorem waitsOf_append (k : WaitKind) (xs ys : List Event) :
    waitsOf k (xs ++ ys) = waitsOf k xs ++ waitsOf k ys := by
  induction xs with
  | nil => rfl
  | cons e xs ih =>
    rcases e with ⟨_ | _ | _⟩ | _ | _ | _ | _ <;> simp [waitsOf, ih]
    split <;> simp

@[simp] theorem responses_append (xs ys : List Event) : responses (xs ++ ys) = responses xs ++ responses ys := by
  induction xs with
  | nil => rfl
  | cons e xs ih => rcases e with _ | _ | _ | _ | _ <;> simp [responses, ih]

@[simp] theorem presses_append (xs ys : List Event) : presses (xs ++ ys) = presses xs ++ presses ys := by
  induction xs with
  | nil => rfl
  | cons e xs ih => rcases e with _ | _ | _ | _ | _ <;> simp [presses, ih]

@[simp] theorem csIdles_append (xs ys : List Event) : csIdles (xs ++ ys) = csIdles xs ++ csIdles ys := by
  induction xs with
  | nil => rfl
  | cons e xs ih => rcases e with _ | _ | _ | _ | _ <;> simp [csIdles, ih]

@[simp] theorem pinEvents_append (xs ys : List Event) : pinEvents (xs ++ ys) = pinEvents xs ++ pinEvents ys := by
  induction xs with
  | nil => rfl
  | cons e xs ih => rcases e with _ | _ | _ | _ | _ <;> simp [pinEvents, ih]

/-- What is seen at the rises of a joined record: the second part begins with MOSI where the first left it. -/
theorem mosiAtRise_append (m : Level) (xs ys : List Event) :
    mosiAtRise m (xs ++ ys) = mosiAtRise m xs ++ mosiAtRise (lastLevel m (writesOf .mosi xs)) ys := by
  induction xs generalizing m with
  | nil => rfl
  | cons e xs ih =>
    rcases e with ⟨(_ | _ | _) | _ | _⟩ | _ | _ | _ | _ <;> simp [mosiAtRise, writesOf, lastLevel, ih]
    rename_i l
    cases l <;> simp [mosiAtRise, lastLevel, ih]

theorem busRun_append (cfg : Config) (b : Bus) (xs ys : List Event) :
    busRun cfg b (xs ++ ys) = (busRun cfg b xs).bind fun b' => busRun cfg b' ys := by
  induction xs generalizing b with
  | nil => rfl
  | cons e xs ih =>
    rw [List.cons_append, busRun, busRun]
    cases busStep cfg b e <;> simp [ih]

/-! ### The parts of a frame -/

@[simp] theorem samples_pulse (t : Nat × Nat) : samples (pulseRecord t) = [] := rfl

@[simp] theorem samples_late (ls : List Level) : samples (lateRecord ls) = [] := by
  induction ls with
  | nil => rfl
  | cons l ls ih => simpa [lateRecord, samples] using ih

@[simp] theorem samples_one (x : DataDraw) : samples x.record = [x.bit] := by
  simp [DataDraw.record, samples]

@[simp] theorem samples_data (xs : List DataDraw) : samples (xs.map (·.record)).flatten = xs.map (·.bit) := by
  induction xs with
  | nil => rfl
  | cons x xs ih => simp [ih]

@[simp] theorem samples_command (ls : List Level) (ts : List (Nat × Nat)) : samples (commandRecord ls ts) = [] := by
  unfold commandRecord
  induction ls generalizing ts with
  | nil => rfl
  | cons l ls ih => cases ts <;> simp_all [samples]

@[simp] theorem writesOf_clk_pulse (t : Nat × Nat) : writesOf .clk (pulseRecord t) = [true, false] := rfl

@[simp] theorem writesOf_cs_pulse (t : Nat × Nat) : writesOf .cs (pulseRecord t) = [] := rfl

@[simp] theorem writesOf_mosi_pulse (t : Nat × Nat) : writesOf .mosi (pulseRecord t) = [] := rfl

@[simp] theorem writesOf_late (p : OutPin) (ls : List Level) :
    writesOf p (lateRecord ls) = if p = .mosi then ls else [] := by
  induction ls with
  | nil => cases p <;> rfl
  | cons l ls ih =>
    have h : lateRecord (l :: ls) = .pin (.write .mosi l) :: lateRecord ls := rfl
    cases p <;> simp_all [writesOf]

@[simp] theorem writesOf_one (p : OutPin) (x : DataDraw) : writesOf p x.record =
    match p with | .cs => [] | .clk => [true, false] | .mosi => x.late := by
  cases p <;> simp [DataDraw.record, writesOf]

/-- The writes of the data pulses: eighteen less six edges up and down, no chip-select, the late MOSI levels. -/
@[simp] theorem writesOf_data (p : OutPin) (xs : List DataDraw) : writesOf p (xs.map (·.record)).flatten =
    match p with
    | .cs => []
    | .clk => (List.replicate xs.length [true, false]).flatten
    | .mosi => (xs.map (·.late)).flatten := by
  induction xs with
  | nil => cases p <;> rfl
  | cons x xs ih => cases p <;> simp [ih, List.replicate_succ]

/-- The writes of the command pulses. -/
@[simp] theorem writesOf_command (p : OutPin) (ls : List Level) (ts : List (Nat × Nat)) (h : ts.length = ls.length) :
    writesOf p (commandRecord ls ts) =
      match p with
      | .cs => []
      | .clk => (List.replicate ls.length [true, false]).flatten
      | .mosi => ls := by
  unfold commandRecord
  induction ls generalizing ts with
  | nil => cases p <;> rfl
  | cons l ls ih =>
    cases ts with
    | nil => simp at h
    | cons t ts =>
      have := ih ts (by simpa using h)
      cases p <;> simp_all [writesOf, List.replicate_succ]

/-- The time of one of a pulse's two waits. -/
def waitTime (t : Nat × Nat) : WaitKind → Nat
  | .setup => t.1
  | .high => t.2

@[simp] theorem waitsOf_pulse (k : WaitKind) (t : Nat × Nat) :
    waitsOf k (pulseRecord t) = [waitTime t k] := by
  cases k <;> rfl

@[simp] theorem waitsOf_late (k : WaitKind) (ls : List Level) : waitsOf k (lateRecord ls) = [] := by
  induction ls with
  | nil => rfl
  | cons l ls ih => simpa [lateRecord, waitsOf] using ih

@[simp] theorem waitsOf_one (k : WaitKind) (x : DataDraw) :
    waitsOf k x.record = [waitTime x.waits k] := by
  simp [DataDraw.record, waitsOf]

@[simp] theorem waitsOf_data (k : WaitKind) (xs : List DataDraw) : waitsOf k (xs.map (·.record)).flatten =
    xs.map fun x => waitTime x.waits k := by
  induction xs with
  | nil => rfl
  | cons x xs ih => simp [ih]

@[simp] theorem waitsOf_command (k : WaitKind) (ls : List Level) (ts : List (Nat × Nat)) (h : ts.length = ls.length) :
    waitsOf k (commandRecord ls ts) = ts.map fun t => waitTime t k := by
  unfold commandRecord
  induction ls generalizing ts with
  | nil => simp_all [waitsOf]
  | cons l ls ih =>
    cases ts with
    | nil => simp at h
    | cons t ts => simp_all [waitsOf]

/-- A list of pin events holds no response, no press event and no CS idle gap. -/
theorem observers_pin (es : List PinEvent) : responses (es.map .pin) = [] ∧ presses (es.map .pin) = [] ∧
    csIdles (es.map .pin) = [] ∧ pinEvents (es.map .pin) = es := by
  induction es with
  | nil => exact ⟨rfl, rfl, rfl, rfl⟩
  | cons e es ih => simpa [responses, presses, csIdles, pinEvents] using ih

/-- The pin events of one of pulses 7 to 18. -/
def dataEvents (x : DataDraw) : List PinEvent :=
  x.late.map (.write .mosi) ++ pulseEvents x.waits ++ [.sample x.bit]

/-- The pin events of a frame, in a list of pin events alone. -/
def framePins (f : FrameDraw) (cfg : Config) (c : Chan) : List PinEvent :=
  .write .cs cfg.csActive ::
    ((List.zipWith (fun l t => .write .mosi l :: pulseEvents t) (commandLevels c) f.cmd).flatten ++
      f.late.map (.write .mosi) ++ pulseEvents f.null ++ (f.data.map dataEvents).flatten ++
      [.write .cs (!cfg.csActive)])

/-- The record of a frame: the CS idle gap, then pin events. -/
theorem record_eq_pins (f : FrameDraw) (cfg : Config) (c : Chan) :
    f.record cfg c = .csIdle f.gap :: (framePins f cfg c).map .pin := by
  have h1 : ∀ (ls : List Level) (ts : List (Nat × Nat)), commandRecord ls ts =
      ((List.zipWith (fun l t => .write .mosi l :: pulseEvents t) ls ts).flatten).map .pin := by
    intro ls
    unfold commandRecord
    induction ls with
    | nil => intro ts; rfl
    | cons l ls ih => intro ts; cases ts <;> simp_all [pulseRecord]
  have h2 : ∀ xs : List DataDraw, (xs.map (·.record)).flatten = ((xs.map dataEvents).flatten).map .pin := by
    intro xs
    induction xs with
    | nil => rfl
    | cons x xs ih =>
      rw [List.map_cons, List.flatten_cons, ih]
      simp [DataDraw.record, dataEvents, lateRecord, pulseRecord]
  rw [FrameDraw.record, h1, h2]
  simp [framePins, lateRecord, pulseRecord]

/-! ### What is read off the record of a whole frame -/

/-- A frame samples exactly its twelve bits. -/
theorem samples_record (f : FrameDraw) (cfg : Config) (c : Chan) : samples (f.record cfg c) = f.bits := by
  simp [FrameDraw.record, samples, FrameDraw.bits]

theorem responses_record (f : FrameDraw) (cfg : Config) (c : Chan) : responses (f.record cfg c) = [] := by
  rw [record_eq_pins]; exact (observers_pin _).1

theorem presses_record (f : FrameDraw) (cfg : Config) (c : Chan) : presses (f.record cfg c) = [] := by
  rw [record_eq_pins]; exact (observers_pin _).2.1

theorem pinEvents_record (f : FrameDraw) (cfg : Config) (c : Chan) : pinEvents (f.record cfg c) = framePins f cfg c := by
  rw [record_eq_pins]; exact (observers_pin _).2.2.2

theorem csIdles_record (f : FrameDraw) (cfg : Config) (c : Chan) : csIdles (f.record cfg c) = [f.gap] := by
  rw [record_eq_pins, csIdles, (observers_pin _).2.2.1]

theorem mosiAtRise_late (m : Level) (ls : List Level) : mosiAtRise m (lateRecord ls) = [] := by
  induction ls generalizing m with
  | nil => rfl
  | cons l ls ih => exact ih l

theorem mosiAtRise_pulse (m : Level) (t : Nat × Nat) : mosiAtRise m (pulseRecord t) = [m] := rfl

theorem mosiAtRise_one (m : Level) (x : DataDraw) : mosiAtRise m x.record = [lastLevel m x.late] := by
  simp [DataDraw.record, mosiAtRise_append, mosiAtRise_late, mosiAtRise_pulse, mosiAtRise, lastLevel]

/-- The levels seen at the rises of the data pulses: one a pulse. -/
theorem mosiAtRise_data_length (m : Level) (xs : List DataDraw) :
    (mosiAtRise m (xs.map (·.record)).flatten).length = xs.length := by
  induction xs generalizing m with
  | nil => rfl
  | cons x xs ih =>
    rw [List.map_cons, List.flatten_cons, mosiAtRise_append, mosiAtRise_one, List.length_append, ih]
    simp [Nat.add_comm]

theorem mosiAtRise_command (ls : List Level) (ts : List (Nat × Nat)) (m : Level) (h : ts.length = ls.length) :
    mosiAtRise m (commandRecord ls ts) = ls := by
  unfold commandRecord
  induction ls generalizing ts m with
  | nil => rfl
  | cons l ls ih =>
    cases ts with
    | nil => simp at h
    | cons t ts => simpa [pulseRecord, pulseEvents, mosiAtRise] using ih ts l (by simpa using h)

/-- The levels seen at the rises of a frame: those of the command field, then one for each of the other thirteen pulses. -/
theorem mosiAtRise_record (m : Level) (f : FrameDraw) (cfg : Config) (c : Chan) (h5 : f.cmd.length = 5)
    (h12 : f.data.length = 12) :
    ∃ rest, mosiAtRise m (f.record cfg c) = commandLevels c ++ rest ∧ rest.length = 13 := by
  rw [FrameDraw.record, mosiAtRise, mosiAtRise]
  · simp only [List.append_assoc, mosiAtRise_append, mosiAtRise_late, mosiAtRise_pulse]
    rw [mosiAtRise_command _ _ _ (by simp [h5, commandLevels])]
    exact ⟨_, rfl, by simp [mosiAtRise_data_length, h12, mosiAtRise]⟩
  all_goals simp

end Sys2Proof.Safety
end

