-- ==== Sys2Proof/Laws/Bus.lean ====
section
/-!
SUPPORT. The checker of `Sys2Proof.Safety` over the record of a frame, piece by piece: `busRun_frame` says once that a whole
frame obeys the wire protocol from every quiet bus.
-/

namespace Sys2Proof.Machine

open Sys2Proof.Safety

/-- A bus inside a frame with CLK low, nothing waited for, every sample taken that is due. -/
structure InFrame (cfg : Config) (b : Bus) : Prop where
  cs : b.cs = cfg.csActive
  clk : b.clk = false
  held : b.held = none
  taken : b.taken = b.rises - 6
  rises : b.rises < 18

/-- One clock pulse inside a frame, MOSI at 1 on the first two. -/
theorem busRun_pulse {cfg : Config} {b : Bus} {t : Nat × Nat} (hw : WaitsOk cfg t) (h : InFrame cfg b)
    (hm : b.rises < 2 → b.mosi = true) : busRun cfg b (pulseRecord t) = some { b with rises := b.rises + 1 } := by
  obtain ⟨w1, w2⟩ := hw
  obtain ⟨h1, h2, h3, h4, h5⟩ := h
  obtain ⟨cs, clk, mosi, rises, taken, held, o⟩ := b
  simp only at h1 h2 h3 h4 h5 hm
  subst h1 h2 h3 h4
  simp only [pulseRecord, pulseEvents, List.map_cons, List.map_nil, busRun, busStep, w1, w2, h5, and_self, if_true,
    Option.bind_some]
  rw [if_pos ⟨trivial, trivial, trivial, trivial, hm⟩]
  simp

/-- The writes to MOSI before one of pulses 6 to 18. -/
theorem busRun_late {cfg : Config} (ls : List Level) : ∀ {b : Bus}, InFrame cfg b →
    busRun cfg b (lateRecord ls) = some { b with mosi := lastLevel b.mosi ls } := by
  induction ls with
  | nil => intros; rfl
  | cons l ls ih =>
    intro b h
    have hc : lateRecord (l :: ls) = .pin (.write .mosi l) :: lateRecord ls := rfl
    rw [hc, busRun, busStep, if_pos ⟨h.cs, h.clk, h.held, h.rises, h.taken⟩, Option.bind_some,
      ih (b := { b with mosi := l }) ⟨h.cs, h.clk, h.held, h.taken, h.rises⟩]
    rfl

/-- One of pulses 7 to 18 with its sample. -/
theorem busRun_dataPulse {cfg : Config} {b : Bus} {x : DataDraw} (hw : WaitsOk cfg x.waits) (h : InFrame cfg b)
    (h6 : 6 ≤ b.rises) : busRun cfg b x.record =
      some { b with mosi := lastLevel b.mosi x.late, rises := b.rises + 1, taken := b.taken + 1 } := by
  obtain ⟨h1, h2, h3, h4, h5⟩ := h
  rw [DataDraw.record, busRun_append, busRun_append, busRun_late x.late ⟨h1, h2, h3, h4, h5⟩, Option.bind_some,
    busRun_pulse (b := { b with mosi := lastLevel b.mosi x.late }) hw ⟨h1, h2, h3, h4, h5⟩ (by simp only; omega),
    Option.bind_some]
  simp only [busRun, busStep, h1, h2, h3, true_and]
  rw [if_pos (by omega)]
  rfl

/-- The data pulses of a frame. -/
theorem busRun_data {cfg : Config} (xs : List DataDraw) : ∀ {b : Bus}, (∀ x ∈ xs, WaitsOk cfg x.waits) →
    b.cs = cfg.csActive → b.clk = false → b.held = none → b.taken + 6 = b.rises → b.rises + xs.length ≤ 18 →
    busRun cfg b (xs.map (·.record)).flatten = some { b with
      mosi := xs.foldl (fun m d => lastLevel m d.late) b.mosi
      rises := b.rises + xs.length
      taken := b.taken + xs.length } := by
  induction xs with
  | nil => intros; rfl
  | cons x xs ih =>
    intro b hw h1 h2 h3 h4 h5
    simp only [List.length_cons] at h5
    rw [List.map_cons, List.flatten_cons, busRun_append,
      busRun_dataPulse (hw x (by simp)) ⟨h1, h2, h3, by omega, by omega⟩ (by omega), Option.bind_some,
      ih (b := { b with mosi := lastLevel b.mosi x.late, rises := b.rises + 1, taken := b.taken + 1 })
        (fun y hy => hw y (by simp [hy])) h1 h2 h3 (by simp only; omega) (by simp only; omega)]
    simp only [List.foldl_cons, List.length_cons, Option.some.injEq, Bus.mk.injEq, true_and, and_true]
    omega

/-- One of pulses 1 to 5 with the bit written before it, then the rest of the record. -/
theorem busRun_commandPulse {cfg : Config} {b : Bus} {l : Level} {t : Nat × Nat} {r : List Event} (hw : WaitsOk cfg t)
    (h : InFrame cfg b) (hm : b.rises < 2 → l = true) :
    busRun cfg b (.pin (.write .mosi l) :: (pulseRecord t ++ r)) =
      busRun cfg { b with mosi := l, rises := b.rises + 1 } r := by
  rw [busRun, busStep, if_pos ⟨h.cs, h.clk, h.held, h.rises, h.taken⟩, Option.bind_some, busRun_append,
    busRun_pulse (b := { b with mosi := l }) hw ⟨h.cs, h.clk, h.held, h.taken, h.rises⟩ hm]
  rfl

/-- A whole frame, from any quiet bus with CLK low: it ends with 18 rises and 12 samples, chip-select idle. -/
theorem busRun_frame {s : State} {f : FrameDraw} (c : Chan) (hf : f.Fits s) {b : Bus} (h1 : b.cs = (!s.cfg.csActive))
    (h2 : b.clk = false) (h3 : b.outstanding = false) (h4 : b.frames = s.frames) (h5 : b.gap = false) :
    busRun s.cfg b (f.record s.cfg c) =
      some ⟨!s.cfg.csActive, false, f.mosi c, 18, 12, none, false, s.frames + 1, false⟩ := by
  obtain ⟨t1, t2, t3, t4, t5, hc⟩ : ∃ t1 t2 t3 t4 t5, f.cmd = [t1, t2, t3, t4, t5] := by
    have hl := hf.cmd_length
    match hh : f.cmd with
    | [t1, t2, t3, t4, t5] => exact ⟨t1, t2, t3, t4, t5, rfl⟩
    | [] | [_] | [_, _] | [_, _, _] | [_, _, _, _] | _ :: _ :: _ :: _ :: _ :: _ :: _ => simp [hh] at hl
  have hm := hf.cmd_min
  rw [hc] at hm
  have hg : 0 < b.frames → s.cfg.tCsIdleMin ≤ f.gap := fun h => by
    have := hf.gap_min
    rwa [if_neg (by omega)] at this
  have at0 : ∀ m n, n < 6 → InFrame s.cfg ⟨s.cfg.csActive, false, m, n, 0, none, false, s.frames, false⟩ :=
    fun m n hn => ⟨rfl, rfl, rfl, by simp only; omega, by simp only; omega⟩
  have at6 : ∀ m, InFrame s.cfg ⟨s.cfg.csActive, false, m, 5, 0, none, false, s.frames, false⟩ :=
    fun m => at0 m 5 (by omega)
  rw [FrameDraw.record, busRun, busStep, if_pos ⟨h1, h3, h5, hg⟩, Option.bind_some, busRun]
  simp only [busStep, h1, h2, h3, h4, and_self, if_true, Option.bind_some, List.append_assoc]
  rw [hc]
  simp only [commandRecord, commandLevels, List.zipWith, List.flatten_cons, List.flatten_nil, List.cons_append,
    List.append_assoc, List.append_nil]
  rw [busRun_commandPulse (hm t1 (by simp)) (at0 _ 0 (by omega)) (by simp),
    busRun_commandPulse (hm t2 (by simp)) (at0 _ 1 (by omega)) (by simp),
    busRun_commandPulse (hm t3 (by simp)) (at0 _ 2 (by omega)) (by simp),
    busRun_commandPulse (hm t4 (by simp)) (at0 _ 3 (by omega)) (by simp),
    busRun_commandPulse (hm t5 (by simp)) (at0 _ 4 (by omega)) (by simp),
    busRun_append, busRun_late f.late (at6 _), Option.bind_some,
    busRun_append, busRun_pulse hf.null_min (at6 _) (by simp), Option.bind_some,
    busRun_append, busRun_data f.data hf.data_min rfl rfl rfl rfl (by simp [hf.data_length]), Option.bind_some]
  simp [busRun, busStep, hf.data_length, FrameDraw.mosi]

end Sys2Proof.Machine
end

