-- ==== Sys2Proof/Laws/PerInstr.lean ====
section
/-!
SUPPORT. One law per constructor of `Instr`: its words are those of its row of spec/opcode_table.json.
-/

namespace Sys2Proof.Laws.TableRow

/-- The words of an instruction carry its row's fixed bits and its operand (spec/30_encoding.md R88, R82). -/
def Statement : Instr → Prop
  | .readChannel ch => ∃ w, encode (.readChannel ch) = .request w ∧ opcodeOf w = 0x01#8 ∧ operandOf w = BitVec.ofInt 32 ch
  | .poll k => ∃ w, encode (.poll k) = .request w ∧ opcodeOf w = 0x02#8 ∧ operandOf w = BitVec.ofNat 32 k
  | .pollPass => encode .pollPass = .request 0x0300000000#40
  | .run => encode .run = .request 0x0400000000#40
  | .spiFrameRead c => ∃ w, encode (.spiFrameRead c) = .frame w ∧ framePrefix w = 0b11#2 ∧ w.extractLsb' 0 3 = c

theorem requestWord_getLsbD (op : BitVec 8) (arg : BitVec 32) (i : Nat) :
    (requestWord op arg).getLsbD i = if i < 32 then arg.getLsbD i else op.getLsbD (i - 32) :=
  BitVec.getLsbD_append

theorem frameWord_getLsbD (c : Chan) (i : Nat) :
    (frameWord c).getLsbD i = if i < 3 then c.getLsbD i else (0b11#2).getLsbD (i - 3) :=
  BitVec.getLsbD_append

theorem opcodeOf_requestWord (op : BitVec 8) (arg : BitVec 32) : opcodeOf (requestWord op arg) = op := by
  ext i hi
  simp [opcodeOf, BitVec.getElem_extractLsb', requestWord_getLsbD, BitVec.getLsbD_eq_getElem hi]

theorem operandOf_requestWord (op : BitVec 8) (arg : BitVec 32) : operandOf (requestWord op arg) = arg := by
  ext i hi
  simp [operandOf, BitVec.getElem_extractLsb', requestWord_getLsbD, hi]

theorem readChannel (ch : Int) : Statement (.readChannel ch) :=
  ⟨_, rfl, opcodeOf_requestWord _ _, operandOf_requestWord _ _⟩

theorem poll (k : Nat) : Statement (.poll k) :=
  ⟨_, rfl, opcodeOf_requestWord _ _, operandOf_requestWord _ _⟩

theorem pollPass : Statement .pollPass := by unfold Statement; decide

theorem run : Statement .run := by unfold Statement; decide

theorem spiFrameRead (c : Chan) : Statement (.spiFrameRead c) := by
  refine ⟨_, rfl, ?_, ?_⟩
  · ext i hi
    simp [framePrefix, BitVec.getElem_extractLsb', frameWord_getLsbD, BitVec.getLsbD_eq_getElem hi]
  · ext i hi
    simp [BitVec.getElem_extractLsb', frameWord_getLsbD, hi]

end Sys2Proof.Laws.TableRow
end

