-- ==== Sys2Proof/Laws/Decode.lean ====
section
/-!
SUPPORT. The fields of a request word as numbers, and that the two fields determine the word.
-/

namespace Sys2Proof

theorem opcodeOf_toNat (w : Word40) : (opcodeOf w).toNat = w.toNat / 4294967296 % 256 := by
  simp [opcodeOf, BitVec.extractLsb'_toNat, Nat.shiftRight_eq_div_pow]

theorem operandOf_toNat (w : Word40) : (operandOf w).toNat = w.toNat % 4294967296 := by
  simp [operandOf, BitVec.extractLsb'_toNat]

/-- Two request words with the same fields are the same word. -/
theorem request_ext {v w : Word40} (h1 : opcodeOf v = opcodeOf w) (h2 : operandOf v = operandOf w) : v = w := by
  have h1 := congrArg BitVec.toNat h1
  have h2 := congrArg BitVec.toNat h2
  rw [opcodeOf_toNat, opcodeOf_toNat] at h1
  rw [operandOf_toNat, operandOf_toNat] at h2
  apply BitVec.eq_of_toNat_eq
  have := v.isLt
  have := w.isLt
  omega

end Sys2Proof
end

