-- ==== Sys2Proof/Laws/Touch.lean ====
section
/-!
SUPPORT. What a poll can do, said once: `pollStep_spec`, by the values drawn in its one frame; and the hysteresis
function's cases.
-/

namespace Sys2Proof.Machine

open Sys2Proof.Safety

/-- The state after the poll of position `k` whose frame drew `f`. -/
def FrameDraw.afterPoll (f : FrameDraw) (k : Nat) (s : State) : State :=
  { f.after (channelAt s.cfg k) s with
    pc := .polling k
    st := s.st.set k (hyst s.cfg (touchAt s k) (f.bits.foldl shiftIn 0#12).toNat).1 }

/-- Whether the poll of position `k` whose frame drew `f` reports a press. -/
def FrameDraw.presses (f : FrameDraw) (k : Nat) (s : State) : Bool :=
  (hyst s.cfg (touchAt s k) (f.bits.foldl shiftIn 0#12).toNat).2

theorem FrameDraw.after_touchAt (f : FrameDraw) (c : Chan) (s : State) (k : Nat) :
    touchAt (f.after c s) k = touchAt s k := rfl

/-- Everything a poll step can do. -/
theorem pollStep_spec (k : Nat) (s : State) : ∃ f : FrameDraw, f.Fits s ∧
    pollStep k s = (f.presses k s, f.afterPoll k s) := by
  obtain ⟨f, hf, h⟩ := readFrame_spec (channelAt s.cfg k) s
  refine ⟨f, hf, ?_⟩
  simp only [pollStep, pollHyst, pollRead, h, FrameDraw.presses, FrameDraw.afterPoll]
  rfl

/-- Placing the sequencer does not change what a frame can draw. -/
theorem FrameDraw.fits_setPos {f : FrameDraw} {p : Pos} {s : State} : f.Fits (setPos p s) ↔ f.Fits s :=
  ⟨fun h => ⟨h.1, h.2, h.3, h.4, h.5, h.6, h.7, h.8⟩, fun h => ⟨h.1, h.2, h.3, h.4, h.5, h.6, h.7, h.8⟩⟩

theorem touchAt_set_self {s : State} {k : Nat} (h : k < s.st.length) (t : Touch) :
    touchAt (setTouch k t s) k = t := by
  simp [touchAt, List.getD_eq_getElem?_getD, h]

theorem touchAt_set_ne {s : State} {j k : Nat} (h : k ≠ j) (t : Touch) :
    touchAt (setTouch k t s) j = touchAt s j := by
  simp [touchAt, List.getD_eq_getElem?_getD, List.getElem?_set_ne h]

/-- The only result that is a press is that of a released channel whose sample is below the threshold. -/
theorem hyst_press {cfg : Config} {t : Touch} {x : Nat} :
    (hyst cfg t x).2 = true ↔ t = .released ∧ x < cfg.pressThreshold := by
  cases t <;> simp only [hyst] <;> split <;> simp_all

end Sys2Proof.Machine
end

