-- ==== Sys2Proof/Laws/Loop.lean ====
section
/-!
SUPPORT. What a pass can do, said once: it ends, or it waits at the first position that presses; and a property every poll
step keeps is kept up to there.
-/

namespace Sys2Proof.Machine

/-- A pass over entries, first at position `k`, from a state with `P`: it ends from a state with `P`, or it dispatches the
entry at a position `j` from a state with `P`, where `P` is any property the poll of a position keeps. -/
theorem passLoop_cases (P : State → Prop) (hpoll : ∀ k s, P s → P (pollStep k (setPos (.passing k) s)).2) :
    ∀ (es : List ChannelEntry) (k : Nat) (s : State), P s →
      (∃ t, P t ∧ passLoop es k s = endPass t) ∨
      (∃ j e t, es[j]? = some e ∧ P t ∧ passLoop es k s = dispatch (k + j) e.label t) := by
  intro es
  induction es with
  | nil => exact fun k s hs => .inl ⟨s, hs, rfl⟩
  | cons e es ih =>
    intro k s hs
    by_cases hp : (pollStep k (setPos (.passing k) s)).1 = true
    · exact .inr ⟨0, e, _, rfl, hpoll k s hs, by simp [passLoop, hp]⟩
    · have hl : passLoop (e :: es) k s = passLoop es (k + 1) (pollStep k (setPos (.passing k) s)).2 := by
        simp [passLoop, hp]
      rcases ih (k + 1) _ (hpoll k s hs) with ⟨t, ht, h⟩ | ⟨j, e', t, he, ht, h⟩
      · exact .inl ⟨t, ht, by rw [hl, h]⟩
      · exact .inr ⟨j + 1, e', t, by simpa using he, ht, by rw [hl, h, Nat.add_assoc, Nat.add_comm 1 j]⟩

/-- The same for the pass from position `k` on. -/
theorem passFrom_cases (P : State → Prop) (hpoll : ∀ k s, P s → P (pollStep k (setPos (.passing k) s)).2)
    (k : Nat) (s : State) (hs : P s) :
    (∃ t, P t ∧ passFrom k s = endPass t) ∨
    (∃ j e t, s.cfg.channels[j]? = some e ∧ k ≤ j ∧ P t ∧ passFrom k s = dispatch j e.label t) := by
  rcases passLoop_cases P hpoll (s.cfg.channels.drop k) k s hs with h | ⟨j, e, t, he, ht, h⟩
  · exact .inl h
  · exact .inr ⟨k + j, e, t, by simpa using he, Nat.le_add_right k j, ht, h⟩

end Sys2Proof.Machine
end

