-- ==== Sys2Proof/Laws/Moments.lean ====
section
/-!
SUPPORT. What the moments of an operation are: they end in the state the operation gives (`ends_frame`, `ends_passFrom` and so
on), and from one to the next at most one event is recorded while nothing that a construction fixes changes (`Stepwise`).
-/

namespace Sys2Proof.Machine

open Sys2Proof.Safety

/-! ### Where a piece ends -/

@[simp] theorem ends_one (f : State → State) (s : State) : ends (one f) s = f s := rfl

theorem getLastD_append (xs ys : List State) (s : State) : (xs ++ ys).getLastD s = ys.getLastD (xs.getLastD s) := by
  induction xs generalizing s with
  | nil => rfl
  | cons x xs ih => rw [List.cons_append, List.getLastD_cons, List.getLastD_cons, ih]

theorem ends_of_eq {m m' : Moments} {s : State} (h : m s = m' s) : ends m s = ends m' s := by
  simp only [ends, h]

@[simp] theorem ends_followedBy (f g : Moments) (s : State) : ends (followedBy f g) s = ends g (ends f s) :=
  getLastD_append _ _ _

@[simp] theorem ends_each {α : Type} (f : α → Moments) (xs : List α) (s : State) :
    ends (each f xs) s = xs.foldl (fun t x => ends (f x) t) s := by
  induction xs generalizing s with
  | nil => rfl
  | cons x xs ih => rw [each, ends_followedBy, ih, List.foldl_cons]

theorem ends_pulse (s : State) : ends pulseMoments s = pulse s := by
  simp [pulseMoments, pulse]

theorem ends_late (s : State) : ends lateMoments s = lateMosi s := by
  rw [ends_of_eq (m' := followedBy (one fun t => { t with draws := (drawMosi t.draws).2 })
    (each (fun l => one (pinWrite .mosi l)) (drawMosi s.draws).1)) (by rw [lateMoments])]
  simp [lateMosi]

theorem ends_frame (c : Chan) (s : State) : ends (frameMoments c) s = readFrame c s := by
  have h1 : ∀ nb t, ends (commandMoments nb) t = commandPulse t nb := fun nb t => by
    simp [commandMoments, commandPulse, ends_pulse]
  have h2 : ∀ t, ends nullMoments t = nullPulse t := fun t => by
    simp [nullMoments, nullPulse, ends_pulse, ends_late]
  have h3 : ∀ n t, ends (dataMoments n) t = dataPulse t n := fun n t => by
    simp [dataMoments, dataPulse, ends_pulse, ends_late]
  have h4 : ends (openMoments c) s = openFrame c s := by
    simp [openMoments, openFrame]
  simp [frameMoments, readFrame, h1, h2, h3, h4]

theorem ends_finish (r : Response) (s : State) : ends (finishMoments r) s = finish r s := by
  simp [finishMoments, finish]

theorem ends_pollStep (k : Nat) (s : State) : ends (pollStepMoments k) s = (pollStep k s).2 := by
  rw [ends_of_eq (m' := followedBy (frameMoments (channelAt s.cfg k))
    (each one [setPos (.polling k), fun t => setTouch k (pollHyst k t).1 t])) (by rw [pollStepMoments])]
  simp [ends_frame, pollStep, pollRead]

theorem ends_endPass (s : State) : ends endPassMoments s = endPass s := by
  simp only [ends, endPassMoments, endPass]
  split
  · rfl
  · exact ends_finish _ _

theorem ends_dispatch (k : Nat) (label : Label) (s : State) : ends (dispatchMoments k label) s = dispatch k label s := by
  simp [dispatchMoments, dispatch]

theorem ends_pass (es : List ChannelEntry) (k : Nat) (s : State) : ends (passMoments es k) s = passLoop es k s := by
  induction es generalizing k s with
  | nil => exact ends_endPass s
  | cons e es ih =>
    rw [ends_of_eq (m' := followedBy (followedBy (one (setPos (.passing k))) (pollStepMoments k))
      (if (pollStep k (setPos (.passing k) s)).1 then dispatchMoments k e.label else passMoments es (k + 1)))
      (by rw [passMoments]), ends_followedBy, ends_followedBy, ends_one, ends_pollStep, passLoop]
    split
    · exact ends_dispatch _ _ _
    · exact ih _ _

theorem ends_passFrom (k : Nat) (s : State) : ends (passFromMoments k) s = passFrom k s :=
  ends_pass _ _ _

/-! ### One primitive at a time -/

/-- `u` comes after `s` inside one turn: what a construction fixes is as it was, and the record has only grown; `running` is as
it was, or has been set by RUN where `r` says that this is one; the block is as much stopped as before, and has not failed
since. -/
structure Onward (r : Bool) (s u : State) : Prop where
  cfg : u.cfg = s.cfg
  handles : u.handles = s.handles
  fault : u.fault = s.fault
  platform : u.platform = s.platform
  inputs : u.inputs = s.inputs
  stopped : u.stopped = s.stopped
  alive : u.pc = .failed → s.pc = .failed
  running : u.running = s.running ∨ r = true ∧ u.running = true
  trace : ∃ es, u.trace = s.trace ++ es

theorem Onward.refl (r : Bool) (s : State) : Onward r s s :=
  ⟨rfl, rfl, rfl, rfl, rfl, rfl, id, .inl rfl, [], by simp⟩

theorem Onward.trans {r : Bool} {s t u : State} (h : Onward r s t) (h' : Onward r t u) : Onward r s u := by
  obtain ⟨es, he⟩ := h.trace
  obtain ⟨es', he'⟩ := h'.trace
  refine ⟨h'.cfg.trans h.cfg, h'.handles.trans h.handles, h'.fault.trans h.fault, h'.platform.trans h.platform,
    h'.inputs.trans h.inputs, h'.stopped.trans h.stopped, h.alive ∘ h'.alive, ?_, es ++ es', by rw [he', he, List.append_assoc]⟩
  rcases h'.running with h1 | h1
  · rw [h1]
    exact h.running
  · exact .inr h1

/-- The moments of a piece lie between its start and its end, and its record grows through every beginning of what it adds. -/
structure Stepwise (r : Bool) (m : Moments) (s : State) : Prop where
  after : ∀ u ∈ m s, Onward r s u
  before : ∀ u ∈ m s, Onward r u (ends m s)
  fine : ∀ first later, (ends m s).trace = s.trace ++ (first ++ later) →
    ∃ j, (momentAt j m s).trace = s.trace ++ first

theorem ends_mem (m : Moments) (s : State) : ends m s = s ∨ ends m s ∈ m s := by
  unfold ends
  cases h : m s with
  | nil => exact .inl rfl
  | cons x xs => exact .inr (by rw [List.getLastD_cons]; exact List.getLastD_mem_cons)

theorem Stepwise.whole {r : Bool} {m : Moments} {s : State} (h : Stepwise r m s) : Onward r s (ends m s) := by
  rcases ends_mem m s with h' | h'
  · rw [h']
    exact .refl r s
  · exact h.after _ h'

/-- A moment of a piece is its start or one of its states. -/
theorem momentAt_mem (j : Nat) (m : Moments) (s : State) : momentAt j m s = s ∨ momentAt j m s ∈ m s := by
  rcases ends_mem (fun s => (m s).take j) s with h | h
  · exact .inl h
  · exact .inr (List.mem_of_mem_take h)

theorem Stepwise.at {r : Bool} {m : Moments} {s : State} (h : Stepwise r m s) (j : Nat) :
    Onward r s (momentAt j m s) ∧ Onward r (momentAt j m s) (ends m s) := by
  rcases momentAt_mem j m s with h' | h'
  · rw [h']
    exact ⟨.refl r s, h.whole⟩
  · exact ⟨h.after _ h', h.before _ h'⟩

theorem stepwise_of_eq {r : Bool} {m m' : Moments} {s : State} (h : Stepwise r m' s) (he : m s = m' s) : Stepwise r m s := by
  have h1 : ends m s = ends m' s := by simp [ends, he]
  have h2 : ∀ j, momentAt j m s = momentAt j m' s := fun j => by simp [momentAt, he]
  exact ⟨by rw [he]; exact h.after, by rw [he, h1]; exact h.before, by simpa only [h1, h2] using h.fine⟩

theorem stepwise_nil (r : Bool) (s : State) : Stepwise r (fun _ => []) s :=
  ⟨by simp, by simp, fun first later h => ⟨0, by
    have : first = [] := by
      have : first = [] ∧ later = [] := by simpa [ends] using h
      exact this.1
    simp [momentAt, this]⟩⟩

/-- A primitive that records one event or none. -/
theorem stepwise_one {r : Bool} {f : State → State} {s : State} (h : Onward r s (f s))
    (h1 : (f s).trace = s.trace ∨ ∃ e, (f s).trace = s.trace ++ [e]) : Stepwise r (one f) s := by
  refine ⟨by simpa [one] using h, by simpa [one] using Onward.refl r (f s), fun first later ht => ?_⟩
  rw [ends_one] at ht
  cases first with
  | nil => exact ⟨0, by simp [momentAt]⟩
  | cons e first =>
    refine ⟨1, ?_⟩
    have : (f s).trace = s.trace ++ e :: first := by
      rcases h1 with h1 | ⟨e', h1⟩
      · rw [h1] at ht
        simp at ht
      · rw [h1] at ht ⊢
        simp only [List.append_cancel_left_eq, List.cons_append, List.cons.injEq, List.nil_eq, List.append_eq_nil_iff] at ht
        simp [ht.1, ht.2.1]
    simpa [momentAt, one] using this

theorem stepwise_followedBy {r : Bool} {f g : Moments} {s : State} (hf : Stepwise r f s) (hg : Stepwise r g (ends f s)) :
    Stepwise r (followedBy f g) s := by
  refine ⟨?_, ?_, ?_⟩
  · intro u hu
    rcases List.mem_append.1 hu with hu | hu
    · exact hf.after u hu
    · exact hf.whole.trans (hg.after u hu)
  · intro u hu
    rw [ends_followedBy]
    rcases List.mem_append.1 hu with hu | hu
    · exact (hf.before u hu).trans hg.whole
    · exact hg.before u hu
  · intro first later h
    rw [ends_followedBy] at h
    obtain ⟨e1, he1⟩ := hf.whole.trace
    obtain ⟨e2, he2⟩ := hg.whole.trace
    rw [he2, he1, List.append_assoc, List.append_cancel_left_eq] at h
    rcases List.append_eq_append_iff.1 h with ⟨more, h3, h4⟩ | ⟨more, h3, h4⟩
    · obtain ⟨j, hj⟩ := hg.fine more later (by rw [he2, h4])
      refine ⟨(f s).length + j, ?_⟩
      have : momentAt ((f s).length + j) (followedBy f g) s = momentAt j g (ends f s) := by
        simp only [momentAt, followedBy]
        rw [List.take_length_add_append, getLastD_append]
        rfl
      rw [this, hj, he1, h3, List.append_assoc]
    · obtain ⟨j, hj⟩ := hf.fine first more (by rw [he1, h3])
      refine ⟨min j (f s).length, ?_⟩
      rw [← hj]
      simp only [momentAt, followedBy]
      rw [List.take_append_of_le_length (by omega)]
      rcases Nat.le_total j (f s).length with hl | hl
      · rw [Nat.min_eq_left hl]
      · rw [Nat.min_eq_right hl, List.take_of_length_le hl, List.take_length]

theorem stepwise_each {α : Type} {r : Bool} {f : α → Moments} {xs : List α} (h : ∀ x ∈ xs, ∀ s, Stepwise r (f x) s)
    (s : State) : Stepwise r (each f xs) s := by
  induction xs generalizing s with
  | nil => exact stepwise_nil r s
  | cons x xs ih =>
    exact stepwise_followedBy (h x (by simp) s) (ih (fun y hy => h y (by simp [hy])) _)

/-- A primitive that only records an event, or none, and writes what no construction fixes. -/
theorem stepwise_plain {r : Bool} {f : State → State} {s : State} (h1 : (f s).cfg = s.cfg) (h2 : (f s).handles = s.handles)
    (h3 : (f s).fault = s.fault) (h4 : (f s).platform = s.platform) (h5 : (f s).inputs = s.inputs)
    (h6 : (f s).running = s.running) (h8 : (f s).stopped = s.stopped) (h9 : (f s).pc = .failed → s.pc = .failed)
    (h7 : (f s).trace = s.trace ∨ ∃ e, (f s).trace = s.trace ++ [e]) : Stepwise r (one f) s :=
  stepwise_one ⟨h1, h2, h3, h4, h5, h8, h9, .inl h6, by
    rcases h7 with h | ⟨e, h⟩
    · exact ⟨[], by simp [h]⟩
    · exact ⟨[e], h⟩⟩ h7

theorem stepwise_pinWrite (r : Bool) (p : OutPin) (l : Level) (s : State) : Stepwise r (one (pinWrite p l)) s := by
  cases p <;> exact stepwise_plain rfl rfl rfl rfl rfl rfl rfl id (.inr ⟨_, rfl⟩)

theorem stepwise_setPos (r : Bool) {p : Pos} (hp : p ≠ .failed) (s : State) : Stepwise r (one (setPos p)) s :=
  stepwise_plain rfl rfl rfl rfl rfl rfl rfl (fun h => absurd h hp) (.inl rfl)

theorem stepwise_emit (r : Bool) (e : Event) (s : State) : Stepwise r (one (emit e)) s :=
  stepwise_plain rfl rfl rfl rfl rfl rfl rfl id (.inr ⟨_, rfl⟩)

theorem stepwise_refuse (r : Bool) (q : Reason) (s : State) : Stepwise r (one (refuse q)) s :=
  stepwise_plain rfl rfl rfl rfl rfl rfl rfl id (.inl rfl)

theorem stepwise_pulse (r : Bool) (s : State) : Stepwise r pulseMoments s := by
  refine stepwise_each (fun f hf t => ?_) s
  simp only [List.mem_cons, List.not_mem_nil, or_false] at hf
  rcases hf with rfl | rfl | rfl | rfl
  · exact stepwise_plain rfl rfl rfl rfl rfl rfl rfl id (.inr ⟨_, rfl⟩)
  · exact stepwise_pinWrite r _ _ t
  · exact stepwise_plain rfl rfl rfl rfl rfl rfl rfl id (.inr ⟨_, rfl⟩)
  · exact stepwise_pinWrite r _ _ t

theorem stepwise_late (r : Bool) (s : State) : Stepwise r lateMoments s :=
  stepwise_of_eq (m' := followedBy (one fun t => { t with draws := (drawMosi t.draws).2 })
      (each (fun l => one (pinWrite .mosi l)) (drawMosi s.draws).1))
    (stepwise_followedBy (stepwise_plain rfl rfl rfl rfl rfl rfl rfl id (.inl rfl))
      (stepwise_each (fun l _ t => stepwise_pinWrite r .mosi l t) _)) (by rw [lateMoments])

theorem stepwise_frame (r : Bool) (c : Chan) (s : State) : Stepwise r (frameMoments c) s := by
  have at_ : ∀ n t, Stepwise r (one (atPulse n)) t := fun n t =>
    stepwise_plain rfl rfl rfl rfl rfl rfl rfl (by simp) (.inl rfl)
  have shift : ∀ t, Stepwise r (one shiftSample) t := fun t =>
    stepwise_plain rfl rfl rfl rfl rfl rfl rfl id (.inr ⟨_, rfl⟩)
  have close : ∀ t, Stepwise r (one closeFrame) t := fun t =>
    stepwise_plain rfl rfl rfl rfl rfl rfl rfl id (.inr ⟨_, rfl⟩)
  refine stepwise_followedBy (stepwise_each (fun f hf t => ?_) _) (stepwise_followedBy (stepwise_each (fun nb _ t => ?_) _)
    (stepwise_followedBy (stepwise_followedBy (at_ 6 _) (stepwise_followedBy (stepwise_late r _) (stepwise_pulse r _)))
      (stepwise_followedBy (stepwise_each (fun n _ t => stepwise_followedBy (at_ n _) (stepwise_followedBy (stepwise_late r _)
        (stepwise_followedBy (stepwise_pulse r _) (shift _)))) _) (close _))))
  · simp only [List.mem_cons, List.not_mem_nil, or_false] at hf
    rcases hf with rfl | rfl | rfl
    · exact stepwise_plain rfl rfl rfl rfl rfl rfl rfl id (.inr ⟨_, rfl⟩)
    · exact stepwise_plain rfl rfl rfl rfl rfl rfl rfl (by simp) (.inl rfl)
    · exact stepwise_plain rfl rfl rfl rfl rfl rfl rfl id (.inr ⟨_, rfl⟩)
  · refine stepwise_followedBy (stepwise_each (fun f hf t => ?_) _) (stepwise_pulse r _)
    simp only [List.mem_cons, List.not_mem_nil, or_false] at hf
    rcases hf with rfl | rfl
    · exact at_ _ t
    · exact stepwise_pinWrite r _ _ t

theorem stepwise_finish (r : Bool) (q : Response) (s : State) : Stepwise r (finishMoments q) s :=
  stepwise_followedBy (stepwise_emit r _ _) (stepwise_followedBy (stepwise_setPos r (by simp) _) (stepwise_nil r _))

theorem stepwise_pollStep (r : Bool) (k : Nat) (s : State) : Stepwise r (pollStepMoments k) s := by
  refine stepwise_of_eq (m' := followedBy (frameMoments (channelAt s.cfg k))
    (each one [setPos (.polling k), fun t => setTouch k (pollHyst k t).1 t])) ?_ (by rw [pollStepMoments])
  refine stepwise_followedBy (stepwise_frame r _ _) (stepwise_each (fun f hf t => ?_) _)
  simp only [List.mem_cons, List.not_mem_nil, or_false] at hf
  rcases hf with rfl | rfl
  · exact stepwise_setPos r (by simp) _
  · exact stepwise_plain rfl rfl rfl rfl rfl rfl rfl id (.inl rfl)

theorem stepwise_pass (r : Bool) (es : List ChannelEntry) (k : Nat) (s : State) : Stepwise r (passMoments es k) s := by
  induction es generalizing k s with
  | nil =>
    by_cases hr : s.running = true
    · exact stepwise_of_eq (stepwise_setPos (p := .passing 0) r (by simp) s) (by simp [passMoments, endPassMoments, hr, one])
    · exact stepwise_of_eq (stepwise_finish r ⟨statusOk, 0#32⟩ s) (by simp [passMoments, endPassMoments, hr])
  | cons e es ih =>
    refine stepwise_of_eq (stepwise_followedBy (stepwise_followedBy (stepwise_setPos (p := .passing k) r (by simp) s)
      (stepwise_pollStep r k _)) ?_) (by rw [passMoments])
    split
    · exact stepwise_followedBy (stepwise_setPos r (by simp) _) (stepwise_followedBy (stepwise_emit r _ _) (stepwise_nil r _))
    · exact ih _ _

theorem stepwise_passFrom (r : Bool) (k : Nat) (s : State) : Stepwise r (passFromMoments k) s :=
  stepwise_of_eq (stepwise_pass r (s.cfg.channels.drop k) k s) rfl

/-! ### Properties every primitive keeps -/

/-- A property that holds at every moment of a piece when it holds at its start. -/
def Keeps (P : State → Prop) (m : Moments) : Prop := ∀ s, P s → ∀ u ∈ m s, P u

theorem Keeps.ends {P : State → Prop} {m : Moments} (h : Keeps P m) {s : State} (hs : P s) : P (ends m s) := by
  rcases ends_mem m s with h' | h'
  · rw [h']
    exact hs
  · exact h s hs _ h'

theorem Keeps.at {P : State → Prop} {m : Moments} (h : Keeps P m) {s : State} (hs : P s) (j : Nat) : P (momentAt j m s) := by
  rcases momentAt_mem j m s with h' | h'
  · rw [h']
    exact hs
  · exact h s hs _ h'

theorem keeps_one {P : State → Prop} {f : State → State} (h : ∀ s, P s → P (f s)) : Keeps P (one f) :=
  fun s hs u hu => by
    obtain rfl := List.mem_singleton.1 hu
    exact h s hs

theorem keeps_followedBy {P : State → Prop} {f g : Moments} (hf : Keeps P f) (hg : Keeps P g) : Keeps P (followedBy f g) :=
  fun s hs u hu => by
    rcases List.mem_append.1 hu with hu | hu
    · exact hf s hs u hu
    · exact hg _ (hf.ends hs) u hu

theorem keeps_each {α : Type} {P : State → Prop} {f : α → Moments} {xs : List α} (h : ∀ x ∈ xs, Keeps P (f x)) :
    Keeps P (each f xs) := by
  induction xs with
  | nil => exact fun s _ u hu => absurd hu List.not_mem_nil
  | cons x xs ih => exact keeps_followedBy (h x (by simp)) (ih fun y hy => h y (by simp [hy]))

/-- What every primitive of a frame keeps: `P` does not look at the pins, the driver registers, the record, the count of
frames or the draws, and holds at each pulse. -/
theorem keeps_frame {P : State → Prop} (c : Chan)
    (h : ∀ (s t : State), t.running = s.running → t.cfg = s.cfg → t.st = s.st → (t.pc = s.pc ∨ ∃ n, t.pc = .reading n) →
      P s → P t) : Keeps P (frameMoments c) := by
  have same : ∀ f : State → State, (∀ s, (f s).running = s.running ∧ (f s).cfg = s.cfg ∧ (f s).st = s.st ∧
      ((f s).pc = s.pc ∨ ∃ n, (f s).pc = .reading n)) → Keeps P (one f) := fun f hf =>
    keeps_one fun s hs => h s (f s) (hf s).1 (hf s).2.1 (hf s).2.2.1 (hf s).2.2.2 hs
  have write : ∀ p l, Keeps P (one (pinWrite p l)) := fun p l => same _ fun s => by cases p <;> simp
  have pulse : Keeps P pulseMoments := keeps_each fun f hf => by
    simp only [List.mem_cons, List.not_mem_nil, or_false] at hf
    rcases hf with rfl | rfl | rfl | rfl
    · exact same _ fun s => by simp
    · exact write _ _
    · exact same _ fun s => by simp
    · exact write _ _
  have late : Keeps P lateMoments := fun s hs => by
    have : lateMoments s = followedBy (one fun t => { t with draws := (drawMosi t.draws).2 })
        (each (fun l => one (pinWrite .mosi l)) (drawMosi s.draws).1) s := by rw [lateMoments]
    rw [this]
    exact keeps_followedBy (same _ fun t => by simp) (keeps_each fun l _ => write .mosi l) s hs
  have pulseAt : ∀ n, Keeps P (one (atPulse n)) := fun n => same _ fun s => by simp
  refine keeps_followedBy (keeps_each fun f hf => ?_) (keeps_followedBy (keeps_each fun nb _ =>
    keeps_followedBy (keeps_each fun f hf => ?_) pulse) (keeps_followedBy (keeps_followedBy (pulseAt 6)
      (keeps_followedBy late pulse)) (keeps_followedBy (keeps_each fun n _ => keeps_followedBy (pulseAt n)
        (keeps_followedBy late (keeps_followedBy pulse (same _ fun s => by simp [shiftSample]))))
        (same _ fun s => by simp [closeFrame]))))
  · simp only [List.mem_cons, List.not_mem_nil, or_false] at hf
    rcases hf with rfl | rfl | rfl
    · exact same _ fun s => by simp
    · exact same _ fun s => by simp
    · exact same _ fun s => by simp
  · simp only [List.mem_cons, List.not_mem_nil, or_false] at hf
    rcases hf with rfl | rfl
    · exact pulseAt _
    · exact write _ _

/-- Inside a pass of RUN the block is running and not idle at every moment. -/
theorem pass_running (es : List ChannelEntry) : ∀ (k : Nat) (s : State), s.running = true → s.pc ≠ .idle →
    ∀ u ∈ passMoments es k s, u.running = true ∧ u.pc ≠ .idle := by
  have poll : ∀ k, Keeps (fun s => s.running = true ∧ s.pc ≠ .idle)
      (followedBy (one (setPos (.passing k))) (pollStepMoments k)) := fun k =>
    keeps_followedBy (keeps_one fun s hs => ⟨hs.1, by simp⟩) fun s hs => by
      have : pollStepMoments k s = followedBy (frameMoments (channelAt s.cfg k))
          (each one [setPos (.polling k), fun t => setTouch k (pollHyst k t).1 t]) s := by rw [pollStepMoments]
      rw [this]
      refine keeps_followedBy (keeps_frame _ ?_) (keeps_each ?_) s hs
      · rintro s t hr - - hp hs
        refine ⟨hr.trans hs.1, ?_⟩
        rcases hp with hp | ⟨n, hp⟩
        · rw [hp]
          exact hs.2
        · simp [hp]
      · intro f hf
        simp only [List.mem_cons, List.not_mem_nil, or_false] at hf
        rcases hf with rfl | rfl
        · exact keeps_one fun s hs => ⟨hs.1, by simp⟩
        · exact keeps_one fun s hs => by simpa using hs
  induction es with
  | nil =>
    intro k s hr hp u hu
    simp only [passMoments, endPassMoments, hr, if_true, List.mem_singleton] at hu
    subst hu
    exact ⟨hr, by simp⟩
  | cons e es ih =>
    intro k s hr hp u hu
    rw [passMoments] at hu
    rcases List.mem_append.1 hu with hu | hu
    · exact poll k s ⟨hr, hp⟩ u hu
    · obtain ⟨h1, h2⟩ := (poll k).ends ⟨hr, hp⟩
      split at hu
      · exact keeps_each (P := fun s => s.running = true ∧ s.pc ≠ .idle) (fun f hf => by
          simp only [List.mem_cons, List.not_mem_nil, or_false] at hf
          rcases hf with rfl | rfl
          · exact keeps_one fun s hs => ⟨hs.1, by simp⟩
          · exact keeps_one fun s hs => by simpa using hs) _ ⟨h1, h2⟩ u hu
      · exact ih _ _ h1 h2 u hu

/-! ### The moments of a construction -/

theorem ends_acquire (unavailable : List Int) (rs : List Role) (s : State) :
    ends (acquireMoments unavailable rs) s = acquirePins unavailable rs s := by
  induction rs generalizing s with
  | nil => rfl
  | cons r rs ih =>
    rw [acquirePins]
    cases ha : acquire unavailable (pinOf s.cfg r) s.platform with
    | none => simp [ends, acquireMoments, ha]
    | some x =>
      rw [ends_of_eq (m' := followedBy (one fun t => setHandle r x.1 { t with platform := x.2 })
        (acquireMoments unavailable rs)) (by simp [acquireMoments, ha]), ends_followedBy, ends_one, ih]

theorem ends_construct (cfg : Config) (unavailable : List Int) (s : State) :
    ends (constructMoments cfg unavailable) s = construct cfg unavailable s := by
  unfold constructMoments construct
  split
  · rw [ends_followedBy, ends_one, ends_acquire]
  · rfl

/-- A moment of the acquisition loop of a block with nothing recorded: its record is a beginning of the writes of reset. -/
theorem acquire_moment {unavailable : List Int} {rs : List Role} {s u : State} (ht : s.trace = [])
    (hu : u ∈ acquireMoments unavailable rs s) :
    u.cfg = s.cfg ∧ u.inputs = s.inputs ∧ ∃ later, u.trace ++ later = resetWrites s.cfg := by
  induction rs generalizing s with
  | nil =>
    simp only [acquireMoments, each, followedBy, one, ends, List.append_nil, List.cons_append, List.nil_append,
      List.getLastD_cons, List.getLastD_nil, List.mem_cons, List.not_mem_nil, or_false] at hu
    rcases hu with rfl | rfl | rfl
    · exact ⟨rfl, rfl, (resetWrites s.cfg).drop 1, by simp [ht, resetWrites]⟩
    · exact ⟨rfl, rfl, (resetWrites s.cfg).drop 2, by simp [ht, resetWrites, low]⟩
    · exact ⟨rfl, rfl, [], by simp [ht, resetWrites, low]⟩
  | cons r rs ih =>
    simp only [acquireMoments] at hu
    split at hu
    · obtain rfl := List.mem_singleton.1 hu
      exact ⟨rfl, rfl, resetWrites s.cfg, by simp [ht]⟩
    · rename_i h p _
      have e1 : (setHandle r h { s with platform := p }).cfg = s.cfg := by cases r <;> rfl
      have e2 : (setHandle r h { s with platform := p }).inputs = s.inputs := by cases r <;> rfl
      have e3 : (setHandle r h { s with platform := p }).trace = [] := by cases r <;> exact ht
      rcases List.mem_append.1 hu with hu | hu
      · obtain rfl := List.mem_singleton.1 hu
        exact ⟨e1, e2, resetWrites s.cfg, by rw [e3]; rfl⟩
      · obtain ⟨h1, h2, h3⟩ := ih e3 hu
        exact ⟨h1.trans e1, h2.trans e2, by rw [e1] at h3; exact h3⟩

/-- Where a construction cut short stands: at its start, with a refusal mark, or in a block built anew of which a beginning
of the writes of reset is recorded. -/
theorem construct_moment (j : Nat) (cfg : Config) (unavailable : List Int) (s : State) :
    let u := momentAt j (constructMoments cfg unavailable) s
    u = s ∨ u = refuse .illFormedConfiguration s ∨
      (u.cfg = cfg ∧ u.inputs = s.inputs ∧ ∃ later, u.trace ++ later = resetWrites cfg) := by
  rcases momentAt_mem j (constructMoments cfg unavailable) s with h | h
  · exact .inl h
  · refine .inr ?_
    generalize momentAt j (constructMoments cfg unavailable) s = u at h
    unfold constructMoments at h
    split at h
    · rcases List.mem_append.1 h with h | h
      · obtain rfl := List.mem_singleton.1 h
        exact .inr ⟨rfl, rfl, resetWrites cfg, rfl⟩
      · exact .inr (acquire_moment (s := blank cfg s) rfl h)
    · exact .inl (List.mem_singleton.1 h)

end Sys2Proof.Machine
end

