-- ==== Sys2Proof/Laws/Sample.lean ====
section
/-!
SUPPORT. The sample register as a number: shifting twelve bits in gives the sum of spec/30_encoding.md R85.
-/

namespace Sys2Proof.Machine

open Sys2Proof.Safety

theorem shiftIn_toNat (a : Sample) (d : Level) : (shiftIn a d).toNat = (2 * a.toNat + d.toNat) % 4096 := by
  have h1 : (2 * a.toNat) % 4096 = (a.toNat % 2048) <<< 1 := by rw [Nat.shiftLeft_eq]; omega
  have h2 : (shiftIn a d).toNat = (2 * a.toNat) % 4096 ||| d.toNat := by
    cases d <;> simp [shiftIn, BitVec.toNat_or, BitVec.toNat_shiftLeft, Nat.shiftLeft_eq, Nat.mul_comm]
  have h3 : d.toNat < 2 ^ 1 := by cases d <;> decide
  rw [h2, h1, ← Nat.shiftLeft_add_eq_or_of_lt h3, ← h1]
  have : d.toNat < 2 := h3
  omega

theorem weighted_lt (bits : List Level) : weighted bits < 2 ^ bits.length := by
  induction bits with
  | nil => simp [weighted]
  | cons b bits ih =>
    rw [weighted, List.length_cons, Nat.pow_succ]
    cases b <;> simp <;> omega

/-- Shifting in bits that fit beside what is there already discards nothing. -/
theorem foldl_shiftIn (bits : List Level) (a : Sample) (h : a.toNat * 2 ^ bits.length + weighted bits < 4096) :
    (bits.foldl shiftIn a).toNat = a.toNat * 2 ^ bits.length + weighted bits := by
  induction bits generalizing a with
  | nil => simp [weighted]
  | cons b bits ih =>
    have hp : 0 < 2 ^ bits.length := Nat.two_pow_pos _
    rw [weighted, List.length_cons, Nat.pow_succ] at h ⊢
    have key : a.toNat * (2 ^ bits.length * 2) + (b.toNat * 2 ^ bits.length + weighted bits) =
        (2 * a.toNat + b.toNat) * 2 ^ bits.length + weighted bits := by ring
    rw [key] at h ⊢
    have hs : (shiftIn a b).toNat = 2 * a.toNat + b.toNat := by
      rw [shiftIn_toNat]
      apply Nat.mod_eq_of_lt
      have := Nat.le_mul_of_pos_right (2 * a.toNat + b.toNat) hp
      omega
    rw [List.foldl_cons, ih _ (by rw [hs]; exact h), hs]

/-- The sample a frame leaves: the sum of its twelve bits, each at its place. -/
theorem sample_toNat (bits : List Level) (h : bits.length = 12) :
    (bits.foldl shiftIn 0#12).toNat = weighted bits := by
  have hw := weighted_lt bits
  rw [h] at hw
  have := foldl_shiftIn bits 0#12 (by simpa using hw)
  simpa using this

theorem FrameDraw.bits_length {f : FrameDraw} {s : State} (hf : f.Fits s) : f.bits.length = 12 := by
  simp [FrameDraw.bits, hf.data_length]

end Sys2Proof.Machine
end

