-- ==== Sys2Proof/Laws/Pass.lean ====
section
/-!
SUPPORT. What a poll and a pass record, said once: `pollStep_recorded` for one poll in the terms of its record alone, and
`passLoop_spec` for a pass up to its next waiting point.
-/

namespace Sys2Proof.Machine

open Sys2Proof.Safety

/-- The transmitted channel of a position of the table. -/
theorem channelAt_of {s : State} {k : Nat} {e : ChannelEntry} (h : s.cfg.channels[k]? = some e) :
    channelAt s.cfg k = BitVec.ofInt 3 e.ch := by
  simp [channelAt, h, chanBits]

theorem take_samples {f : FrameDraw} {s : State} (hf : f.Fits s) (cfg : Config) (c : Chan) (es : List Event) :
    frameSample (f.record cfg c ++ es) 0 = weighted f.bits := by
  have hb := FrameDraw.bits_length hf
  simp only [frameSample, samples_append, samples_record, Nat.mul_zero, List.drop_zero]
  rw [List.take_append_of_le_length (by omega), List.take_of_length_le (by omega)]

/-- One poll, by its record `r`: one frame of the position's own channel, the hysteresis function on its sample, and nothing
else. -/
theorem pollStep_recorded {s : State} {k : Nat} {e : ChannelEntry} (he : s.cfg.channels[k]? = some e)
    (hl : s.st.length = s.cfg.channels.length) :
    ∃ u r, pollStep k (setPos (.passing k) s) = ((hyst s.cfg (touchAt s k) (frameSample r 0)).2, u) ∧
      u.trace = s.trace ++ r ∧ Kept s u ∧ u.frames = s.frames + 1 ∧ u.st.length = s.st.length ∧
      (samples r).length = 12 ∧ presses r = [] ∧ responses r = [] ∧
      (∀ es, frameSample (r ++ es) 0 = frameSample r 0) ∧
      (∃ late, mosiAtRise s.mosi r = commandLevels (BitVec.ofInt 3 e.ch) ++ late ∧ late.length = 13) ∧
      u.mosi = lastLevel s.mosi (writesOf .mosi r) ∧
      touchAt u k = (hyst s.cfg (touchAt s k) (frameSample r 0)).1 ∧ ∀ j, j ≠ k → touchAt u j = touchAt s j := by
  obtain ⟨hk, _⟩ := List.getElem?_eq_some_iff.1 he
  obtain ⟨f, hf, h⟩ := pollStep_spec k (setPos (.passing k) s)
  have hf := FrameDraw.fits_setPos.1 hf
  obtain ⟨late, hr, hr'⟩ := mosiAtRise_record s.mosi f s.cfg (BitVec.ofInt 3 e.ch) hf.cmd_length hf.data_length
  have hb := FrameDraw.bits_length hf
  have hch := channelAt_of he
  have h0 : frameSample (f.record s.cfg (BitVec.ofInt 3 e.ch)) 0 = weighted f.bits := by
    simpa using take_samples hf s.cfg (BitVec.ofInt 3 e.ch) []
  have ht : touchAt (f.afterPoll k (setPos (.passing k) s)) k =
      (hyst s.cfg (touchAt s k) (f.bits.foldl shiftIn 0#12).toNat).1 := touchAt_set_self (s := s) (by omega) _
  refine ⟨f.afterPoll k (setPos (.passing k) s), f.record s.cfg (BitVec.ofInt 3 e.ch), ?_, ?_, ?_, ?_, ?_, ?_, ?_, ?_, ?_,
    ⟨late, hr, hr'⟩, ?_, ?_, fun j hj => touchAt_set_ne (s := s) (Ne.symm hj) _⟩
  · rw [h, h0, ← sample_toNat f.bits hb]
    rfl
  · simp [FrameDraw.afterPoll, FrameDraw.after, hch]
  · simp [FrameDraw.afterPoll, FrameDraw.after, Kept]
  · simp [FrameDraw.afterPoll, FrameDraw.after]
  · simp [FrameDraw.afterPoll, FrameDraw.after]
  · rw [samples_record, hb]
  · exact presses_record _ _ _
  · exact responses_record _ _ _
  · intro es
    rw [h0, take_samples hf]
  · simp [FrameDraw.afterPoll, FrameDraw.after, FrameDraw.record, writesOf, hf.cmd_length, commandLevels, FrameDraw.mosi,
      hch, lastLevel, List.foldl_append, List.foldl_flatten, List.foldl_map]
  · rw [ht, h0, sample_toNat f.bits hb]

/-- A pass over the entries left, the first of them at position `k`: what it goes through, and how it stops. -/
theorem passLoop_spec : ∀ (es : List ChannelEntry) (k : Nat) (s : State), s.cfg.channels.drop k = es →
    k ≤ s.cfg.channels.length → s.st.length = s.cfg.channels.length →
      ∃ r m, PassGoes k s (passLoop es k s) r m ∧
        ((PassEnds k s r m ∧
            ((s.running = true ∧ responses r = [] ∧ (passLoop es k s).pc = .passing 0) ∨
              (s.running = false ∧ responses r = [⟨0x00#8, 0#32⟩] ∧ r.getLast? = some (.response ⟨0x00#8, 0#32⟩) ∧
                (passLoop es k s).pc = .idle))) ∨
          PassWaits k s (passLoop es k s) r m) := by
  intro es
  induction es with
  | nil =>
    intro k s hd hk hl
    have hkl : k = s.cfg.channels.length := by
      have := congrArg List.length hd
      simp at this
      omega
    cases hr : s.running with
    | true =>
      refine ⟨[], 0, ?_, .inl ⟨⟨by omega, by omega, rfl⟩, .inl ⟨rfl, rfl, by simp [passLoop, endPass, hr]⟩⟩⟩
      simp only [passLoop, endPass, hr, if_true]
      exact ⟨by simp, by simp [Kept], hk, rfl, rfl, rfl, by omega, by omega, fun _ _ => rfl, rfl, by omega⟩
    | false =>
      refine ⟨[.response ⟨statusOk, 0#32⟩], 0, ?_,
        .inl ⟨⟨by omega, by omega, rfl⟩, .inr ⟨rfl, rfl, rfl, by simp [passLoop, endPass, hr, finish]⟩⟩⟩
      simp only [passLoop, endPass, hr]
      exact ⟨by simp, by simp [Kept], hk, rfl, rfl, rfl, by omega, by omega, fun _ _ => rfl, rfl, by omega⟩
  | cons e es ih =>
    intro k s hd hk hl
    have he : s.cfg.channels[k]? = some e := by
      have := congrArg (·[0]?) hd
      simpa using this
    obtain ⟨hk1, _⟩ := List.getElem?_eq_some_iff.1 he
    obtain ⟨u, rec, h, ut, uk, ufr, ul, s0, p0, r0, fs, ⟨late, hr, hr'⟩, um, ut1, ut2⟩ := pollStep_recorded he hl
    have ucfg : u.cfg = s.cfg := uk.1
    have hpl : passLoop (e :: es) k s =
        if (hyst s.cfg (touchAt s k) (frameSample rec 0)).2 = true then dispatch k e.label u
        else passLoop es (k + 1) u := by
      simp only [passLoop, h]
    have at0 : ∀ xs, polledAs k s (rec ++ xs) 0 = hyst s.cfg (touchAt s k) (frameSample rec 0) := fun xs => by
      simp only [polledAs, fs]
      rfl
    cases hpp : (hyst s.cfg (touchAt s k) (frameSample rec 0)).2 with
    | true =>
      rw [hpl, if_pos hpp]
      refine ⟨rec ++ [.press (BitVec.ofNat 32 k) e.label], 1, ?_,
        .inr ⟨0, e, rfl, ?_, he, rfl, ?_, ?_, ?_⟩⟩
      · refine ⟨?_, ?_, by omega, ?_, ?_, ?_, ?_, ?_, ?_, ?_, ?_⟩
        · simp [ut]
        · simpa [Kept] using uk
        · simpa using ufr
        · simp [s0, samples]
        · simp [mosiAtRise_append, hr, hr', mosiAtRise, commandLevels]
        · intro j hj e' he'
          obtain rfl : j = 0 := by omega
          obtain rfl : e = e' := by simpa [he] using he'
          simp [frameCommand, mosiAtRise_append, hr, commandLevels]
        · intro j hj
          obtain rfl : j = 0 := by omega
          rw [at0]
          exact ut1
        · intro i hi
          exact ut2 i (by omega)
        · simpa using ul
        · intro j hj
          omega
      · rw [at0, hpp]
      · simp [p0, presses]
      · simp
      · simp [r0, responses]
    | false =>
      obtain ⟨r, m, g, h3⟩ := ih (k + 1) u (by rw [ucfg, ← List.drop_drop, hd]; rfl) (by rw [ucfg]; omega)
        (by rw [ul, ucfg, hl])
      rw [hpl, hpp, if_neg (by simp)]
      generalize passLoop es (k + 1) u = t at g h3 ⊢
      have pa : ∀ j, polledAs k s (rec ++ r) (j + 1) = polledAs (k + 1) u r j := by
        intro j
        have hs : frameSample (rec ++ r) (j + 1) = frameSample r j := by
          simp only [frameSample, samples_append]
          rw [List.drop_append, List.drop_of_length_le (by omega), s0, List.nil_append,
            show 12 * (j + 1) - 12 = 12 * j by omega]
        have ht : touchAt u (k + 1 + j) = touchAt s (k + 1 + j) := ut2 _ (by omega)
        simp only [polledAs, hs, ucfg, ht, show k + (j + 1) = k + 1 + j by omega]
      have q0 : (polledAs k s (rec ++ r) 0).2 = false := by rw [at0, hpp]
      refine ⟨rec ++ r, m + 1, ?_, ?_⟩
      · refine ⟨?_, ?_, ?_, ?_, ?_, ?_, ?_, ?_, ?_, ?_, ?_⟩
        · rw [g.trace, ut, List.append_assoc]
        · have := g.kept
          simp only [Kept] at *
          simp_all
        · have := g.bound
          rw [ucfg] at this
          omega
        · rw [g.frames, ufr]
          omega
        · simp [s0, g.sampled]
          omega
        · have := g.pulsed
          rw [um] at this
          simp [mosiAtRise_append, hr, this, hr', commandLevels]
          omega
        · intro j hj e' he'
          rcases j with _ | j
          · obtain rfl : e = e' := by simpa [he] using he'
            simp [frameCommand, mosiAtRise_append, hr, commandLevels]
          · have := g.own j (by omega) e' (by rw [ucfg, show k + 1 + j = k + (j + 1) by omega]; exact he')
            rw [← this, um]
            simp only [frameCommand, mosiAtRise_append]
            have l18 : (mosiAtRise s.mosi rec).length = 18 := by
              rw [hr]
              simp [hr', commandLevels]
            rw [List.drop_append, List.drop_of_length_le (by omega), l18]
            simp
            congr 2
        · intro j hj
          rcases j with _ | j
          · rw [at0, Nat.add_zero, g.others k (by omega)]
            exact ut1
          · rw [pa, ← g.polled j (by omega), show k + 1 + j = k + (j + 1) by omega]
        · intro i hi
          rw [g.others i (by omega), ut2 i (by omega)]
        · rw [g.length, ul]
        · intro j hj
          rcases j with _ | j
          · exact q0
          · rw [pa]
            exact g.quiet j (by omega)
      · rcases h3 with ⟨⟨e1, e2, e3⟩, h4⟩ | ⟨j, e', w1, w2, w3, w4, w5, w6, w7⟩
        · left
          refine ⟨⟨by rw [ucfg] at e1; omega, ?_, by simp [p0, e3]⟩, ?_⟩
          · intro j hj
            rcases j with _ | j
            · exact q0
            · rw [pa]
              exact e2 j (by omega)
          · rw [uk.2.2.1] at h4
            rcases h4 with ⟨a, b, c⟩ | ⟨a, b, c, d⟩
            · exact .inl ⟨a, by simp [r0, b], c⟩
            · exact .inr ⟨a, by simp [r0, b], by rw [List.getLast?_append, c]; rfl, d⟩
        · right
          rw [show k + 1 + j = k + (j + 1) by omega] at w3 w4 w5 w6
          refine ⟨j + 1, e', by omega, by rw [pa]; exact w2, by rw [← ucfg]; exact w3, w4, ?_, ?_, by simp [r0, w7]⟩
          · rw [presses_append, p0, w5]
            rfl
          · rw [List.getLast?_append, w6]
            rfl

end Sys2Proof.Machine
end

