-- ==== Sys2Proof/Laws/Reset.lean ====
section
/-!
SUPPORT. What a construction can do, said once (`construct_cases`), and the platform's acquisition of a line.
-/

namespace Sys2Proof.Machine

/-- Whether the platform can give the line of a pin: it holds it already, or it can provide it. -/
def Available (unavailable : List Int) (p : Platform) (pin : Int) : Prop :=
  (p.held.lookup pin).isSome ∨ pin ∉ unavailable

theorem acquire_isSome {unavailable : List Int} {pin : Int} {p : Platform} :
    (acquire unavailable pin p).isSome ↔ Available unavailable p pin := by
  unfold acquire Available
  split
  · simp [*]
  · rename_i h
    by_cases hm : pin ∈ unavailable <;> simp [h, hm]

/-- An acquisition leaves every line the platform held as it was. -/
theorem acquire_lookup {unavailable : List Int} {pin pin' : Int} {p p' : Platform} {h : Nat}
    (ha : acquire unavailable pin p = some (h, p')) (hne : pin' ≠ pin) :
    p'.held.lookup pin' = p.held.lookup pin' := by
  unfold acquire at ha
  split at ha
  · simp only [Option.some.injEq, Prod.mk.injEq] at ha
    rw [ha.2]
  · split at ha
    · cases ha
    · simp only [Option.some.injEq, Prod.mk.injEq] at ha
      rw [← ha.2]
      induction p.held with
      | nil => simp [List.lookup, beq_eq_false_iff_ne.2 hne]
      | cons x xs ih =>
        obtain ⟨a, b⟩ := x
        simp only [List.cons_append, List.lookup]
        split <;> simp_all

/-- The handle of a role. -/
def handleOf (h : Handles) : Role → Option Nat
  | .cs => h.cs
  | .clk => h.clk
  | .mosi => h.mosi
  | .miso => h.miso

theorem handleOf_setHandle (r q : Role) (h : Nat) (s : State) :
    handleOf (setHandle r h s).handles q = if q = r then some h else handleOf s.handles q := by
  cases r <;> cases q <;> rfl

/-- The state in which the acquisition loop stops: everything but the handles, the platform, and at a failure the fault and
the position, is as it was; where it does not fail, every role of the loop has its handle. -/
theorem acquirePins_cases (unavailable : List Int) (rs : List Role) (s : State) :
    ∃ hs p, (acquirePins unavailable rs s = idlePins { s with handles := hs, platform := p } ∧
        ∀ q, q ∈ rs ∨ (handleOf s.handles q).isSome → (handleOf hs q).isSome) ∨
      ∃ r ∈ rs, acquirePins unavailable rs s = { s with
        handles := hs, platform := p, fault := some (.pinAcquisitionFailure (pinOf s.cfg r)), pc := .failed } := by
  induction rs generalizing s with
  | nil => exact ⟨s.handles, s.platform, .inl ⟨rfl, by simp⟩⟩
  | cons r rs ih =>
    rw [acquirePins]
    split
    · exact ⟨s.handles, s.platform, .inr ⟨r, List.mem_cons_self, rfl⟩⟩
    · rename_i h p _
      obtain ⟨hs, p', hc⟩ := ih (setHandle r h { s with platform := p })
      refine ⟨hs, p', ?_⟩
      rcases hc with ⟨hc, hh⟩ | ⟨r', hr', hc⟩
      · refine .inl ⟨by rw [hc]; cases r <;> rfl, fun q hq => hh q ?_⟩
        rw [handleOf_setHandle]
        by_cases hqr : q = r
        · exact .inr (by simp [hqr])
        · simpa [hqr] using hq
      · exact .inr ⟨r', List.mem_cons_of_mem _ hr', by rw [hc]; cases r <;> rfl⟩

/-- Everything a construction can do. -/
theorem construct_cases (cfg : Config) (unavailable : List Int) (s : State) :
    (configWf cfg = false ∧ construct cfg unavailable s = refuse .illFormedConfiguration s) ∨
    (configWf cfg = true ∧ ∃ hs p,
      (construct cfg unavailable s = idlePins { blank cfg s with handles := hs, platform := p } ∧
        ∀ q, (handleOf hs q).isSome) ∨
      ∃ r, construct cfg unavailable s = { blank cfg s with
        handles := hs, platform := p, fault := some (.pinAcquisitionFailure (pinOf cfg r)), pc := .failed }) := by
  unfold construct
  cases hwf : configWf cfg
  · exact .inl ⟨rfl, rfl⟩
  · obtain ⟨hs, p, h⟩ := acquirePins_cases unavailable acquisitionOrder (blank cfg s)
    refine .inr ⟨rfl, hs, p, ?_⟩
    rcases h with ⟨h, hh⟩ | ⟨r, _, h⟩
    · exact .inl ⟨h, fun q => hh q (.inl (by cases q <;> decide))⟩
    · exact .inr ⟨r, h⟩

/-- `State.reset` is the construction with `Config.default` on a platform that holds no line. -/
theorem construct_default (s : State) (hi : s.inputs = []) (hd : s.draws = ⟨[], [], [], 0⟩) (hp : s.platform = ⟨[], 0⟩) :
    construct Config.default [] s = State.reset := by
  obtain ⟨_, _, _, _, _, _, _, _, _, _, _, _, _, _, _, _, _, _⟩ := s
  simp only at hi hd hp
  subst hi hd hp
  rfl

end Sys2Proof.Machine
end

