-- ==== Sys2Proof/Laws/Step.lean ====
section
/-!
SUPPORT. What a step can do, said once: `step_cases` lists every way it answers a next state, `stepwise_work` what lies inside
a turn.
-/

namespace Sys2Proof.Machine

open Sys2Proof.Safety

theorem gate_next {act : State → Host.Outcome State Fault Refusal} {s t : State} (h : gate act s = .next t) :
    s.stopped = false ∧ s.pc ≠ .failed ∧ s.refused = none ∧ act s = .next t := by
  unfold gate at h
  by_cases h1 : s.stopped = true
  · simp [h1] at h
  by_cases h2 : s.pc = .failed
  · simp [h1, h2] at h
  rw [if_neg h1, if_neg h2] at h
  split at h
  · cases h
  · exact ⟨by simpa using h1, h2, ‹_›, h⟩

theorem advance_next {s t : State} (h : advance s = .next t) :
    ((s.pc = .idle ∨ ∃ k, s.pc = .dispatching k) ∧ t = s) ∨ ∃ k, s.pc = .passing k ∧ t = passFrom k s := by
  unfold advance at h
  split at h
  · exact .inl ⟨.inl ‹_›, by simpa using h.symm⟩
  · exact .inl ⟨.inr ⟨_, ‹_›⟩, by simpa using h.symm⟩
  · exact .inr ⟨_, ‹_›, by simpa using h.symm⟩
  all_goals cases h

theorem takeCode_next {c : Code} {s t : State} (h : takeCode c s = .next t) :
    (∃ r, t = refuse r s) ∨ (s.pc = .idle ∧ s.running = false ∧ ∃ i, decode c = .ok i ∧ exec i s = .next t) := by
  unfold takeCode at h
  split at h
  · rename_i hidle
    split at h
    · exact .inr ⟨hidle.1, hidle.2, _, ‹_›, h⟩
    · exact .inl ⟨_, by simpa using h.symm⟩
  · exact .inl ⟨_, by simpa using h.symm⟩

theorem takeCompletion_next {s t : State} (h : takeCompletion s = .next t) :
    (∃ r, t = refuse r s) ∨ ∃ k, s.pc = .dispatching k ∧ t = completeDispatch k s := by
  unfold takeCompletion at h
  split at h
  · exact .inr ⟨_, ‹_›, by simpa using h.symm⟩
  · exact .inl ⟨_, by simpa using h.symm⟩

/-- A turn cut short, whatever the block's state or only when it may take a step, answers the state it had reached, ended as
asked. -/
theorem cutTurn_next {w : Work} {j : Nat} {e : Ending} {s t : State}
    (h : (if hostActs w e then cutTurn w j e s else gate (cutTurn w j e) s) = .next t) : cutTurn w j e s = .next t := by
  split at h
  · exact h
  · exact (gate_next h).2.2.2

/-- Every way a step answers a next state: a construction; a stop, or a turn cut short; a refusal mark set; the block waiting;
a pass going on; a completed press event; or the instruction a request decodes to, run from the state with the slot read. -/
theorem step_cases {s t : State} (h : step s = .next t) :
    (∃ cfg u, nextMove s = some (.construct cfg u) ∧ t = construct cfg u (afterSlot s)) ∨
    (nextMove s = some .stop ∧ t = halt (afterSlot s)) ∨
    (∃ w j e, nextMove s = some (.during w j e) ∧ t = endWith e (momentAt j (workMoments w) (afterSlot s))) ∨
    (endsTheBlock (nextMove s) = false ∧ s.stopped = false ∧ s.pc ≠ .failed ∧ s.refused = none ∧
      ((∃ r, t = refuse r (afterSlot s)) ∨
       (nextMove s = none ∧ (s.pc = .idle ∨ ∃ k, s.pc = .dispatching k) ∧ t = afterSlot s) ∨
       (nextMove s = none ∧ ∃ k, s.pc = .passing k ∧ t = passFrom k (afterSlot s)) ∨
       (nextMove s = some .complete ∧ ∃ k, s.pc = .dispatching k ∧ t = completeDispatch k (afterSlot s)) ∨
       (s.pc = .idle ∧ s.running = false ∧ ∃ c i, nextMove s = some (.issue c) ∧ decode c = .ok i ∧
         exec i (afterSlot s) = .next t))) := by
  unfold step turn at h
  rcases hm : nextMove s with _ | m
  · rw [hm] at h
    obtain ⟨h0, h1, h2, h⟩ := gate_next h
    refine .inr (.inr (.inr ⟨rfl, h0, h1, h2, ?_⟩))
    rcases advance_next h with ⟨h3, h4⟩ | ⟨k, h3, h4⟩
    · exact .inr (.inl ⟨rfl, h3, h4⟩)
    · exact .inr (.inr (.inl ⟨rfl, k, h3, h4⟩))
  · rw [hm] at h
    cases m with
    | construct cfg u => exact .inl ⟨cfg, u, rfl, by simpa using h.symm⟩
    | stop => exact .inr (.inl ⟨rfl, by simpa using h.symm⟩)
    | during w j e => exact .inr (.inr (.inl ⟨w, j, e, rfl, by simpa [cutTurn] using (cutTurn_next h).symm⟩))
    | issue c =>
      obtain ⟨h0, h1, h2, h⟩ := gate_next h
      refine .inr (.inr (.inr ⟨rfl, h0, h1, h2, ?_⟩))
      rcases takeCode_next h with h3 | ⟨h3, h4, i, h5, h6⟩
      · exact .inl h3
      · exact .inr (.inr (.inr (.inr ⟨h3, h4, c, i, rfl, h5, h6⟩)))
    | complete =>
      obtain ⟨h0, h1, h2, h⟩ := gate_next h
      refine .inr (.inr (.inr ⟨rfl, h0, h1, h2, ?_⟩))
      rcases takeCompletion_next h with h3 | ⟨k, h3, h4⟩
      · exact .inl h3
      · exact .inr (.inr (.inr (.inl ⟨rfl, k, h3, h4⟩)))
    | drive p l =>
      obtain ⟨h0, h1, h2, h⟩ := gate_next h
      exact .inr (.inr (.inr ⟨rfl, h0, h1, h2, .inl ⟨_, by simpa using h.symm⟩⟩))

/-- A turn cut short builds nothing anew exactly when neither the turn nor its end is a construction. -/
theorem buildsAnew_during {w : Work} {j : Nat} {e : Ending} :
    buildsAnew (some (.during w j e)) = false ↔
      (∀ cfg u, e ≠ .construct cfg u) ∧ ∀ cfg u, w ≠ .constructing cfg u := by
  cases w <;> cases e <;> simp [buildsAnew]

/-- A pin write inside a turn that is no construction goes through `gate`. -/
theorem hostActs_drive {w : Work} (hw : ∀ cfg u, w ≠ .constructing cfg u) (p : OutPin) (l : Level) :
    hostActs w (.drive p l) = false := by
  cases w <;> first | rfl | exact absurd rfl (hw _ _)

/-- Where no construction ends it, a turn cut short keeps everything but the pins, the refusal mark, the stop and the draws
of the moment it had reached. -/
theorem endWith_keeps {e : Ending} (he : ∀ cfg u, e ≠ .construct cfg u) (s : State) :
    (endWith e s).cfg = s.cfg ∧ (endWith e s).handles = s.handles ∧ (endWith e s).fault = s.fault ∧
      (endWith e s).platform = s.platform ∧ (endWith e s).running = s.running ∧ (endWith e s).pc = s.pc ∧
      (endWith e s).st = s.st ∧ (endWith e s).trace = s.trace ∧ (endWith e s).frames = s.frames ∧
      (endWith e s).inputs = s.inputs := by
  cases e with
  | construct cfg u => exact absurd rfl (he cfg u)
  | stop => simp [endWith]
  | drive p l => simp [endWith]

/-! ### One primitive at a time -/

/-- The moments of an operation: only RUN sets `running`. -/
theorem stepwise_exec (i : Instr) (s : State) : Stepwise (decide (i = .run)) (execMoments i) s := by
  generalize hr : decide (i = .run) = r
  cases i with
  | readChannel ch =>
    rw [execMoments]
    by_cases hv : channelValid ch = true
    · refine stepwise_of_eq (stepwise_followedBy (stepwise_frame r (chanBits ch) s)
        (g := fun t => finishMoments ⟨statusOk, sampleValue t.acc⟩ t) ?_) (by rw [readChannelMoments, if_pos hv])
      exact stepwise_of_eq (stepwise_finish r ⟨statusOk, sampleValue (ends (frameMoments (chanBits ch)) s).acc⟩ _) rfl
    · exact stepwise_of_eq (stepwise_finish r _ s) (by rw [readChannelMoments, if_neg hv])
  | poll k =>
    rw [execMoments]
    by_cases hk : s.cfg.channels.length ≤ k
    · exact stepwise_of_eq (stepwise_refuse r .pollPositionOutOfRange s) (by rw [pollMoments, if_pos hk, one])
    · exact stepwise_of_eq (stepwise_followedBy (stepwise_pollStep r k s)
        (stepwise_finish r ⟨statusOk, pressValue (pollStep k s).1⟩ _)) (by rw [pollMoments, if_neg hk])
  | pollPass => exact stepwise_passFrom r 0 s
  | run =>
    obtain rfl : true = r := by simpa using hr
    exact stepwise_followedBy (stepwise_one ⟨rfl, rfl, rfl, rfl, rfl, rfl, id, .inr ⟨rfl, rfl⟩, [], by simp⟩ (.inl rfl))
      (stepwise_passFrom true 0 _)
  | spiFrameRead c =>
    rw [execMoments]
    exact stepwise_followedBy (stepwise_frame r c s) (stepwise_setPos r (by simp) _)

/-- The turn serves a RUN. -/
def servesRun : Work → Bool
  | .serving c => decide (decode c = .ok .run)
  | _ => false

/-- The moments of any turn but a construction: only a RUN that is taken sets `running`. -/
theorem stepwise_work (w : Work) (s : State) (hw : ∀ cfg u, w ≠ .constructing cfg u) :
    Stepwise (servesRun w && mayStep s && !s.running) (workMoments w) s := by
  generalize hr : (servesRun w && mayStep s && !s.running) = r
  by_cases hm : mayStep s = true
  · cases w with
    | constructing cfg u => exact absurd rfl (hw cfg u)
    | waiting =>
      refine stepwise_of_eq (m' := advanceMoments) ?_ (by simp [workMoments, hm])
      by_cases hp : ∃ k, s.pc = .passing k
      · obtain ⟨k, hp⟩ := hp
        exact stepwise_of_eq (stepwise_passFrom r k s) (by simp [advanceMoments, hp])
      · refine stepwise_of_eq (stepwise_nil r s) ?_
        unfold advanceMoments
        split
        · exact absurd ⟨_, ‹_›⟩ hp
        · rfl
    | serving c =>
      refine stepwise_of_eq (m' := codeMoments c) ?_ (by simp [workMoments, hm])
      by_cases hi : s.pc = .idle ∧ s.running = false
      · cases hd : decode c with
        | ok i =>
          obtain rfl : decide (i = .run) = r := by simpa [servesRun, hd, hm, hi.2] using hr
          exact stepwise_of_eq (stepwise_exec i s) (by simp [codeMoments, hi, hd])
        | error q => exact stepwise_of_eq (stepwise_refuse r q s) (by simp [codeMoments, hi, hd, one])
      · exact stepwise_of_eq (stepwise_refuse r .requestWhileBusy s) (by rw [codeMoments, if_neg hi, one])
    | completing =>
      refine stepwise_of_eq (m' := completionMoments) ?_ (by simp [workMoments, hm])
      by_cases hp : ∃ k, s.pc = .dispatching k
      · obtain ⟨k, hp⟩ := hp
        exact stepwise_of_eq (stepwise_followedBy (stepwise_emit r .completed s) (stepwise_passFrom r (k + 1) _))
          (by simp [completionMoments, hp])
      · refine stepwise_of_eq (stepwise_refuse r .completionWithoutEvent s) ?_
        unfold completionMoments
        split
        · exact absurd ⟨_, ‹_›⟩ hp
        · rfl
  · refine stepwise_of_eq (stepwise_nil r s) ?_
    cases w with
    | constructing cfg u => exact absurd rfl (hw cfg u)
    | waiting => simp [workMoments, hm]
    | serving c => simp [workMoments, hm]
    | completing => simp [workMoments, hm]

end Sys2Proof.Machine
end

