-- ==== Sys2Proof/Tests/Slice0.lean ====
section
/-!
SUPPORT. Tests, each from a vector or a rule of spec/: the checks of `Instr.wellFormed`, words written out bit by bit, one step
an operation; and, for each statement with hypotheses, a witness that meets them together.
-/

namespace Sys2Proof.Tests

open Sys2Proof.Machine Sys2Proof.Safety

/-! ### Helpers -/

/-- The twelve MISO bits of a sample, first bit first (the notation of spec/95_test_vectors.md). -/
def misoOf (v : Nat) : List Level := (List.range' 0 12).map fun i => (BitVec.ofNat 12 v).getLsbD (11 - i)

/-- The reset state with the channel table `chs`, and a converter that will give the samples `vs`; MOSI is not written after
pulse 5 and every wait lasts its minimum. -/
def withSamples (chs : List ChannelEntry) (vs : List Nat) : State :=
  { State.reset with
    cfg := { Config.default with channels := chs }
    st := List.replicate chs.length .released
    draws := ⟨(vs.map misoOf).flatten, List.replicate (13 * vs.length) [], List.replicate (37 * vs.length) 0, 0⟩ }

/-- What holds of the next state; false of a fault and of a refusal. -/
def onNext (p : State → Bool) : Host.Outcome State Fault Refusal → Bool
  | .next t => p t
  | .fault _ => false
  | .refused _ => false

/-- The record without the three writes of reset. -/
def recorded (t : State) : List Event := t.trace.drop 3

/-- The decoder's answer as plain data. -/
def decoded (c : Code) : Option Instr ⊕ Reason :=
  match decode c with
  | .ok i => .inl (some i)
  | .error r => .inr r

/-! ### Ill-formed terms are refused (spec/30_encoding.md R88) -/

theorem test_channel_above_32_bits_is_ill_formed : (Instr.readChannel 2147483648).wellFormed = false := by decide
theorem test_channel_below_32_bits_is_ill_formed : (Instr.readChannel (-2147483649)).wellFormed = false := by decide
theorem test_position_above_32_bits_is_ill_formed : (Instr.poll 4294967296).wellFormed = false := by decide

/-! ### Words written out from the encodings (spec/30_encoding.md R82, R88, R93; vectors V-D1 to V-D6, V-R11, V-R12) -/

theorem test_decode_read :
    decoded (.request 0b0000000100000000000000000000000000000101#40) = .inl (some (.readChannel 5)) := by decide
theorem test_decode_read_negative :
    decoded (.request 0b0000000111111111111111111111111111111001#40) = .inl (some (.readChannel (-7))) := by decide
theorem test_decode_read_extremes :
    decoded (.request 0x017FFFFFFF#40) = .inl (some (.readChannel 2147483647)) ∧
    decoded (.request 0x0180000000#40) = .inl (some (.readChannel (-2147483648))) := by decide
theorem test_decode_poll :
    decoded (.request 0b0000001000000000000000000000000000000010#40) = .inl (some (.poll 2)) := by decide
theorem test_decode_poll_all_ones : decoded (.request 0x02FFFFFFFF#40) = .inl (some (.poll 4294967295)) := by decide
theorem test_decode_pass :
    decoded (.request 0b0000001100000000000000000000000000000000#40) = .inl (some .pollPass) := by decide
theorem test_decode_run :
    decoded (.request 0b0000010000000000000000000000000000000000#40) = .inl (some .run) := by decide
theorem test_decode_frame : decoded (.frame 0b11101#5) = .inl (some (.spiFrameRead 0b101#3)) := by decide
theorem test_decode_reserved :
    decoded (.request 0x0000000000#40) = .inr .reservedOpcode ∧ decoded (.request 0x0500000000#40) = .inr .reservedOpcode ∧
    decoded (.request 0xFF00000005#40) = .inr .reservedOpcode ∧ decoded (.request 0x0400000002#40) = .inr .nonZeroOperand ∧
    decoded (.request 0x0300000001#40) = .inr .nonZeroOperand ∧ decoded (.frame 0b01101#5) = .inr .frameNeverEmitted ∧
    decoded (.frame 0b10101#5) = .inr .frameNeverEmitted := by decide
theorem test_table_words :
    decodeTableWord 40 0x0100000000 = some (.readChannel 0) ∧ decodeTableWord 40 0x0200000000 = some (.poll 0) ∧
    decodeTableWord 40 0x0300000000 = some .pollPass ∧ decodeTableWord 40 0x0400000000 = some .run ∧
    decodeTableWord 8 0b11000 = some (.spiFrameRead 0#3) := by decide

/-! ### One step an operation -/

/-- spec/40_adc_driver.md R100, example; spec/95_test_vectors.md V-R6, V-R19, V-R21 and program 1. -/
theorem test_read_five : onNext (fun t =>
    responses (recorded t) = [⟨0x00#8, 2000#32⟩] ∧ (mosiAtRise false (recorded t)).take 5 = [true, true, true, false, true] ∧
    (pinEvents (recorded t)).length = 91 ∧ risingEdges false (writesOf .clk (recorded t)) = 18 ∧ t.mosi = true ∧
    t.cs = true ∧ t.clk = false ∧ t.pc = .idle) (exec (.readChannel 5) (withSamples [] [2000])) = true := by
  decide +kernel

/-- spec/95_test_vectors.md V-R10: nothing but the response. -/
theorem test_read_minus_one : onNext (fun t => recorded t = [.response ⟨0x01#8, 0xFFFFFFFF#32⟩] ∧ t.pc = .idle)
    (exec (.readChannel (-1)) State.reset) = true := by decide

/-- spec/95_test_vectors.md V-R17 and V-R8 as a frame alone: the sample stays in `acc`, no response is made. -/
theorem test_frame_seven : onNext (fun t => t.acc = 2730#12 ∧ responses (recorded t) = [] ∧
    (mosiAtRise false (recorded t)).take 5 = [true, true, true, true, true] ∧ t.cs = true)
    (exec (.spiFrameRead 7) (withSamples [] [2730])) = true := by decide +kernel

/-- spec/41_touch_channel.md R130, example. -/
theorem test_poll_presses : onNext (fun t => responses (recorded t) = [⟨0x00#8, 1#32⟩] ∧ t.st = [.pressed] ∧
    presses (recorded t) = []) (exec (.poll 0) (withSamples [⟨2, 0⟩] [850])) = true := by decide +kernel

/-- spec/95_test_vectors.md V-P1 to V-P18, the function of a poll at every boundary. -/
theorem test_poll_boundaries :
    [0, 899, 900, 901, 1900, 1901, 2100, 4095].map (hyst Config.default .released) =
      [(.pressed, true), (.pressed, true), (.released, false), (.released, false), (.released, false), (.released, false),
        (.released, false), (.released, false)] ∧
    [0, 899, 1899, 1900, 1901, 2000, 2099, 2100, 2101, 4095].map (hyst Config.default .pressed) =
      [(.pressed, false), (.pressed, false), (.pressed, false), (.pressed, false), (.released, false), (.released, false),
        (.released, false), (.pressed, false), (.pressed, false), (.pressed, false)] := by decide

/-- spec/95_test_vectors.md V-L4: the event of position 0 is out, position 1 is not read. -/
theorem test_pass_waits_at_a_press : onNext (fun t => presses (recorded t) = [(0#32, 40)] ∧ t.pc = .dispatching 0 ∧
    t.frames = 1 ∧ responses (recorded t) = [] ∧ t.st = [.pressed, .released])
    (exec .pollPass (withSamples [⟨0, 40⟩, ⟨3, 41⟩] [850, 2000])) = true := by decide +kernel

/-- spec/95_test_vectors.md V-L2, the other order of samples: no press at position 0, the event of position 1, and its
position and label. -/
theorem test_pass_goes_on_to_the_next_position : onNext (fun t => presses (recorded t) = [(1#32, 41)] ∧
    t.pc = .dispatching 1 ∧ t.frames = 2 ∧ (frameCommand false (recorded t) 1) = [true, true, false, true, true])
    (exec .pollPass (withSamples [⟨0, 40⟩, ⟨3, 41⟩] [2000, 850])) = true := by decide +kernel

/-- spec/95_test_vectors.md V-L6, first frame: no event, no response, the next pass. -/
theorem test_run_first_pass : onNext (fun t => t.running = true ∧ t.pc = .passing 0 ∧ presses (recorded t) = [] ∧
    responses (recorded t) = []) (exec .run (withSamples [⟨1, 7⟩] [2000])) = true := by decide +kernel

/-- spec/95_test_vectors.md V-L6, second frame. -/
theorem test_run_press : onNext (fun t => presses (recorded t) = [(0#32, 7)] ∧ t.pc = .dispatching 0 ∧ t.running = true)
    (exec .run (withSamples [⟨1, 7⟩] [880])) = true := by decide +kernel

/-! ### Reset (spec/95_test_vectors.md V-X2 to V-X6) -/

/-- The reset state when the host constructs with `cfg` next, on a platform that cannot provide the lines `u`. -/
def constructing (cfg : Config) (u : List Int) : State := { State.reset with inputs := [some (.construct cfg u)] }

/-- The same on a platform that has given out no line yet. -/
def constructingFresh (cfg : Config) (u : List Int) : State :=
  { State.reset with platform := ⟨[], 0⟩, inputs := [some (.construct cfg u)] }

/-- V-X2: the held line of CS is reused. -/
theorem test_reset_reuses_a_handle : onNext (fun t => t.handles.cs = some 0 ∧ t.platform.next = 4 ∧ t.pc = .idle ∧
    t.cs = true) (step (constructing Config.default [0, 1, 2, 3])) = true := by decide

/-- V-X3. -/
theorem test_reset_without_mosi : onNext (fun t => t.fault = some (.pinAcquisitionFailure 2) ∧ t.pc = .failed ∧
    t.handles.miso = none ∧ t.trace = [] ∧
    t.fault.map faultCode = some 0x02#8) (step (constructingFresh Config.default [2])) = true := by decide

/-- V-X4, V-X5, V-X6. -/
theorem test_reset_refuses :
    onNext (fun t => t.refused = some .illFormedConfiguration ∧ t.trace = State.reset.trace)
      (step (constructing { Config.default with releaseLow := 900 } [])) = true ∧
    onNext (fun t => t.refused = some .illFormedConfiguration)
      (step (constructing { Config.default with channels := [⟨8, 0⟩] } [])) = true ∧
    onNext (fun t => t.refused = some .illFormedConfiguration)
      (step (constructing { Config.default with pinClk := 2 } [])) = true := by decide

/-! ### A frame cut short (spec/42_poll_loop.md R160, spec/70_reset_and_hazards.md R215) -/

/-- `READ 5` cut short after `j` primitives. -/
def cutRead (j : Nat) (e : Ending) : State :=
  { withSamples [] [2000] with inputs := [some (.during (.serving (.request 0x0100000005#40)) j e)] }

/-- Stopped while the first pulse is high: CS asserted, MOSI at the start bit (spec/40_adc_driver.md R102, R103). -/
theorem test_stop_inside_the_first_pulse : onNext (fun t => t.stopped = true ∧ pinEvents (recorded t) =
    [.write .cs false, .write .mosi true, .wait .setup 0, .write .clk true]) (step (cutRead 7 .stop)) = true := by decide

/-- Stopped right after the CS assertion: the position of the CS write before pulse 1 (spec/10_state.md R34). -/
theorem test_stop_after_chip_select : onNext (fun t => t.pc = .reading 1 ∧ t.n = 1 ∧ t.chan = 5 ∧
    pinEvents (recorded t) = [.write .cs false]) (step (cutRead 3 .stop)) = true := by decide

/-- Another agent writes CLK while the first pulse is high (spec/70_reset_and_hazards.md R215). -/
theorem test_interference_inside_a_frame : onNext (fun t => t.refused = some .pinInterference ∧ t.pc = .reading 1 ∧
    t.stopped = false ∧ responses (recorded t) = []) (step (cutRead 7 (.drive .clk low))) = true := by decide

/-- Reset after three samples: the reset values, and the three writes of reset alone in the record. -/
theorem test_reset_inside_a_frame : onNext (fun t => t.stopped = false ∧ t.cs = true ∧ t.clk = false ∧ t.pc = .idle ∧
    recorded t = [] ∧ t.trace = resetWrites Config.default) (step (cutRead 60 (.construct Config.default []))) = true := by
  decide +kernel

/-- Stopped between two polls of a pass: one frame made, the second not begun (spec/42_poll_loop.md R160). -/
theorem test_stop_between_two_polls : onNext (fun t => t.stopped = true ∧ t.frames = 1 ∧ t.pc = .passing 1 ∧
    csIdles (recorded t) = [0])
    (step { withSamples [⟨0, 40⟩, ⟨3, 41⟩] [2000, 850] with
      inputs := [some (.during (.serving (.request 0x0300000000#40)) 128 .stop)] }) = true := by
  decide +kernel

/-! ### An instruction placed at reset is the next one to run -/

theorem test_withFetchWord_runs :
    onNext (fun t => t.pc = .idle) (step (State.reset.withFetchWord 40 0x0100000000)) = true ∧
    onNext (fun t => t.pc = .idle) (step (State.reset.withFetchWord 40 0x0200000000)) = true ∧
    onNext (fun t => t.pc = .idle) (step (State.reset.withFetchWord 8 0b11000)) = true := by decide +kernel

theorem test_withFetchWord_runs_a_pass (s : State) :
    step (s.withFetchWord 40 0x0300000000) =
      exec .pollPass { s with pc := .idle, running := false, refused := none, stopped := false } ∧
    step (s.withFetchWord 40 0x0400000000) =
      exec .run { s with pc := .idle, running := false, refused := none, stopped := false } := ⟨rfl, rfl⟩

/-! ### Witnesses: the hypotheses of each statement can be met together -/

/-- The reset state when `m` is in the next slot. -/
def slot (m : Option Move) : State := { State.reset with inputs := [m] }

/-- A block inside RUN, at the start of a pass. -/
def runningAt (p : Pos) (m : Option Move) : State := { slot m with running := true, pc := p }

theorem witness_DecodeOfEncode :
    (Instr.readChannel 2147483647).wellFormed = true ∧ (Instr.readChannel (-2147483648)).wellFormed = true ∧
    (Instr.poll 4294967295).wellFormed = true ∧ (Instr.poll 0).wellFormed = true ∧ Instr.pollPass.wellFormed = true ∧
    Instr.run.wellFormed = true ∧ (Instr.spiFrameRead 7#3).wellFormed = true := by decide

theorem witness_EncodeOfDecode :
    decode (.request 0x0180000000#40) = .ok (.readChannel (-2147483648)) ∧ decode (.frame 0b11111#5) = .ok (.spiFrameRead 7#3) := by
  exact ⟨by rfl, by rfl⟩

/-- Each clause of the decoder, at the ends of its range. -/
theorem witness_RequestDecoder :
    decoded (.request (BitVec.ofNat 40 (1 * 4294967296 + 2147483647))) = .inl (some (.readChannel 2147483647)) ∧
    decoded (.request (BitVec.ofNat 40 (1 * 4294967296 + 2147483648))) = .inl (some (.readChannel (-2147483648))) ∧
    decoded (.request (BitVec.ofNat 40 (2 * 4294967296 + 4294967295))) = .inl (some (.poll 4294967295)) ∧
    decoded (.request (BitVec.ofNat 40 (3 * 4294967296 + 0))) = .inl (some .pollPass) ∧
    decoded (.request (BitVec.ofNat 40 (3 * 4294967296 + 1))) = .inr .nonZeroOperand ∧
    decoded (.request (BitVec.ofNat 40 (4 * 4294967296 + 0))) = .inl (some .run) ∧
    decoded (.request (BitVec.ofNat 40 (4 * 4294967296 + 4294967295))) = .inr .nonZeroOperand ∧
    decoded (.request (BitVec.ofNat 40 (0 * 4294967296 + 0))) = .inr .reservedOpcode ∧
    decoded (.request (BitVec.ofNat 40 (5 * 4294967296 + 0))) = .inr .reservedOpcode ∧
    decoded (.request (BitVec.ofNat 40 (255 * 4294967296 + 4294967295))) = .inr .reservedOpcode := by decide

theorem witness_StepRunsTheDecodedInstruction : ∃ (s : State) (c : Code) (rest : List (Option Move)) (i : Instr),
    s.pc = .idle ∧ s.running = false ∧ s.refused = none ∧ s.stopped = false ∧ s.inputs = some (.issue c) :: rest ∧
    decode c = .ok i :=
  ⟨slot (some (.issue (.request 0x0100000005#40))), _, [], .readChannel 5, rfl, rfl, rfl, rfl, rfl, rfl⟩

theorem witness_UndecodableRequestIsMarked : ∃ (s : State) (c : Code) (rest : List (Option Move)) (r : Reason),
    s.pc = .idle ∧ s.running = false ∧ s.refused = none ∧ s.stopped = false ∧ s.inputs = some (.issue c) :: rest ∧
    decode c = .error r :=
  ⟨slot (some (.issue (.request 0x0300000001#40))), _, [], .nonZeroOperand, rfl, rfl, rfl, rfl, rfl, rfl⟩

theorem witness_PollOutsideTheTableIsMarked : State.reset.cfg.channels.length ≤ 8 := by decide

theorem witness_ReadChannelCompletes : ((0 : Int) ≤ 0 ∧ (0 : Int) ≤ 7) ∧ ((0 : Int) ≤ 7 ∧ (7 : Int) ≤ 7) := by decide

theorem witness_InvalidChannelTouchesNothing : ((-1 : Int) < 0 ∨ 7 < (-1 : Int)) ∧ ((8 : Int) < 0 ∨ 7 < (8 : Int)) := by
  decide

theorem witness_EighteenPulsesOrNone : State.reset.clk = false := rfl

theorem witness_ResultIsTheSampledBits : (withSamples [] [2000, 850]).draws.miso = misoOf 2000 ++ misoOf 850 ∧
    (misoOf 2000).length = 12 := by decide

theorem witness_ReferenceTraceHasNinetyOneEvents :
    (withSamples [] [2000, 850]).draws.mosi = List.replicate 13 [] ++ List.replicate 13 [] := by decide

/-- Both clauses at the ends of their ranges, and the reference choice. -/
theorem witness_PinsAfterARead : ((0 : Int) ≤ 0 ∧ (7 : Int) ≤ 7) ∧ ((-1 : Int) < 0 ∧ (7 : Int) < 8) ∧
    (withSamples [] [2000]).draws.mosi = List.replicate 13 [] ++ [] := by decide

/-- An operation that makes its second frame, whole and cut short. -/
theorem witness_ChipSelectIdlesBetweenFrames : ∃ s t s' t' : State, 0 < s.frames ∧ buildsAnew (nextMove s) = false ∧
    step s = .next t ∧ buildsAnew (nextMove s') = false ∧ step s' = .next t' :=
  ⟨{ State.reset with frames := 1, inputs := [some (.issue (.request 0x0100000005#40))] }, _, cutRead 40 .stop, _,
    by decide, rfl, rfl, rfl, rfl⟩

theorem witness_EachReadKeepsTheIdleTime : ((0 : Int) ≤ 7 ∧ (7 : Int) ≤ 7) ∧ 7 < State.reset.cfg.channels.length ∧
    0 < { State.reset with frames := 1 }.frames := by decide

theorem witness_DriverOperationsLeaveTheRest :
    (∃ t, exec (.readChannel 7) State.reset = .next t) ∧ (∃ t, exec (.readChannel 8) State.reset = .next t) ∧
    ∃ t, exec (.spiFrameRead 7) State.reset = .next t := ⟨⟨_, rfl⟩, ⟨_, rfl⟩, ⟨_, rfl⟩⟩

/-- Every range of the table is inhabited, at both its ends. -/
theorem witness_HysteresisTable :
    Config.default.pressThreshold < Config.default.releaseLow ∧ Config.default.releaseLow < Config.default.releaseHigh ∧
    0 < Config.default.pressThreshold ∧ 899 < Config.default.pressThreshold ∧
    (Config.default.pressThreshold ≤ 900 ∧ 900 ≤ Config.default.releaseLow) ∧
    (Config.default.pressThreshold ≤ 1900 ∧ 1900 ≤ Config.default.releaseLow) ∧
    (Config.default.releaseLow < 1901 ∧ 1901 < Config.default.releaseHigh) ∧
    (Config.default.releaseLow < 2099 ∧ 2099 < Config.default.releaseHigh) ∧
    Config.default.releaseHigh ≤ 2100 ∧ Config.default.releaseHigh ≤ 4095 := by decide

theorem witness_PollCompletes : State.reset.cfg.channels[7]? = some ⟨7, 7⟩ ∧
    State.reset.st.length = State.reset.cfg.channels.length := by decide

theorem witness_PollReportsExactlyThePresses : 7 < State.reset.cfg.channels.length ∧
    State.reset.st.length = State.reset.cfg.channels.length := by decide

theorem witness_OnlyAPassDispatches : ∃ t, exec (.poll 0) State.reset = .next t := ⟨_, rfl⟩

/-- Two blocks that differ in the state of position 1 and agree on position 0. -/
theorem witness_PollDependsOnItsOwnStateAlone : ∃ s s' : State, s.cfg.channels.length = 2 ∧
    s.st.length = s.cfg.channels.length ∧ s'.st.length = s'.cfg.channels.length ∧ s'.cfg = s.cfg ∧ s'.draws = s.draws ∧
    touchAt s' 0 = touchAt s 0 ∧ touchAt s' 1 ≠ touchAt s 1 :=
  ⟨withSamples [⟨0, 0⟩, ⟨1, 1⟩] [850], { withSamples [⟨0, 0⟩, ⟨1, 1⟩] [850] with st := [.released, .pressed] },
    rfl, rfl, rfl, rfl, rfl, rfl, by decide⟩

/-- The samples 850, 1950, 850 (spec/95_test_vectors.md V-P19): both ends press, the middle is in the band. -/
theorem witness_OnePressPerExcursion :
    Config.default.pressThreshold < Config.default.releaseLow ∧ Config.default.releaseLow < Config.default.releaseHigh ∧
    hyst Config.default .released 850 = (.pressed, true) ∧ hyst Config.default .pressed 1950 = (.released, false) ∧
    hyst Config.default .released 850 = (.pressed, true) := by decide

theorem witness_PollPassCompletes : State.reset.running = false ∧
    State.reset.st.length = State.reset.cfg.channels.length := by decide

theorem witness_RunCompletes : State.reset.st.length = State.reset.cfg.channels.length := by decide

/-- At the first position and at the end of the table. -/
theorem witness_RunGoesOnWithThePass : (runningAt (.passing 0) none).pc = .passing 0 ∧
    (runningAt (.passing 8) none).pc = .passing 8 ∧ (runningAt (.passing 0) none).running = true ∧
    (runningAt (.passing 0) none).refused = none ∧ (runningAt (.passing 0) none).stopped = false ∧
    (runningAt (.passing 0) none).inputs = none :: [] ∧
    (runningAt (.passing 0) none).st.length = (runningAt (.passing 0) none).cfg.channels.length ∧
    0 ≤ (runningAt (.passing 0) none).cfg.channels.length ∧ 8 ≤ (runningAt (.passing 8) none).cfg.channels.length := by
  decide

/-- Inside RUN and inside POLL_PASS, at the last position of the table. -/
theorem witness_CompletionLetsThePassGoOn : (runningAt (.dispatching 7) (some .complete)).pc = .dispatching 7 ∧
    { slot (some .complete) with pc := .dispatching 7 }.running = false ∧
    (runningAt (.dispatching 7) (some .complete)).refused = none ∧
    (runningAt (.dispatching 7) (some .complete)).stopped = false ∧
    (runningAt (.dispatching 7) (some .complete)).inputs = some .complete :: [] ∧
    (runningAt (.dispatching 7) (some .complete)).st.length = 8 ∧
    7 < (runningAt (.dispatching 7) (some .complete)).cfg.channels.length := by decide

theorem witness_OutstandingEventHoldsTheBlock : (runningAt (.dispatching 7) none).pc = .dispatching 7 ∧
    (runningAt (.dispatching 7) none).refused = none ∧ (runningAt (.dispatching 7) none).stopped = false ∧
    (runningAt (.dispatching 7) none).inputs = none :: [] := by decide

theorem witness_EmptyTableMakesNoEvent : ∃ (s : State) (rest : List (Option Move)), s.cfg.channels = [] ∧
    s.running = false ∧ s.refused = none ∧ s.stopped = false ∧ s.inputs = none :: rest :=
  ⟨{ withSamples [] [] with inputs := [none] }, [], rfl, rfl, rfl, rfl, rfl⟩

/-- A pass goes on with an empty table, and a running block waits for a completion. -/
theorem witness_RunNeverEndsNorResponds : ∃ s t s' t' : State, s.running = true ∧ s.pc = .passing 0 ∧
    nextMove s = none ∧ step s = .next t ∧ t.stopped = false ∧ s'.running = true ∧ s'.pc = .dispatching 7 ∧
    nextMove s' = none ∧ step s' = .next t' ∧ t'.stopped = false :=
  ⟨{ withSamples [] [] with running := true, pc := .passing 0 },
    { withSamples [] [] with running := true, pc := .passing 0 }, runningAt (.dispatching 7) none, _, rfl, rfl, rfl, rfl, rfl,
    rfl, rfl, rfl, rfl, rfl⟩

theorem reset_keeps_the_bus : BusKept State.reset :=
  .inr (.inr ⟨[], Bus.start Config.default, rfl, rfl, rfl, rfl, rfl, rfl, rfl, rfl, rfl, rfl⟩)

/-- A state that keeps the protocol and takes a step, whole and cut short; a stopped one that is constructed again. -/
theorem witness_BusProtocolIsKept : ∃ s t s' t' s'' t'' : State, BusKept s ∧ s.inputs ≠ [] ∧ step s = .next t ∧
    BusKept s' ∧ step s' = .next t' ∧ BusKept s'' ∧ s''.stopped = true ∧ step s'' = .next t'' :=
  ⟨slot (some (.issue (.request 0x0100000008#40))), _,
    slot (some (.during (.serving (.request 0x0100000005#40)) 7 .stop)), _,
    { constructing Config.default [] with stopped := true, trace := [] }, _,
    reset_keeps_the_bus, by decide, rfl, reset_keeps_the_bus, rfl,
    .inr (.inl ⟨.inl rfl, resetWrites Config.default, [], Bus.start Config.default, rfl, rfl⟩), rfl, rfl⟩

theorem reset_settled : Settled State.reset :=
  ⟨by decide, ⟨rfl, rfl, rfl, rfl⟩, rfl, rfl, rfl, rfl, by decide, .inl ⟨rfl, rfl⟩⟩

/-- The three disjuncts: a settled block that takes a request, a failed and a stopped one that are constructed again. -/
theorem witness_SoundIsKept : ∃ s t s' t' s'' t'' : State, Settled s ∧ step s = .next t ∧ Dead s' ∧ step s' = .next t' ∧
    s''.stopped = true ∧ step s'' = .next t'' :=
  ⟨slot (some (.issue (.request 0x0100000008#40))), _,
    { constructing Config.default [] with pc := .failed, fault := some (.pinAcquisitionFailure 2), trace := [] }, _,
    { constructing Config.default [] with stopped := true }, _,
    reset_settled, rfl, ⟨rfl, ⟨.mosi, rfl⟩, rfl⟩, rfl, rfl, rfl⟩

/-- Each clause: no construction; one that is well-formed and one that is not; one that cuts a read short, both ways. -/
theorem witness_OnlyConstructionConfigures : ∃ s t s1 t1 s2 t2 s3 t3 s4 t4 : State, buildsAnew (nextMove s) = false ∧
    step s = .next t ∧ nextMove s1 = some (.construct Config.default []) ∧ step s1 = .next t1 ∧
    nextMove s2 = some (.construct { Config.default with releaseLow := 900 } []) ∧ step s2 = .next t2 ∧
    configWf Config.default = true ∧ configWf { Config.default with releaseLow := 900 } = false ∧
    nextMove s3 = some (.during (.serving (.request 0x0100000005#40)) 7 (.construct Config.default [])) ∧
    step s3 = .next t3 ∧
    nextMove s4 = some (.during (.serving (.request 0x0100000005#40)) 7
      (.construct { Config.default with releaseLow := 900 } [])) ∧ step s4 = .next t4 :=
  ⟨slot none, _, constructing Config.default [], _, constructing { Config.default with releaseLow := 900 } [], _,
    cutRead 7 (.construct Config.default []), _, cutRead 7 (.construct { Config.default with releaseLow := 900 } []), _,
    rfl, rfl, rfl, rfl, rfl, rfl, by decide, by decide, rfl, rfl, rfl, rfl⟩

theorem witness_OnlyConstructionWritesHandlesAndFault : ∃ s t : State,
    buildsAnew (nextMove s) = false ∧ step s = .next t := ⟨slot (some .complete), _, rfl, rfl⟩

/-- A whole RUN and one stopped after its first primitive. -/
theorem witness_OnlyRunSetsRunning : ∃ s t s' t' : State, buildsAnew (nextMove s) = false ∧ step s = .next t ∧
    t.running ≠ s.running ∧ buildsAnew (nextMove s') = false ∧ step s' = .next t' ∧ t'.running ≠ s'.running :=
  ⟨(withSamples [] []).withFetchWord 40 0x0400000000, { withSamples [] [] with running := true, pc := .passing 0 },
    { withSamples [] [] with inputs := [some (.during (.serving (.request 0x0400000000#40)) 1 .stop)] },
    halt { withSamples [] [] with running := true },
    rfl, rfl, by decide, rfl, rfl, by decide⟩

/-- A request, a completion and a turn in which nothing reaches the block: what a stop can cut short. -/
theorem witness_StopFallsAfterAnyEvent : ∃ (s t : State) (es : List Event),
    buildsAnew (ordinary (.serving (.request 0x0100000008#40))) = false ∧
    step { s with inputs := [ordinary (.serving (.request 0x0100000008#40))] } = .next t ∧ t.trace = s.trace ++ es ∧
    es ≠ [] ∧ buildsAnew (ordinary .waiting) = false ∧ buildsAnew (ordinary .completing) = false :=
  ⟨State.reset, _, [.response ⟨0x01#8, 8#32⟩], rfl, rfl, rfl, by decide, rfl, rfl⟩

theorem witness_ResetInsideATurnGivesTheResetValues : configWf Config.default = true ∧
    (cutRead 60 (.construct Config.default [])).inputs =
      some (.during (.serving (.request 0x0100000005#40)) 60 (.construct Config.default [])) :: [] := by decide

/-- `READ 8`, whose record is one response, and what follows the mark. -/
theorem witness_InterferenceInsideATurnIsMarked : ∃ (s t u : State) (es : List Event),
    buildsAnew (ordinary (.serving (.request 0x0100000008#40))) = false ∧
    step { s with inputs := [ordinary (.serving (.request 0x0100000008#40))] } = .next t ∧ t.trace = s.trace ++ es ∧
    es ≠ [] ∧ step { s with inputs := [some (.during (.serving (.request 0x0100000008#40)) 1 (.drive .cs low))] } = .next u ∧
    endsTheBlock (nextMove u) = false :=
  ⟨State.reset, _, _, [.response ⟨0x01#8, 8#32⟩], rfl, rfl, rfl, by decide, rfl, rfl⟩

/-- A construction of a stopped block, with another agent's write after two acquisitions. -/
theorem witness_InterferenceInsideAConstructionIsMarked :
    { slot (some (.during (.constructing Config.default []) 3 (.drive .mosi high))) with stopped := true }.inputs =
      some (.during (.constructing Config.default []) 3 (.drive .mosi high)) :: [] := rfl

/-- The idle gap, and the CS assertion. -/
theorem witness_PositionInsideARead : csIdleGap State.reset ∈ frameMoments 5 State.reset ∧
    pinWrite .cs low (beginRead 5 (csIdleGap State.reset)) ∈ frameMoments 5 State.reset :=
  ⟨List.mem_append_left _ (by simp [openMoments, each, followedBy, one]),
    List.mem_append_left _ (by simp [openMoments, each, followedBy, one, ends]; exact .inr (.inr rfl))⟩

theorem witness_MomentsEndInTheNextState : (∃ t, exec (.readChannel 5) State.reset = .next t) ∧
    ∃ t, exec .run State.reset = .next t := ⟨⟨_, rfl⟩, ⟨_, rfl⟩⟩

theorem witness_StoppedBlockTakesNoStep : ∃ s : State, s.stopped = true ∧ endsTheBlock (nextMove s) = false :=
  ⟨{ slot (some (.issue (.request 0x0100000005#40))) with stopped := true }, rfl, rfl⟩

/-- A failed block that nothing, and one that a request, reaches. -/
theorem witness_FailedBlockTakesNoStep : ∃ s s' : State, s.pc = .failed ∧ s.fault = some (.pinAcquisitionFailure 2) ∧
    s.stopped = false ∧ nextMove s = none ∧ endsTheBlock (nextMove s) = false ∧ s'.pc = .failed ∧
    s'.fault = some (.pinAcquisitionFailure 2) ∧ s'.stopped = false ∧ endsTheBlock (nextMove s') = false :=
  ⟨{ State.reset with pc := .failed, fault := some (.pinAcquisitionFailure 2) },
    { slot (some (.issue (.request 0x0100000005#40))) with pc := .failed, fault := some (.pinAcquisitionFailure 2) },
    rfl, rfl, rfl, rfl, rfl, rfl, rfl, rfl, rfl⟩

theorem witness_MarkedBlockHasNoMeaning : ∃ s : State, s.pc ≠ .failed ∧ s.refused = some .pinInterference ∧
    s.stopped = false ∧ endsTheBlock (nextMove s) = false :=
  ⟨{ slot (some .complete) with refused := some .pinInterference }, by decide, rfl, rfl, rfl⟩

/-- Both disjuncts: a block waiting for a completion, and a block inside RUN. -/
theorem witness_RequestWhileBusyIsMarked : ∃ (s s' : State) (c : Code), s.pc = .dispatching 0 ∧ s.running = false ∧
    s.refused = none ∧ s.stopped = false ∧ s.inputs = [some (.issue c)] ∧ s'.pc = .passing 0 ∧ s'.running = true ∧
    s'.refused = none ∧ s'.stopped = false ∧ s'.inputs = [some (.issue c)] :=
  ⟨{ slot (some (.issue (.frame 0b11101#5))) with pc := .dispatching 0 },
    runningAt (.passing 0) (some (.issue (.frame 0b11101#5))), _, rfl, rfl, rfl, rfl, rfl, rfl, rfl, rfl, rfl,
    rfl⟩

theorem witness_PinInterferenceIsMarked : ∃ s : State, s.pc ≠ .failed ∧ s.refused = none ∧
    s.stopped = false ∧ s.inputs = [some (.drive .clk high)] := ⟨slot (some (.drive .clk high)), by decide, rfl, rfl, rfl⟩

/-- Lines the platform holds though it could no longer provide them, and lines it can provide. -/
theorem witness_ConstructionSucceeds :
    Config.default.pressThreshold < Config.default.releaseLow ∧ Config.default.releaseLow < Config.default.releaseHigh ∧
    (∀ e ∈ Config.default.channels, 0 ≤ e.ch ∧ e.ch ≤ 7) ∧
    [Config.default.pinCs, Config.default.pinClk, Config.default.pinMosi, Config.default.pinMiso].Nodup ∧
    ((constructing Config.default [0, 1, 2, 3]).platform.held.lookup 0).isSome ∧
    ((constructing Config.default [0, 1, 2, 3]).platform.held.lookup 3).isSome ∧
    (constructingFresh Config.default [4]).platform.held.lookup 0 = none ∧ (0 : Int) ∉ [(4 : Int)] := by decide

/-- The first role, one in the middle and the last. -/
theorem witness_ConstructionFailsAtTheFirstMissingPin :
    [Role.cs, Role.clk, Role.mosi, Role.miso] = ([] : List Role) ++ Role.cs :: [Role.clk, Role.mosi, Role.miso] ∧
    [Role.cs, Role.clk, Role.mosi, Role.miso] = [Role.cs, Role.clk] ++ Role.mosi :: [Role.miso] ∧
    [Role.cs, Role.clk, Role.mosi, Role.miso] = [Role.cs, Role.clk, Role.mosi] ++ Role.miso :: ([] : List Role) ∧
    (constructingFresh Config.default [2]).platform.held.lookup (pinOf Config.default .mosi) = none ∧
    pinOf Config.default .mosi ∈ [(2 : Int)] ∧ (∀ q ∈ [Role.cs, Role.clk], pinOf Config.default q ∉ [(2 : Int)]) ∧
    pinOf Config.default .cs ∈ [(0 : Int)] ∧ pinOf Config.default .miso ∈ [(3 : Int)] ∧
    (∀ q ∈ [Role.cs, Role.clk, Role.mosi], pinOf Config.default q ∉ [(3 : Int)]) := by decide

/-- Each of the four causes, at its boundary. -/
theorem witness_IllFormedConfigurationIsMarked :
    { Config.default with releaseLow := 900 }.releaseLow ≤ { Config.default with releaseLow := 900 }.pressThreshold ∧
    { Config.default with releaseHigh := 1900 }.releaseHigh ≤ { Config.default with releaseHigh := 1900 }.releaseLow ∧
    (∃ e ∈ { Config.default with channels := [⟨-1, 0⟩] }.channels, e.ch < 0) ∧
    (∃ e ∈ { Config.default with channels := [⟨8, 0⟩] }.channels, 7 < e.ch) ∧
    ¬ [(0 : Int), 2, 2, 3].Nodup := by decide

/-- A line provisioned now, and one held before. -/
theorem witness_AcquisitionIsIdempotent :
    acquire [] 7 ⟨[], 0⟩ = some (0, ⟨[(7, 0)], 1⟩) ∧ acquire [7] 7 ⟨[(7, 0)], 1⟩ = some (0, ⟨[(7, 0)], 1⟩) := by decide

theorem witness_IdleBlockWaits : (slot none).pc = .idle ∧ (slot none).refused = none ∧ (slot none).stopped = false ∧
    (slot none).inputs = none :: [] := by decide

end Sys2Proof.Tests
end

section
/-!
PROOF of O46. An operation has at least one moment, and the last is the state its meaning gives (spec/00_scope.md R10,
spec/42_poll_loop.md R160).
-/

namespace Sys2Proof.Machine

/-! ### Every operation has a moment -/

theorem followedBy_ne_nil {f : Moments} (g : Moments) {s : State} (h : f s ≠ []) : followedBy f g s ≠ [] :=
  List.append_ne_nil_of_left_ne_nil h _

theorem one_ne_nil (f : State → State) (s : State) : one f s ≠ [] := List.cons_ne_nil _ _

/-- A frame begins with the CS idle time. -/
theorem frameMoments_ne_nil (c : Chan) (s : State) : frameMoments c s ≠ [] :=
  followedBy_ne_nil _ (followedBy_ne_nil _ (one_ne_nil csIdleGap s))

theorem finishMoments_ne_nil (r : Response) (s : State) : finishMoments r s ≠ [] :=
  followedBy_ne_nil _ (one_ne_nil (emit (.response r)) s)

theorem readChannelMoments_ne_nil (ch : Int) (s : State) : readChannelMoments ch s ≠ [] := by
  unfold readChannelMoments
  split
  · exact followedBy_ne_nil _ (frameMoments_ne_nil _ s)
  · exact finishMoments_ne_nil _ s

theorem pollMoments_ne_nil (k : Nat) (s : State) : pollMoments k s ≠ [] := by
  unfold pollMoments
  split
  · exact one_ne_nil (refuse .pollPositionOutOfRange) s
  · exact followedBy_ne_nil _ (followedBy_ne_nil _ (frameMoments_ne_nil _ s))

theorem endPassMoments_ne_nil (s : State) : endPassMoments s ≠ [] := by
  unfold endPassMoments
  split
  · exact one_ne_nil (setPos (.passing 0)) s
  · exact finishMoments_ne_nil _ s

theorem passMoments_ne_nil (es : List ChannelEntry) (k : Nat) (s : State) : passMoments es k s ≠ [] := by
  cases es with
  | nil => exact endPassMoments_ne_nil s
  | cons e es => exact followedBy_ne_nil _ (followedBy_ne_nil _ (one_ne_nil (setPos (.passing k)) s))

theorem execMoments_ne_nil (i : Instr) (s : State) : execMoments i s ≠ [] := by
  cases i with
  | readChannel ch => exact readChannelMoments_ne_nil ch s
  | poll k => exact pollMoments_ne_nil k s
  | pollPass => exact passMoments_ne_nil _ 0 s
  | run => exact followedBy_ne_nil _ (one_ne_nil _ s)
  | spiFrameRead c => exact followedBy_ne_nil _ (frameMoments_ne_nil c s)

/-! ### The moments end in the meaning -/

/-- A response computed from the state the operation has reached, as READ_CHANNEL's from `acc`. -/
theorem ends_finish_of_state (r : State → Response) (s : State) :
    ends (fun t => finishMoments (r t) t) s = finish (r s) s :=
  calc ends (fun t => finishMoments (r t) t) s
    _ = ends (finishMoments (r s)) s := ends_of_eq rfl
    _ = finish (r s) s := ends_finish (r s) s

theorem execReadChannel_eq_ends (ch : Int) (s : State) :
    execReadChannel ch s = .next (ends (readChannelMoments ch) s) := by
  unfold execReadChannel readChannelMoments
  split
  · rw [ends_followedBy, ends_frame, ends_finish_of_state]
  · rw [ends_finish, raiseInvalidChannel]

theorem execPoll_eq_ends (k : Nat) (s : State) : execPoll k s = .next (ends (pollMoments k) s) := by
  unfold execPoll
  split
  · next hk => rw [ends_of_eq (m' := one (refuse .pollPositionOutOfRange)) (by rw [pollMoments, if_pos hk, one]), ends_one]
  · next hk =>
    rw [ends_of_eq (m' := followedBy (pollStepMoments k) (finishMoments ⟨statusOk, pressValue (pollStep k s).1⟩))
      (by rw [pollMoments, if_neg hk]), ends_followedBy, ends_pollStep, ends_finish]

theorem exec_eq_ends (i : Instr) (s : State) : exec i s = .next (ends (execMoments i) s) := by
  cases i with
  | readChannel ch => exact execReadChannel_eq_ends ch s
  | poll k => exact execPoll_eq_ends k s
  | pollPass => exact congrArg _ (ends_passFrom 0 s).symm
  | run => rw [execMoments, ends_followedBy, ends_one, ends_passFrom]; rfl
  | spiFrameRead c => rw [execMoments, ends_followedBy, ends_one, ends_frame]; rfl

theorem getLast?_eq_some_ends {m : Moments} {s : State} (h : m s ≠ []) : (m s).getLast? = some (ends m s) := by
  rw [ends, List.getLastD_eq_getLast?, List.getLast?_eq_some_getLast h, Option.getD_some]

/-- Settles O46: the moments of an operation are not empty, and end in the only state `exec` can answer. -/
theorem momentsEndInTheNextState : Obligations.MomentsEndInTheNextState := by
  unfold Obligations.MomentsEndInTheNextState
  intro i s t h
  rw [exec_eq_ends, Host.Outcome.next.injEq] at h
  rw [getLast?_eq_some_ends (execMoments_ne_nil i s), h]

end Sys2Proof.Machine
end

section
/-!
SUPPORT for O18, O33, O34, O36, O38, O39, O40 and O42. A step in the terms of `Moments`: the whole of a turn, or an ending
at one of its moments (`step_moment`); what the whole of a turn can be (`ends_work_cases`).
-/

namespace Sys2Proof.Machine

open Sys2Proof.Safety

/-! ### The whole of a turn -/

theorem mayStep_iff {s : State} :
    mayStep s = true ↔ s.stopped = false ∧ s.pc ≠ .failed ∧ s.refused = none := by
  simp [mayStep, and_assoc]

theorem ends_advance {s t : State} (h : advance s = .next t) : t = ends advanceMoments s := by
  rcases advance_next h with ⟨hp | ⟨k, hp⟩, rfl⟩ | ⟨k, hp, rfl⟩
  · simp [ends, advanceMoments, hp]
  · simp [ends, advanceMoments, hp]
  · rw [ends_of_eq (m' := passFromMoments k) (by simp [advanceMoments, hp]), ends_passFrom]

theorem takeCode_eq_ends (c : Code) (s : State) : takeCode c s = .next (ends (codeMoments c) s) := by
  unfold takeCode
  split
  · next hi =>
    split
    · next i hd => rw [exec_eq_ends, ends_of_eq (m := codeMoments c) (m' := execMoments i) (by simp [codeMoments, hi, hd])]
    · next r hd => rw [ends_of_eq (m' := one (refuse r)) (by simp [codeMoments, hi, hd, one]), ends_one]
  · next hi => rw [ends_of_eq (m' := one (refuse .requestWhileBusy)) (by simp [codeMoments, hi, one]), ends_one]

theorem ends_completion_dispatching {s : State} {k : Nat} (hp : s.pc = .dispatching k) :
    ends completionMoments s = completeDispatch k s := by
  rw [ends_of_eq (m' := followedBy (one (emit .completed)) (passFromMoments (k + 1))) (by simp [completionMoments, hp]),
    ends_followedBy, ends_one, ends_passFrom, completeDispatch]

theorem ends_completion_refused {s : State} (hp : ¬ ∃ k, s.pc = .dispatching k) :
    ends completionMoments s = refuse .completionWithoutEvent s := by
  rw [ends_of_eq (m' := one (refuse .completionWithoutEvent)), ends_one]
  unfold completionMoments
  split
  · exact absurd ⟨_, ‹_›⟩ hp
  · rfl

theorem takeCompletion_eq_ends (s : State) : takeCompletion s = .next (ends completionMoments s) := by
  by_cases hp : ∃ k, s.pc = .dispatching k
  · obtain ⟨k, hp⟩ := hp
    rw [ends_completion_dispatching hp]
    simp [takeCompletion, hp]
  · rw [ends_completion_refused hp]
    unfold takeCompletion
    split
    · exact absurd ⟨_, ‹_›⟩ hp
    · rfl

theorem constructing_or_not (w : Work) :
    (∃ cfg u, w = .constructing cfg u) ∨ ∀ cfg u, w ≠ .constructing cfg u := by
  cases w <;> simp

theorem ends_work_constructing (cfg : Config) (u : List Int) (s : State) :
    ends (workMoments (.constructing cfg u)) s = construct cfg u s :=
  ends_construct cfg u s

/-- The turn that nothing cuts short answers the last of its moments. -/
theorem turn_ordinary {w : Work} {s t : State} (h : turn (ordinary w) s = .next t) : t = ends (workMoments w) s := by
  have may : ∀ {act : State → Host.Outcome State Fault Refusal}, gate act s = .next t →
      mayStep s = true ∧ act s = .next t := fun h => by
    obtain ⟨h0, h1, h2, h⟩ := gate_next h
    exact ⟨mayStep_iff.2 ⟨h0, h1, h2⟩, h⟩
  cases w with
  | constructing cfg u =>
    rw [ends_work_constructing]
    simpa [turn, ordinary] using h.symm
  | waiting =>
    obtain ⟨hm, h⟩ := may h
    rw [ends_advance h]
    exact ends_of_eq (by simp [workMoments, hm])
  | serving c =>
    obtain ⟨hm, h⟩ := may h
    rw [takeCode_eq_ends, Host.Outcome.next.injEq] at h
    rw [← h]
    exact ends_of_eq (by simp [workMoments, hm])
  | completing =>
    obtain ⟨hm, h⟩ := may h
    rw [takeCompletion_eq_ends, Host.Outcome.next.injEq] at h
    rw [← h]
    exact ends_of_eq (by simp [workMoments, hm])

/-- What the whole of a turn that constructs nothing can be: nothing, where the block waits or may take no step; otherwise a
refusal, a pass that goes on, a completed press event or the instruction of an idle block. -/
theorem ends_work_cases (w : Work) (s : State) (hw : ∀ cfg u, w ≠ .constructing cfg u) :
    ends (workMoments w) s = s ∨ mayStep s = true ∧
      ((∃ r, ends (workMoments w) s = refuse r s) ∨
       (∃ k, s.pc = .passing k ∧ ends (workMoments w) s = passFrom k s) ∨
       (∃ k, s.pc = .dispatching k ∧ ends (workMoments w) s = completeDispatch k s) ∨
       (s.pc = .idle ∧ s.running = false ∧ ∃ i, exec i s = .next (ends (workMoments w) s))) := by
  by_cases hm : mayStep s = true
  swap
  · refine .inl ?_
    cases w with
    | constructing cfg u => exact absurd rfl (hw cfg u)
    | _ => simp [ends, workMoments, hm]
  cases w with
  | constructing cfg u => exact absurd rfl (hw cfg u)
  | waiting =>
    rw [ends_of_eq (m' := advanceMoments) (by simp [workMoments, hm])]
    by_cases hp : ∃ k, s.pc = .passing k
    · obtain ⟨k, hp⟩ := hp
      exact .inr ⟨hm, .inr (.inl ⟨k, hp,
        by rw [ends_of_eq (m' := passFromMoments k) (by simp [advanceMoments, hp]), ends_passFrom]⟩)⟩
    · refine .inl ?_
      unfold ends advanceMoments
      split
      · exact absurd ⟨_, ‹_›⟩ hp
      · rfl
  | serving c =>
    rw [ends_of_eq (m' := codeMoments c) (by simp [workMoments, hm])]
    rcases takeCode_next (takeCode_eq_ends c s) with hr | ⟨hp, hr, i, -, hi⟩
    · exact .inr ⟨hm, .inl hr⟩
    · exact .inr ⟨hm, .inr (.inr (.inr ⟨hp, hr, i, hi⟩))⟩
  | completing =>
    rw [ends_of_eq (m' := completionMoments) (by simp [workMoments, hm])]
    by_cases hp : ∃ k, s.pc = .dispatching k
    · obtain ⟨k, hp⟩ := hp
      exact .inr ⟨hm, .inr (.inr (.inl ⟨k, hp, ends_completion_dispatching hp⟩))⟩
    · exact .inr ⟨hm, .inl ⟨_, ends_completion_refused hp⟩⟩

/-! ### A step, by the moments of its turn -/

/-- A step takes the whole of a turn, or ends one at a moment of it; a stop and another agent's write between two turns end
the turn that has not begun. -/
theorem step_moment {s t : State} (h : step s = .next t) :
    (∃ w, nextMove s = ordinary w ∧ t = ends (workMoments w) (afterSlot s)) ∨
    (∃ e, (∀ cfg u, e ≠ .construct cfg u) ∧ t = endWith e (afterSlot s)) ∨
    ∃ w j e, nextMove s = some (.during w j e) ∧ t = endWith e (momentAt j (workMoments w) (afterSlot s)) := by
  unfold step at h
  rcases hm : nextMove s with _ | m <;> rw [hm] at h
  · exact .inl ⟨.waiting, rfl, turn_ordinary h⟩
  cases m with
  | construct cfg u => exact .inl ⟨.constructing cfg u, rfl, turn_ordinary h⟩
  | issue c => exact .inl ⟨.serving c, rfl, turn_ordinary h⟩
  | complete => exact .inl ⟨.completing, rfl, turn_ordinary h⟩
  | stop => exact .inr (.inl ⟨.stop, by simp, by simpa [turn, endWith] using h.symm⟩)
  | drive p l =>
    obtain ⟨-, -, -, h⟩ := gate_next (act := fun s => .next (refuse .pinInterference s)) h
    exact .inr (.inl ⟨.drive p l, by simp, by simpa [endWith] using h.symm⟩)
  | during w j e => exact .inr (.inr ⟨w, j, e, rfl, by simpa [cutTurn] using (cutTurn_next h).symm⟩)

/-- The turn that had reached `u` ended there as `t`, unless by a construction. -/
structure EndedAs (u t : State) : Prop where
  cfg : t.cfg = u.cfg
  handles : t.handles = u.handles
  fault : t.fault = u.fault
  platform : t.platform = u.platform
  running : t.running = u.running
  pc : t.pc = u.pc
  trace : t.trace = u.trace

theorem EndedAs.refl (u : State) : EndedAs u u := ⟨rfl, rfl, rfl, rfl, rfl, rfl, rfl⟩

theorem endedAs_endWith {e : Ending} (he : ∀ cfg v, e ≠ .construct cfg v) (u : State) : EndedAs u (endWith e u) := by
  obtain ⟨h1, h2, h3, h4, h5, h6, -, h8, -, -⟩ := endWith_keeps he u
  exact ⟨h1, h2, h3, h4, h5, h6, h8⟩

/-- A step in which the host constructs nothing ends at the start or at a moment `u` of a turn; what it has recorded there is
the beginning of the record of the whole turn. -/
theorem step_onward {s t : State} (hb : buildsAnew (nextMove s) = false) (h : step s = .next t) :
    ∃ w u, (∀ cfg v, w ≠ .constructing cfg v) ∧ (u = afterSlot s ∨ u ∈ workMoments w (afterSlot s)) ∧
      Onward (servesRun w && mayStep (afterSlot s) && !s.running) (afterSlot s) u ∧
      (∃ later, (ends (workMoments w) (afterSlot s)).trace = u.trace ++ later) ∧ EndedAs u t ∧
      (w = .waiting ∨ nextMove s = ordinary w ∨ ∃ j e, nextMove s = some (.during w j e)) := by
  rcases step_moment h with ⟨w, hm, rfl⟩ | ⟨e, he, ht⟩ | ⟨w, j, e, hm, ht⟩
  · have hw : ∀ cfg v, w ≠ .constructing cfg v := by
      rintro cfg v rfl
      simp [hm, ordinary, buildsAnew] at hb
    exact ⟨w, _, hw, ends_mem _ _, (stepwise_work w (afterSlot s) hw).whole, ⟨[], by simp⟩, .refl _, .inr (.inl hm)⟩
  · exact ⟨.waiting, _, by simp, .inl rfl, .refl _ _, (stepwise_work .waiting (afterSlot s) (by simp)).whole.trace,
      ht ▸ endedAs_endWith he _, .inl rfl⟩
  · rw [hm, buildsAnew_during] at hb
    have hs := (stepwise_work w (afterSlot s) hb.2).at j
    exact ⟨w, _, hb.2, momentAt_mem _ _ _, hs.1, hs.2.trace, ht ▸ endedAs_endWith hb.1 _, .inr (.inr ⟨j, e, hm⟩)⟩

end Sys2Proof.Machine
end

section
/-!
PROOF of O34. What the whole of a turn records obeys `busStep` from every bus between two frames (`obeys_work`), so that what
a turn cut short records is the beginning of such a record; a construction begins the record anew.
-/

namespace Sys2Proof.Machine

open Sys2Proof.Safety

/-! ### What an operation records, and the checker -/

/-- The bus between two frames of the block `s`, a press event outstanding where `o` says so. -/
structure BetweenFrames (o : Bool) (s : State) (b : Bus) : Prop where
  cs : b.cs = (!s.cfg.csActive)
  clk : b.clk = false
  outstanding : b.outstanding = o
  frames : b.frames = s.frames
  gap : b.gap = false

/-- The bus has the levels the block drives. -/
structure SameLevels (s : State) (b : Bus) : Prop where
  cs : b.cs = s.cs
  clk : b.clk = s.clk
  mosi : b.mosi = s.mosi

/-- What the block records from `s` to `t` takes every bus between two frames of `s` to one of `t`, and keeps the two in step;
`o` and `o'` say whether a press event is outstanding before and after. -/
def Obeys (o : Bool) (s : State) (o' : Bool) (t : State) : Prop :=
  t.cfg = s.cfg ∧ ∃ es, t.trace = s.trace ++ es ∧ ∀ b, BetweenFrames o s b →
    ∃ b', busRun s.cfg b es = some b' ∧ BetweenFrames o' t b' ∧ (SameLevels s b → SameLevels t b')

theorem Obeys.trans {o o' o'' : Bool} {s t u : State} (h : Obeys o s o' t) (h' : Obeys o' t o'' u) : Obeys o s o'' u := by
  obtain ⟨hc, es, he, hr⟩ := h
  obtain ⟨hc', es', he', hr'⟩ := h'
  refine ⟨hc'.trans hc, es ++ es', by rw [he', he, List.append_assoc], fun b hb => ?_⟩
  obtain ⟨b1, h1, q1, l1⟩ := hr b hb
  obtain ⟨b2, h2, q2, l2⟩ := hr' b1 q1
  rw [hc] at h2
  exact ⟨b2, by rw [busRun_append, h1, Option.bind_some, h2], q2, l2 ∘ l1⟩

/-- What records nothing and leaves the pins and the count of frames alone. -/
theorem obeys_silent {o : Bool} {s t : State} (h1 : t.cfg = s.cfg) (h2 : t.trace = s.trace) (h3 : t.frames = s.frames)
    (h4 : t.cs = s.cs) (h5 : t.clk = s.clk) (h6 : t.mosi = s.mosi) : Obeys o s o t :=
  ⟨h1, [], by simp [h2], fun b hb => ⟨b, rfl, ⟨by rw [h1]; exact hb.cs, hb.clk, hb.outstanding, by rw [h3]; exact hb.frames,
    hb.gap⟩, fun hl => ⟨by rw [h4]; exact hl.cs, by rw [h5]; exact hl.clk, by rw [h6]; exact hl.mosi⟩⟩⟩

theorem obeys_setPos {o : Bool} (p : Pos) (s : State) : Obeys o s o (setPos p s) := obeys_silent rfl rfl rfl rfl rfl rfl

theorem obeys_setTouch {o : Bool} (k : Nat) (x : Touch) (s : State) : Obeys o s o (setTouch k x s) :=
  obeys_silent rfl rfl rfl rfl rfl rfl

theorem obeys_refuse {o : Bool} (r : Reason) (s : State) : Obeys o s o (refuse r s) := obeys_silent rfl rfl rfl rfl rfl rfl

/-- One event that only starts or ends what is outstanding. -/
theorem obeys_emit {o o' : Bool} {e : Event} (s : State)
    (h : ∀ b, BetweenFrames o s b → busStep s.cfg b e = some { b with outstanding := o' }) : Obeys o s o' (emit e s) :=
  ⟨rfl, [e], rfl, fun b hb => ⟨{ b with outstanding := o' }, by rw [busRun, h b hb]; rfl,
    ⟨hb.cs, hb.clk, rfl, hb.frames, hb.gap⟩, fun hl => ⟨hl.cs, hl.clk, hl.mosi⟩⟩⟩

theorem obeys_response (r : Response) (s : State) : Obeys false s false (emit (.response r) s) :=
  obeys_emit s fun b hb => by
    rw [busStep, if_pos ⟨hb.cs, hb.outstanding, hb.gap⟩, ← hb.outstanding]

theorem obeys_press (k : BitVec 32) (label : Label) (s : State) : Obeys false s true (emit (.press k label) s) :=
  obeys_emit s fun b hb => by rw [busStep, if_pos ⟨hb.cs, hb.outstanding, hb.gap⟩]

theorem obeys_completed (s : State) : Obeys true s false (emit .completed s) :=
  obeys_emit s fun b hb => by rw [busStep, if_pos hb.outstanding]

theorem obeys_finish (r : Response) (s : State) : Obeys false s false (finish r s) :=
  (obeys_response r s).trans (obeys_setPos .idle _)

theorem obeys_dispatch (k : Nat) (label : Label) (s : State) : Obeys false s true (dispatch k label s) :=
  (obeys_setPos (.dispatching k) s).trans (obeys_press (BitVec.ofNat 32 k) label _)

theorem obeys_frame (c : Chan) (s : State) : Obeys false s false (readFrame c s) := by
  obtain ⟨f, hf, h⟩ := readFrame_spec c s
  rw [h]
  refine ⟨rfl, f.record s.cfg c, rfl, fun b hb => ⟨_, busRun_frame c hf hb.cs hb.clk hb.outstanding hb.frames hb.gap, ?_, ?_⟩⟩
  · exact ⟨rfl, rfl, rfl, rfl, rfl⟩
  · exact fun _ => ⟨rfl, rfl, rfl⟩

theorem obeys_pollStep (k : Nat) (s : State) : Obeys false s false (pollStep k s).2 :=
  ((obeys_frame (channelAt s.cfg k) s).trans (obeys_setPos (.polling k) _)).trans (obeys_setTouch k _ _)

/-- A pass obeys the protocol up to its end or to the press event it waits at. -/
theorem obeys_passFrom (k : Nat) (s : State) : Obeys false s (awaiting (passFrom k s).pc) (passFrom k s) := by
  have poll : ∀ k t, Obeys false s false t → Obeys false s false (pollStep k (setPos (.passing k) t)).2 := fun k t h =>
    (h.trans (obeys_setPos (.passing k) t)).trans (obeys_pollStep k _)
  rcases passFrom_cases (Obeys false s false) poll k s (obeys_silent rfl rfl rfl rfl rfl rfl) with
    ⟨t, ht, h⟩ | ⟨j, e, t, -, -, ht, h⟩ <;> rw [h]
  · unfold endPass
    split
    · exact ht.trans (obeys_setPos (.passing 0) t)
    · exact ht.trans (obeys_finish _ t)
  · exact ht.trans (obeys_dispatch j e.label t)

/-- An operation of an idle block obeys the protocol. -/
theorem obeys_exec {i : Instr} {s t : State} (hp : s.pc = .idle) (h : exec i s = .next t) :
    Obeys false s (awaiting t.pc) t := by
  cases i with
  | readChannel ch =>
    obtain rfl : _ = t := Host.Outcome.next.inj h
    split
    · exact (obeys_frame _ s).trans (obeys_finish _ _)
    · exact obeys_finish _ s
  | poll k =>
    obtain rfl : _ = t := Host.Outcome.next.inj h
    split
    · rw [refuse_pc, hp]
      exact obeys_refuse _ s
    · exact (obeys_pollStep k s).trans (obeys_finish _ _)
  | pollPass =>
    obtain rfl : _ = t := Host.Outcome.next.inj h
    exact obeys_passFrom 0 s
  | run =>
    obtain rfl : _ = t := Host.Outcome.next.inj h
    have begun : Obeys false s false { s with running := true } := obeys_silent rfl rfl rfl rfl rfl rfl
    exact begun.trans (obeys_passFrom 0 _)
  | spiFrameRead c =>
    obtain rfl : _ = t := Host.Outcome.next.inj h
    exact (obeys_frame c s).trans (obeys_setPos .idle _)

/-- The whole of a turn that constructs nothing obeys the protocol and the handshake. -/
theorem obeys_work {w : Work} (hw : ∀ cfg u, w ≠ .constructing cfg u) (s : State) :
    Obeys (awaiting s.pc) s (awaiting (ends (workMoments w) s).pc) (ends (workMoments w) s) := by
  rcases ends_work_cases w s hw with h | ⟨-, ⟨r, h⟩ | ⟨k, hp, h⟩ | ⟨k, hp, h⟩ | ⟨hp, -, i, h⟩⟩
  · rw [h]
    exact obeys_silent rfl rfl rfl rfl rfl rfl
  · rw [h]
    exact obeys_refuse r s
  · rw [h, hp]
    exact obeys_passFrom k s
  · rw [h, hp]
    exact (obeys_completed s).trans (obeys_passFrom (k + 1) _)
  · rw [hp]
    exact obeys_exec hp h

/-! ### The record as the beginning of one that obeys -/

/-- The block failed, or its record is the beginning of one that obeys the protocol. -/
def RecordBegins (s : State) : Prop :=
  s.pc = .failed ∨ ∃ later es b, s.trace ++ later = resetWrites s.cfg ++ es ∧ busRun s.cfg (Bus.start s.cfg) es = some b

theorem recordBegins_of_busKept {s : State} (h : BusKept s) : RecordBegins s := by
  rcases h with h | ⟨-, h⟩ | ⟨es, b, ht, hr, -⟩
  · exact .inl h
  · exact .inr h
  · exact .inr ⟨[], es, b, by simp [ht], hr⟩

theorem busKept_of_cutShort {s : State} (hc : CutShort s) (h : RecordBegins s) : BusKept s :=
  h.imp_right fun h => .inl ⟨hc, h⟩

/-- What comes before a record that begins well begins well. -/
theorem RecordBegins.before {r : Bool} {u t : State} (h : RecordBegins t) (ho : Onward r u t) : RecordBegins u := by
  rcases h with h | ⟨later, es, b, ht, hr⟩
  · exact .inl (ho.alive h)
  · obtain ⟨more, hm⟩ := ho.trace
    rw [hm, ho.cfg, List.append_assoc] at ht
    rw [ho.cfg] at hr
    exact .inr ⟨more ++ later, es, b, ht, hr⟩

theorem busKept_construct (cfg : Config) (un : List Int) {s : State} (h : RecordBegins s) : BusKept (construct cfg un s) := by
  rcases construct_cases cfg un s with ⟨-, hc⟩ | ⟨-, hs, p, ⟨hc, -⟩ | ⟨r, hc⟩⟩ <;> rw [hc]
  · exact busKept_of_cutShort (.inr (.inr rfl)) h
  · exact .inr (.inr ⟨[], Bus.start cfg, rfl, rfl, rfl, rfl, rfl, rfl, rfl, rfl, rfl, rfl⟩)
  · exact .inl rfl

/-- However a turn is cut short, the record that had begun well stays the beginning of one that obeys. -/
theorem busKept_endWith (e : Ending) {s : State} (h : RecordBegins s) : BusKept (endWith e s) := by
  cases e with
  | stop => exact busKept_of_cutShort (.inl rfl) h
  | construct cfg un => exact busKept_construct cfg un (s := halt s) h
  | drive p l => exact busKept_of_cutShort (.inr (.inl rfl)) h

/-- A block that may take a step has neither failed nor been cut short. -/
theorem not_cutShort_of_mayStep {s : State} (h : mayStep s = true) : ¬ CutShort s := by
  obtain ⟨h0, -, h2⟩ := mayStep_iff.1 h
  simp [CutShort, h0, h2]

theorem busKept_work {w : Work} {s : State} (h : BusKept s) : BusKept (ends (workMoments w) s) := by
  rcases constructing_or_not w with ⟨cfg, u, rfl⟩ | hw
  · rw [ends_work_constructing]
    exact busKept_construct cfg u (recordBegins_of_busKept h)
  rcases ends_work_cases w s hw with hs | ⟨hm, -⟩
  · rwa [hs]
  obtain ⟨hcfg, es', he', hr'⟩ := obeys_work hw s
  rcases h with h | ⟨h, -⟩ | ⟨es, b, ht, hr, l1, l2, l3, q1, q2, q3, q4, q5⟩
  · exact absurd h (mayStep_iff.1 hm).2.1
  · exact absurd h (not_cutShort_of_mayStep hm)
  obtain ⟨b', hb', q, l⟩ := hr' b ⟨l1.trans q1, l2.trans q2, q3, q4, q5⟩
  have l := l ⟨l1, l2, l3⟩
  refine .inr (.inr ⟨es ++ es', b', ?_, ?_, l.cs, l.clk, l.mosi, l.cs ▸ q.cs, l.clk ▸ q.clk, q.outstanding, q.frames, q.gap⟩)
  · rw [he', ht, hcfg, List.append_assoc]
  · rw [hcfg, busRun_append, hr, Option.bind_some, hb']

/-- At every moment of a turn the record is the beginning of one that obeys. -/
theorem recordBegins_moment {w : Work} {s : State} (j : Nat) (h : BusKept s) :
    RecordBegins (momentAt j (workMoments w) s) := by
  rcases constructing_or_not w with ⟨cfg, u, rfl⟩ | hw
  · change RecordBegins (momentAt j (constructMoments cfg u) s)
    have hc := construct_moment j cfg u s
    generalize momentAt j (constructMoments cfg u) s = v at hc ⊢
    rcases hc with rfl | rfl | ⟨hcfg, -, later, ht⟩
    · exact recordBegins_of_busKept h
    · exact recordBegins_of_busKept (s := s) h
    · exact .inr ⟨later, [], _, by rw [ht, hcfg, List.append_nil], rfl⟩
  · exact (recordBegins_of_busKept (busKept_work h)).before ((stepwise_work w s hw).at j).2

/-- Settles O34: the whole of a turn takes the bus on to one between two frames, and every moment of it has recorded the
beginning of what the whole records. -/
theorem busProtocolIsKept : Obligations.BusProtocolIsKept := by
  unfold Obligations.BusProtocolIsKept
  intro s t hs h
  have hs : BusKept (afterSlot s) := hs
  rcases step_moment h with ⟨w, -, rfl⟩ | ⟨e, -, rfl⟩ | ⟨w, j, e, -, rfl⟩
  · exact busKept_work hs
  · exact busKept_endWith e (recordBegins_of_busKept hs)
  · exact busKept_endWith e (recordBegins_moment j hs)

end Sys2Proof.Machine
end

section
/-!
PROOF of O36. The whole of a turn keeps a settled block settled (`settled_work`); a turn cut short marks or stops the block, or
constructs it anew (`sound_construct`).
-/

namespace Sys2Proof.Machine

open Sys2Proof.Safety

/-! ### What a read leaves alone -/

/-- A frame writes no channel state and nothing but the pins, the driver registers, the position and the record. -/
theorem readFrame_kept (c : Chan) (s : State) : (readFrame c s).st = s.st ∧ Kept s (readFrame c s) := by
  obtain ⟨f, -, h⟩ := readFrame_spec c s
  rw [h]
  exact ⟨rfl, rfl, rfl, rfl, rfl, rfl, rfl, rfl, rfl⟩

theorem pollStep_kept (k : Nat) (s : State) : Kept s (pollStep k s).2 := by
  obtain ⟨f, -, h⟩ := pollStep_spec k s
  rw [h]
  exact ⟨rfl, rfl, rfl, rfl, rfl, rfl, rfl, rfl⟩

theorem kept_cfg {s t : State} (h : Kept s t) : t.cfg = s.cfg := h.1

theorem kept_running {s t : State} (h : Kept s t) : t.running = s.running := h.2.2.1

/-! ### A settled block -/

/-- A settled block but for its position: what every frame and every response leaves true. -/
def Grounded (s : State) : Prop :=
  configWf s.cfg = true ∧ Equipped s.handles ∧ s.st.length = s.cfg.channels.length ∧ s.fault = none ∧
    s.cs = (!s.cfg.csActive) ∧ s.clk = false ∧ (1 ≤ s.n ∧ s.n ≤ 18)

theorem settled_iff {s : State} : Settled s ↔ Grounded s ∧ Resting s := by
  simp only [Settled, Grounded, and_assoc]

theorem grounded_frame (c : Chan) {s : State} (h : Grounded s) : Grounded (readFrame c s) := by
  obtain ⟨h1, h2, h3, h4, -, -, -⟩ := h
  obtain ⟨f, -, hf⟩ := readFrame_spec c s
  rw [hf]
  exact ⟨h1, h2, h3, h4, rfl, rfl, by simp [FrameDraw.after]⟩

theorem grounded_setPos (p : Pos) {s : State} (h : Grounded s) : Grounded (setPos p s) := h

theorem grounded_setTouch (k : Nat) (x : Touch) {s : State} (h : Grounded s) : Grounded (setTouch k x s) := by
  simpa [Grounded] using h

theorem grounded_pollStep (k : Nat) {s : State} (h : Grounded s) : Grounded (pollStep k s).2 :=
  grounded_setTouch k _ (grounded_setPos (.polling k) (grounded_frame _ h))

/-- A block that goes back to `Idle` outside RUN is at rest. -/
theorem settled_setPos_idle {s : State} (h : Grounded s) (hr : s.running = false) : Settled (setPos .idle s) :=
  settled_iff.2 ⟨h, .inl ⟨rfl, hr⟩⟩

theorem settled_finish (r : Response) {s : State} (h : Grounded s) (hr : s.running = false) : Settled (finish r s) :=
  settled_setPos_idle (s := emit (.response r) s) h hr

/-- A pass stops at rest: at its end, or at a press event for a position of the table. -/
theorem settled_passFrom (k : Nat) {s : State} (h : Grounded s) : Settled (passFrom k s) := by
  have poll : ∀ k t, Grounded t ∧ t.cfg = s.cfg →
      Grounded (pollStep k (setPos (.passing k) t)).2 ∧ (pollStep k (setPos (.passing k) t)).2.cfg = s.cfg := fun k t ht =>
    ⟨grounded_pollStep k (grounded_setPos _ ht.1), (kept_cfg (pollStep_kept k _)).trans ht.2⟩
  rcases passFrom_cases (fun t => Grounded t ∧ t.cfg = s.cfg) poll k s ⟨h, rfl⟩ with
    ⟨t, ⟨ht, -⟩, hp⟩ | ⟨j, e, t, he, -, ⟨ht, hc⟩, hp⟩ <;> rw [hp]
  · unfold endPass
    split
    · next hr => exact settled_iff.2 ⟨ht, .inr (.inl ⟨rfl, hr⟩)⟩
    · next hr => exact settled_finish _ ht (by simpa using hr)
  · obtain ⟨hj, -⟩ := List.getElem?_eq_some_iff.1 he
    exact settled_iff.2 ⟨ht, .inr (.inr ⟨j, rfl, by rwa [dispatch_cfg, hc]⟩)⟩

/-- An operation that a settled block takes leaves it settled. -/
theorem settled_exec {i : Instr} {s t : State} (h : Settled s) (hr : s.running = false)
    (hi : exec i s = .next t) : Settled t := by
  obtain ⟨hg, -⟩ := settled_iff.1 h
  cases i with
  | readChannel ch =>
    obtain rfl : _ = t := Host.Outcome.next.inj hi
    split
    · exact settled_finish _ (grounded_frame _ hg) ((kept_running (readFrame_kept _ s).2).trans hr)
    · exact settled_finish _ hg hr
  | poll k =>
    obtain rfl : _ = t := Host.Outcome.next.inj hi
    split
    · exact h
    · exact settled_finish _ (grounded_pollStep k hg) ((kept_running (pollStep_kept k s)).trans hr)
  | pollPass =>
    obtain rfl : _ = t := Host.Outcome.next.inj hi
    exact settled_passFrom 0 hg
  | run =>
    obtain rfl : _ = t := Host.Outcome.next.inj hi
    exact settled_passFrom 0 (s := { s with running := true }) hg
  | spiFrameRead c =>
    obtain rfl : _ = t := Host.Outcome.next.inj hi
    exact settled_setPos_idle (grounded_frame c hg) ((kept_running (readFrame_kept c s).2).trans hr)

theorem settled_work {w : Work} (hw : ∀ cfg u, w ≠ .constructing cfg u) {s : State} (h : Settled s) :
    Settled (ends (workMoments w) s) := by
  obtain ⟨hg, -⟩ := settled_iff.1 h
  rcases ends_work_cases w s hw with hs | ⟨-, ⟨r, hs⟩ | ⟨k, -, hs⟩ | ⟨k, -, hs⟩ | ⟨-, hr, i, hi⟩⟩
  · rwa [hs]
  · rw [hs]
    exact h
  · rw [hs]
    exact settled_passFrom k hg
  · rw [hs]
    exact settled_passFrom (k + 1) (s := emit .completed s) hg
  · exact settled_exec h hr hi

theorem equipped_of_handleOf {h : Handles} (hh : ∀ q, (handleOf h q).isSome) : Equipped h :=
  ⟨hh .cs, hh .clk, hh .mosi, hh .miso⟩

/-- A construction leaves a mark, a block at rest, or a failed block, whatever the block was before. -/
theorem sound_construct (cfg : Config) (un : List Int) (s : State) : Sound (construct cfg un s) := by
  rcases construct_cases cfg un s with ⟨-, hc⟩ | ⟨hwf, hs, p, ⟨hc, hh⟩ | ⟨r, hc⟩⟩ <;> rw [hc]
  · exact .inl (.inr (.inr rfl))
  · exact .inr (.inl ⟨hwf, equipped_of_handleOf hh, by simp [idlePins, blank], rfl, rfl, rfl, by simp [idlePins, blank],
      .inl ⟨rfl, rfl⟩⟩)
  · exact .inr (.inr ⟨rfl, ⟨r, rfl⟩, rfl⟩)

theorem sound_endWith (e : Ending) (s : State) : Sound (endWith e s) := by
  cases e with
  | stop => exact .inl (.inl rfl)
  | construct cfg un => exact sound_construct cfg un (halt s)
  | drive p l => exact .inl (.inr (.inl rfl))

theorem sound_work {w : Work} {s : State} (h : Sound s) : Sound (ends (workMoments w) s) := by
  rcases constructing_or_not w with ⟨cfg, u, rfl⟩ | hw
  · rw [ends_work_constructing]
    exact sound_construct cfg u s
  rcases ends_work_cases w s hw with hs | ⟨hm, -⟩
  · rwa [hs]
  rcases h with h | h | ⟨h, -⟩
  · exact absurd h (not_cutShort_of_mayStep hm)
  · exact .inr (.inl (settled_work hw h))
  · exact absurd h (mayStep_iff.1 hm).2.1

/-- Settles O36: a turn that is whole keeps the invariant, and every way to end one early leaves a block that is cut short or
has been constructed anew. -/
theorem soundIsKept : Obligations.SoundIsKept := by
  unfold Obligations.SoundIsKept
  intro s t hs h
  have hs : Sound (afterSlot s) := hs
  rcases step_moment h with ⟨w, -, rfl⟩ | ⟨e, -, rfl⟩ | ⟨w, j, e, -, rfl⟩
  · exact sound_work hs
  · exact sound_endWith e _
  · exact sound_endWith e _

/-- Settles O37. -/
theorem soundHoldsAtReset : Obligations.SoundHoldsAtReset :=
  ⟨by decide, ⟨rfl, rfl, rfl, rfl⟩, rfl, rfl, rfl, rfl, by decide, .inl ⟨rfl, rfl⟩⟩

end Sys2Proof.Machine
end

section
/-!
PROOF of O18, O19 and O20. Chip-select idles before every frame: for a step, because the checker that its record obeys admits
no other CS assertion (`gapsKept_run`); for one read, by what `readFrame_spec` says of its record.
-/

namespace Sys2Proof.Machine

open Sys2Proof.Safety

/-! ### Idle gaps in a record the checker admits -/

/-- The checker has come from `b` to `c` over the record `es`. A gap it holds is the last event, and long enough; once a frame or
a gap has been seen, a gap is held, or a frame is open, or a frame has ended. -/
structure GapsKept (cfg : Config) (b : Bus) (es : List Event) (c : Bus) : Prop where
  held : c.gap = true → c.cs = (!cfg.csActive) ∧ c.outstanding = false ∧
    ∃ earlier ns, es = earlier ++ [.csIdle ns] ∧ (0 < b.frames ∨ csIdles earlier ≠ [] → cfg.tCsIdleMin ≤ ns)
  seen : 0 < b.frames ∨ csIdles es ≠ [] → c.gap = true ∨ c.cs = cfg.csActive ∨ 0 < c.frames

/-- Every event but a gap leaves no gap held; it opens a frame, or leaves one open or ended. -/
theorem busStep_gap {cfg : Config} {c c' : Bus} {e : Event} (h : busStep cfg c e = some c') (he : csIdles [e] = [])
    (hc : c.gap = true → c.cs = (!cfg.csActive) ∧ c.outstanding = false) :
    c'.gap = false ∧ (c.gap = true ∨ c.cs = cfg.csActive ∨ 0 < c.frames → c'.cs = cfg.csActive ∨ 0 < c'.frames) := by
  have opened : c.cs = cfg.csActive → c.gap = false := fun h => by
    cases hg : c.gap with
    | false => rfl
    | true => simp [(hc hg).1] at h
  have same : c.gap = false → c'.gap = c.gap ∧ c'.cs = c.cs ∧ c'.frames = c.frames →
      c'.gap = false ∧ (c.gap = true ∨ c.cs = cfg.csActive ∨ 0 < c.frames → c'.cs = cfg.csActive ∨ 0 < c'.frames) := by
    rintro hg ⟨h1, h2, h3⟩
    simp [h1, h2, h3, hg]
  rcases e with ⟨⟨_ | _ | _, l⟩ | _ | ⟨_ | _, _⟩⟩ | _ | _ | _ | _
  case pin.write.cs =>
    simp only [busStep] at h
    split at h <;> simp only [Option.ite_none_right_eq_some, Option.some.injEq] at h
    · next hl =>
      obtain ⟨-, rfl⟩ := h
      exact ⟨rfl, fun _ => .inl hl⟩
    · obtain ⟨⟨h1, -⟩, rfl⟩ := h
      exact ⟨opened h1, fun _ => .inr (Nat.succ_pos _)⟩
  case pin.write.clk =>
    cases l <;> simp only [busStep, Option.ite_none_right_eq_some, Option.some.injEq] at h <;> obtain ⟨⟨h1, -⟩, rfl⟩ := h
    · exact same (opened h1) ⟨rfl, rfl, rfl⟩
    · exact same (opened h1) ⟨rfl, rfl, rfl⟩
  case csIdle => simp [csIdles] at he
  case completed =>
    simp only [busStep, Option.ite_none_right_eq_some, Option.some.injEq] at h
    obtain ⟨h1, rfl⟩ := h
    exact same (by cases hg : c.gap with
      | false => rfl
      | true => simp [(hc hg).2] at h1) ⟨rfl, rfl, rfl⟩
  case response | press =>
    simp only [busStep, Option.ite_none_right_eq_some, Option.some.injEq] at h
    obtain ⟨⟨-, -, h1⟩, rfl⟩ := h
    exact same h1 ⟨rfl, rfl, rfl⟩
  all_goals
    simp only [busStep, Option.ite_none_right_eq_some, Option.some.injEq] at h
    obtain ⟨⟨h1, -⟩, rfl⟩ := h
    exact same (opened h1) ⟨rfl, rfl, rfl⟩

/-- One event more. -/
theorem gapsKept_step {cfg : Config} {b c c' : Bus} {es : List Event} {e : Event} (h : GapsKept cfg b es c)
    (hs : busStep cfg c e = some c') : GapsKept cfg b (es ++ [e]) c' := by
  by_cases he : csIdles [e] = []
  · obtain ⟨h1, h2⟩ := busStep_gap hs he fun hg => ⟨(h.held hg).1, (h.held hg).2.1⟩
    exact ⟨by simp [h1], fun hp => .inr (h2 (h.seen (by simpa [he] using hp)))⟩
  · obtain ⟨ns, rfl⟩ : ∃ ns, e = .csIdle ns := by
      cases e with
      | csIdle ns => exact ⟨ns, rfl⟩
      | _ => exact absurd rfl he
    simp only [busStep, Option.ite_none_right_eq_some, Option.some.injEq] at hs
    obtain ⟨⟨h1, h2, h3, h4⟩, rfl⟩ := hs
    refine ⟨fun _ => ⟨h1, h2, es, ns, rfl, fun hp => h4 ?_⟩, fun _ => .inl rfl⟩
    simpa [h1, h3] using h.seen hp

theorem gapsKept_run {cfg : Config} {b c : Bus} {es : List Event} (hb : b.gap = false) (h : busRun cfg b es = some c) :
    GapsKept cfg b es c := by
  induction es using List.reverseRecOn generalizing c with
  | nil =>
    obtain rfl : b = c := by simpa [busRun] using h
    exact ⟨by simp [hb], fun hp => .inr (.inr (by simpa [csIdles] using hp))⟩
  | append_singleton es e ih =>
    rw [busRun_append] at h
    obtain ⟨c1, h1, h2⟩ := Option.bind_eq_some_iff.1 h
    exact gapsKept_step (ih h1) (by simpa [busRun] using h2)

/-- In a record the checker admits, each CS assertion stands right after an idle gap that is long enough. -/
theorem gap_before_assertion {cfg : Config} {b c : Bus} {before after : List Event} (hb : b.gap = false)
    (h : busRun cfg b (before ++ .pin (.write .cs cfg.csActive) :: after) = some c) :
    ∃ earlier ns, before = earlier ++ [.csIdle ns] ∧ (0 < b.frames ∨ csIdles earlier ≠ [] → cfg.tCsIdleMin ≤ ns) := by
  rw [busRun_append] at h
  obtain ⟨c1, h1, h2⟩ := Option.bind_eq_some_iff.1 h
  rw [busRun] at h2
  obtain ⟨c2, h3, -⟩ := Option.bind_eq_some_iff.1 h2
  simp only [busStep, if_true, Option.ite_none_right_eq_some] at h3
  obtain ⟨⟨-, -, -, hg⟩, -⟩ := h3
  obtain ⟨-, -, h⟩ := (gapsKept_run hb h1).held hg
  exact h

/-- The bus between two frames of a block whose levels nothing is known of. -/
def freshBus (s : State) : Bus := ⟨!s.cfg.csActive, false, false, 0, 0, none, awaiting s.pc, s.frames, false⟩

/-- Settles O18: what the step recorded is the beginning of a record that the checker admits, whatever the levels were. -/
theorem chipSelectIdlesBetweenFrames : Obligations.ChipSelectIdlesBetweenFrames := by
  unfold Obligations.ChipSelectIdlesBetweenFrames
  intro s t hb h
  obtain ⟨w, u, hw, -, hu, ⟨later, hl⟩, ht, -⟩ := step_onward hb h
  obtain ⟨first, hf⟩ := hu.trace
  obtain ⟨-, es, he, hr⟩ := obeys_work hw (afterSlot s)
  obtain ⟨b', hb', -⟩ := hr (freshBus s) ⟨rfl, rfl, rfl, rfl, rfl⟩
  obtain rfl : first ++ later = es := by simpa [hl, hf] using he
  refine ⟨first, ht.trace.trans hf, ?_⟩
  rintro before after rfl
  exact gap_before_assertion (b := freshBus s) (after := after ++ later) rfl (by simpa using hb')

/-! ### The single reads -/

/-- From `s` to `t` one idle gap is recorded, first and right before a CS assertion, and it is long enough. -/
def OneGapFirst (s t : State) : Prop :=
  ∃ ns es, t.trace = s.trace ++ .csIdle ns :: .pin (.write .cs s.cfg.csActive) :: es ∧ csIdles es = [] ∧
    (0 < s.frames → s.cfg.tCsIdleMin ≤ ns)

theorem oneGapFirst_readFrame (c : Chan) (s : State) : OneGapFirst s (readFrame c s) := by
  obtain ⟨f, hf, h⟩ := readFrame_spec c s
  have hg := csIdles_record f s.cfg c
  rw [h]
  refine ⟨f.gap, _, rfl, by simpa [FrameDraw.record, csIdles] using hg, fun hp => ?_⟩
  have := hf.gap_min
  rwa [if_neg (by omega)] at this

theorem oneGapFirst_setPos_setTouch {s t : State} (p : Pos) (k : Nat) (x : Touch) (h : OneGapFirst s t) :
    OneGapFirst s (setTouch k x (setPos p t)) := h

theorem oneGapFirst_pollStep (k : Nat) (s : State) : OneGapFirst s (pollStep k s).2 :=
  oneGapFirst_setPos_setTouch (.polling k) k _ (oneGapFirst_readFrame (channelAt s.cfg k) s)

theorem oneGapFirst_finish {s t : State} (r : Response) (h : OneGapFirst s t) : OneGapFirst s (finish r t) := by
  obtain ⟨ns, es, ht, he, hn⟩ := h
  exact ⟨ns, es ++ [.response r], by simp [ht], by simp [he, csIdles], hn⟩

/-- Settles O19: each of the three operations is one frame, with a response after it or none. -/
theorem eachReadKeepsTheIdleTime : Obligations.EachReadKeepsTheIdleTime := by
  unfold Obligations.EachReadKeepsTheIdleTime
  rintro s i (⟨ch, rfl, h0, h7⟩ | ⟨c, rfl⟩ | ⟨k, rfl, hk⟩)
  · have hv : channelValid ch = true := by simp [channelValid, h0, h7]
    obtain ⟨ns, es, h⟩ := oneGapFirst_finish ⟨statusOk, sampleValue (readFrame (chanBits ch) s).acc⟩
      (oneGapFirst_readFrame (chanBits ch) s)
    exact ⟨_, ns, es, by rw [exec, execReadChannel, if_pos hv], h⟩
  · obtain ⟨ns, es, h⟩ := oneGapFirst_readFrame c s
    exact ⟨_, ns, es, rfl, h⟩
  · obtain ⟨ns, es, h⟩ := oneGapFirst_finish ⟨statusOk, pressValue (pollStep k s).1⟩
      (oneGapFirst_pollStep k s)
    exact ⟨_, ns, es, by rw [exec, execPoll, if_neg (by omega)], h⟩

theorem kept_setPos {s t : State} (p : Pos) (h : t.st = s.st ∧ Kept s t) : (setPos p t).st = s.st ∧ Kept s (setPos p t) := h

theorem kept_finish {s t : State} (r : Response) (h : t.st = s.st ∧ Kept s t) :
    (finish r t).st = s.st ∧ Kept s (finish r t) := h

/-- Settles O20: neither a frame nor a response writes any of these. -/
theorem driverOperationsLeaveTheRest : Obligations.DriverOperationsLeaveTheRest := by
  unfold Obligations.DriverOperationsLeaveTheRest
  rintro s t i (⟨ch, rfl⟩ | ⟨c, rfl⟩) h
  · obtain rfl : _ = t := Host.Outcome.next.inj h
    split
    · exact kept_finish _ (readFrame_kept (chanBits ch) s)
    · exact kept_finish _ ⟨rfl, rfl, rfl, rfl, rfl, rfl, rfl, rfl, rfl⟩
  · obtain rfl : _ = t := Host.Outcome.next.inj h
    exact kept_setPos _ (readFrame_kept c s)

end Sys2Proof.Machine
end

section
/-!
PROOF of O33, O38, O39, O40 and O42. What a step leaves alone, by `step_onward` where the host constructs nothing and by
`construct_cases` where it does; and that a running block neither responds nor goes idle.
-/

namespace Sys2Proof.Machine

open Sys2Proof.Safety

/-! ### Steps in which the host constructs nothing -/

/-- Settles O39. -/
theorem onlyConstructionWritesHandlesAndFault : Obligations.OnlyConstructionWritesHandlesAndFault := by
  unfold Obligations.OnlyConstructionWritesHandlesAndFault
  intro s t hb h
  obtain ⟨w, u, -, -, hu, -, ht, -⟩ := step_onward hb h
  exact ⟨ht.handles.trans hu.handles, ht.fault.trans hu.fault, ht.platform.trans hu.platform⟩

/-- A turn that serves a RUN has its words in the slot. -/
theorem servesRun_iff {w : Work} : servesRun w = true ↔ ∃ c, w = .serving c ∧ decode c = .ok .run := by
  cases w <;> simp [servesRun]

/-- Settles O40: the only primitive that writes `running` is the first one of RUN. -/
theorem onlyRunSetsRunning : Obligations.OnlyRunSetsRunning := by
  unfold Obligations.OnlyRunSetsRunning
  intro s t hb h hne
  obtain ⟨w, u, -, -, hu, -, ht, hm⟩ := step_onward hb h
  rcases hu.running with hs | ⟨hs, -⟩
  · exact absurd (ht.running.trans hs) hne
  · simp only [Bool.and_eq_true, Bool.not_eq_true'] at hs
    obtain ⟨⟨hw, -⟩, hf⟩ := hs
    obtain ⟨c, rfl, hc⟩ := servesRun_iff.1 hw
    exact ⟨hf, c, hc, hm.resolve_left (by simp)⟩

/-! ### A running block -/

/-- From `s` to `t` no response is recorded, and `running` is as it was. -/
def Silent (s t : State) : Prop := t.running = s.running ∧ ∃ es, t.trace = s.trace ++ es ∧ responses es = []

theorem Silent.refl (s : State) : Silent s s := ⟨rfl, [], by simp, rfl⟩

theorem Silent.trans {s t u : State} (h : Silent s t) (h' : Silent t u) : Silent s u := by
  obtain ⟨hr, es, he, h0⟩ := h
  obtain ⟨hr', es', he', h0'⟩ := h'
  exact ⟨hr'.trans hr, es ++ es', by rw [he', he, List.append_assoc], by simp [h0, h0']⟩

theorem silent_setPos (p : Pos) (s : State) : Silent s (setPos p s) := Silent.refl s

theorem silent_emit {e : Event} (he : responses [e] = []) (s : State) : Silent s (emit e s) := ⟨rfl, [e], rfl, he⟩

theorem silent_pollStep (k : Nat) (s : State) : Silent s (pollStep k s).2 := by
  obtain ⟨f, -, h⟩ := pollStep_spec k s
  rw [h]
  exact ⟨rfl, f.record s.cfg (channelAt s.cfg k), rfl, responses_record f s.cfg _⟩

/-- A pass of RUN ends, or waits, without a response. -/
theorem silent_passFrom (k : Nat) {s : State} (hr : s.running = true) : Silent s (passFrom k s) := by
  have poll : ∀ k t, Silent s t → Silent s (pollStep k (setPos (.passing k) t)).2 := fun k t h =>
    (h.trans (silent_setPos (.passing k) t)).trans (silent_pollStep k _)
  rcases passFrom_cases (Silent s) poll k s (Silent.refl s) with ⟨t, ht, h⟩ | ⟨j, e, t, -, -, ht, h⟩ <;> rw [h]
  · rw [endPass, if_pos (ht.1.trans hr)]
    exact ht.trans (silent_setPos _ t)
  · exact ht.trans ((silent_setPos (.dispatching j) t).trans (silent_emit rfl _))

/-- The whole of a turn of a running block makes no response. -/
theorem silent_work {w : Work} {s : State} (hw : ∀ cfg u, w ≠ .constructing cfg u) (hr : s.running = true) :
    Silent s (ends (workMoments w) s) := by
  rcases ends_work_cases w s hw with h | ⟨-, ⟨r, h⟩ | ⟨k, -, h⟩ | ⟨k, -, h⟩ | ⟨-, hf, -⟩⟩
  · rw [h]
    exact Silent.refl s
  · rw [h]
    exact Silent.refl s
  · rw [h]
    exact silent_passFrom k hr
  · rw [h]
    exact (silent_emit rfl s).trans (silent_passFrom (k + 1) (s := emit .completed s) hr)
  · simp [hr] at hf

/-- At every moment of a turn a running block that is not idle is still running and not idle. -/
theorem running_moment {w : Work} {s u : State} (hw : ∀ cfg v, w ≠ .constructing cfg v) (hr : s.running = true)
    (hp : s.pc ≠ .idle) (hu : u ∈ workMoments w s) : u.running = true ∧ u.pc ≠ .idle := by
  cases w with
  | constructing cfg v => exact absurd rfl (hw cfg v)
  | waiting =>
    simp only [workMoments] at hu
    split at hu
    · unfold advanceMoments at hu
      split at hu
      · exact pass_running _ _ s hr hp u hu
      · cases hu
    · cases hu
  | serving c =>
    simp only [workMoments, codeMoments, hp, false_and, if_false] at hu
    split at hu
    · obtain rfl := List.mem_singleton.1 hu
      exact ⟨hr, hp⟩
    · cases hu
  | completing =>
    simp only [workMoments] at hu
    split at hu
    · unfold completionMoments at hu
      split at hu
      · rcases List.mem_append.1 hu with hu | hu
        · obtain rfl := List.mem_singleton.1 hu
          exact ⟨hr, hp⟩
        · exact pass_running _ _ (emit .completed s) hr hp u hu
      · obtain rfl := List.mem_singleton.1 hu
        exact ⟨hr, hp⟩
    · cases hu

/-- Settles O33: every moment of the turn is running and not idle, and the whole turn responds to nothing. -/
theorem runNeverEndsNorResponds : Obligations.RunNeverEndsNorResponds := by
  unfold Obligations.RunNeverEndsNorResponds
  intro s t hr hp hb h _
  obtain ⟨w, u, hw, hm, hu, ⟨later, hl⟩, ht, -⟩ := step_onward hb h
  have still : u.running = true ∧ u.pc ≠ .idle := by
    rcases hm with rfl | hm
    · exact ⟨hr, hp⟩
    · exact running_moment (s := afterSlot s) hw hr hp hm
  obtain ⟨first, hf⟩ := hu.trace
  obtain ⟨-, es, he, hn⟩ := silent_work hw (s := afterSlot s) hr
  obtain rfl : first ++ later = es := by simpa [hl, hf] using he
  rw [responses_append] at hn
  rw [ht.running, ht.pc]
  exact ⟨still.1, still.2, first, ht.trace.trans hf, (List.append_eq_nil_iff.1 hn).1⟩

/-! ### Constructions -/

theorem step_construct {s : State} {cfg : Config} {un : List Int} (h : nextMove s = some (.construct cfg un)) :
    step s = .next (construct cfg un (afterSlot s)) := by
  rw [step, h, turn]

/-- A reset inside a turn is a stop at its moment, and then the construction. -/
theorem step_during_construct {s : State} {w : Work} {j : Nat} {cfg : Config} {un : List Int}
    (h : nextMove s = some (.during w j (.construct cfg un))) :
    step s = .next (construct cfg un (halt (momentAt j (workMoments w) (afterSlot s)))) := by
  rw [step, h, turn, hostActs, if_pos rfl, cutTurn, endWith]

theorem construct_cfg (cfg : Config) (un : List Int) (s : State) :
    (construct cfg un s).cfg = if configWf cfg then cfg else s.cfg := by
  rcases construct_cases cfg un s with ⟨hwf, hc⟩ | ⟨hwf, hs, p, ⟨hc, -⟩ | ⟨r, hc⟩⟩ <;> rw [hc, hwf] <;> rfl

/-- Settles O38. -/
theorem onlyConstructionConfigures : Obligations.OnlyConstructionConfigures := by
  unfold Obligations.OnlyConstructionConfigures
  intro s t h
  refine ⟨fun hb => ?_, fun cfg un hm => ?_, fun w j cfg un hm hwf => ?_, fun w j cfg un hm hwf hw => ?_⟩
  · obtain ⟨w, u, -, -, hu, -, ht, -⟩ := step_onward hb h
    exact ht.cfg.trans hu.cfg
  · obtain rfl := Host.Outcome.next.inj ((step_construct hm).symm.trans h)
    exact construct_cfg cfg un _
  · obtain rfl := Host.Outcome.next.inj ((step_during_construct hm).symm.trans h)
    rw [construct_cfg, if_pos hwf]
  · obtain rfl := Host.Outcome.next.inj ((step_during_construct hm).symm.trans h)
    rw [construct_cfg, if_neg (by simp [hwf])]
    exact ((stepwise_work w (afterSlot s) hw).at j).1.cfg

/-- A platform that can provide every line fails no acquisition. -/
theorem acquirePins_not_failed (rs : List Role) {s : State} (h : s.pc ≠ .failed) : (acquirePins [] rs s).pc ≠ .failed := by
  induction rs generalizing s with
  | nil => exact h
  | cons r rs ih =>
    rw [acquirePins]
    have ha : (acquire [] (pinOf s.cfg r) s.platform).isSome := acquire_isSome.2 (.inr List.not_mem_nil)
    split
    · next hn => simp [hn] at ha
    · exact ih (by cases r <;> exact h)

/-- A well-formed construction with every line at hand leaves the block as it is right after reset. -/
theorem construct_at_hand {cfg : Config} (hwf : configWf cfg = true) (s : State) :
    ∃ hs p, construct cfg [] s = idlePins { blank cfg s with handles := hs, platform := p } ∧ Equipped hs := by
  rcases construct_cases cfg [] s with ⟨hn, -⟩ | ⟨-, hs, p, ⟨hc, hh⟩ | ⟨r, hc⟩⟩
  · simp [hn] at hwf
  · exact ⟨hs, p, hc, equipped_of_handleOf hh⟩
  · have hn := acquirePins_not_failed acquisitionOrder (s := blank cfg s) (by simp [blank])
    rw [construct, if_pos hwf] at hc
    simp [hc] at hn

/-- No moment of a turn reads a slot. -/
theorem momentAt_inputs (w : Work) (j : Nat) (s : State) : (momentAt j (workMoments w) s).inputs = s.inputs := by
  rcases constructing_or_not w with ⟨cfg, u, rfl⟩ | hw
  · rcases construct_moment j cfg u s with h | h | ⟨-, h, -⟩
    · exact congrArg State.inputs h
    · exact (congrArg State.inputs h).trans (refuse_inputs s _)
    · exact h
  · exact ((stepwise_work w s hw).at j).1.inputs

/-- Settles O42: the construction starts from the stopped block, of which it keeps only the slots to come, the draws and the
platform. -/
theorem resetInsideATurnGivesTheResetValues : Obligations.ResetInsideATurnGivesTheResetValues := by
  unfold Obligations.ResetInsideATurnGivesTheResetValues
  intro s w j cfg rest hwf hi
  have hm : nextMove s = some (.during w j (.construct cfg [])) := by simp [nextMove, hi]
  have hin := momentAt_inputs w j (afterSlot s)
  obtain ⟨hs, p, hc, he⟩ := construct_at_hand hwf (halt (momentAt j (workMoments w) (afterSlot s)))
  refine ⟨_, step_during_construct hm, ?_⟩
  rw [hc]
  exact ⟨rfl, he, rfl, rfl, rfl, rfl, rfl, rfl, rfl, rfl, rfl, rfl, by simpa [idlePins, blank, hi] using hin⟩

end Sys2Proof.Machine
end

section
/-!
PROOF of O48, O49, O54, O56 and O57: what the gate, a refused configuration and an idle block answer, and the reset state.
-/

namespace Sys2Proof.Machine

open Sys2Proof.Safety

/-- Where the host neither stops nor constructs the block, the step goes through the gate. -/
theorem step_eq_gate {s : State} (h : endsTheBlock (nextMove s) = false) : ∃ act, step s = gate act (afterSlot s) := by
  unfold step
  rcases hm : nextMove s with _ | m <;> rw [hm] at h
  · exact ⟨advance, rfl⟩
  cases m with
  | construct cfg u => cases h
  | stop => cases h
  | issue c => exact ⟨takeCode c, rfl⟩
  | complete => exact ⟨takeCompletion, rfl⟩
  | drive p l => exact ⟨fun s => .next (refuse .pinInterference s), rfl⟩
  | during w j e =>
    have h : hostActs w e = false := h
    exact ⟨cutTurn w j e, by simp [turn, h]⟩

/-- Settles O48. -/
theorem failedBlockTakesNoStep : Obligations.FailedBlockTakesNoStep := by
  unfold Obligations.FailedBlockTakesNoStep
  intro s pin hp hf hs he
  obtain ⟨act, h⟩ := step_eq_gate he
  simp [h, gate, hs, hp, failedFault, hf]

/-- Settles O49. -/
theorem markedBlockHasNoMeaning : Obligations.MarkedBlockHasNoMeaning := by
  unfold Obligations.MarkedBlockHasNoMeaning
  intro s r hp hr hs he
  obtain ⟨act, h⟩ := step_eq_gate he
  simp [h, gate, hs, hp, hr]

/-- A configuration that breaks one of the spec's conditions is not well-formed (spec/10_state.md R20, R23, R26). -/
theorem configWf_eq_false {cfg : Config}
    (h : cfg.releaseLow ≤ cfg.pressThreshold ∨ cfg.releaseHigh ≤ cfg.releaseLow ∨
      (∃ e ∈ cfg.channels, e.ch < 0 ∨ 7 < e.ch) ∨ ¬ [cfg.pinCs, cfg.pinClk, cfg.pinMosi, cfg.pinMiso].Nodup) :
    configWf cfg = false := by
  rw [Bool.eq_false_iff]
  intro hwf
  simp only [configWf, thresholdsWf, channelsWf, pinsWf, Bool.and_eq_true, decide_eq_true_eq, List.all_eq_true] at hwf
  obtain ⟨⟨⟨h1, h2⟩, h3⟩, h4⟩ := hwf
  rcases h with h | h | ⟨e, he, h⟩ | h
  · omega
  · omega
  · have := h3 e he
    omega
  · exact h h4

/-- Settles O54. -/
theorem illFormedConfigurationIsMarked : Obligations.IllFormedConfigurationIsMarked := by
  unfold Obligations.IllFormedConfigurationIsMarked
  intro s cfg u rest hi hbad
  have hm : nextMove s = some (.construct cfg u) := by simp [nextMove, hi]
  rw [step_construct hm, construct, if_neg (by simp [configWf_eq_false hbad])]
  simp [refuse, afterSlot, hi]

/-- Settles O56. -/
theorem resetStateValues : Obligations.ResetStateValues :=
  ⟨rfl, rfl, rfl, rfl, rfl, rfl, rfl, rfl, ⟨rfl, rfl, rfl, rfl⟩, rfl, fun _ => List.eq_of_mem_replicate, rfl⟩

/-- Settles O57: nothing is in the slot, and an idle block does nothing of itself. -/
theorem idleBlockWaits : Obligations.IdleBlockWaits := by
  unfold Obligations.IdleBlockWaits
  intro s rest hp hr hs hi
  simp [step, turn, nextMove, gate, advance, afterSlot, hi, hs, hp, hr]

end Sys2Proof.Machine
end

section
/-!
PROOF of O45. A frame is run from moment to moment by what each piece needs and leaves (`Runs`): the position, the pulse
register and the number of rises so far (`InRead`).
-/

namespace Sys2Proof.Machine

open Sys2Proof.Safety

/-! ### Pieces with what they need and what they leave -/

/-- From every state with `P` the piece goes through states with `M` and ends in one with `Q`. -/
def Runs (P M Q : State → Prop) (m : Moments) : Prop := ∀ s, P s → (∀ u ∈ m s, M u) ∧ Q (ends m s)

theorem runs_one {P M Q : State → Prop} {f : State → State} (h : ∀ s, P s → M (f s) ∧ Q (f s)) : Runs P M Q (one f) :=
  fun s hs => ⟨fun u hu => by
    obtain rfl := List.mem_singleton.1 hu
    exact (h s hs).1, (h s hs).2⟩

theorem runs_followedBy {P M Q R : State → Prop} {f g : Moments} (hf : Runs P M Q f) (hg : Runs Q M R g) :
    Runs P M R (followedBy f g) := fun s hs => by
  obtain ⟨h1, h2⟩ := hf s hs
  obtain ⟨h3, h4⟩ := hg _ h2
  rw [ends_followedBy]
  exact ⟨fun u hu => (List.mem_append.1 hu).elim (h1 u) (h3 u), h4⟩

theorem runs_nil {P M : State → Prop} : Runs P M P fun _ => [] := fun _ hs => ⟨by simp, hs⟩

theorem runs_of_keeps {P M : State → Prop} {m : Moments} (h : Keeps P m) (hM : ∀ u, P u → M u) : Runs P M P m :=
  fun s hs => ⟨fun u hu => hM u (h s hs u hu), h.ends hs⟩

/-- A list of pieces numbered from `k + 1` on, each of which goes on from where the one before it ends. -/
theorem runs_each {α : Type} {f : α → Moments} {number : α → Nat} {M : State → Prop} {R : Nat → State → Prop} {xs : List α}
    (h : ∀ x ∈ xs, ∀ k, number x = k + 1 → Runs (R k) M (R (k + 1)) (f x)) {k : Nat}
    (hn : xs.map number = List.range' (k + 1) xs.length) : Runs (R k) M (R (k + xs.length)) (each f xs) := by
  induction xs generalizing k with
  | nil => exact runs_nil
  | cons x xs ih =>
    simp only [List.map_cons, List.length_cons, List.range'_succ, List.cons.injEq] at hn
    have := ih (fun y hy => h y (List.mem_cons_of_mem x hy)) hn.2
    rw [Nat.add_right_comm] at this
    exact runs_followedBy (h x List.mem_cons_self k hn.1) this

/-! ### The position and the pulse register inside a frame -/

/-- `u` stands at pulse `n` of a frame begun after `s`, with `r` rising edges made. -/
structure InRead (s : State) (n r : Nat) (u : State) : Prop where
  pc : u.pc = .reading n
  n : u.n = n
  trace : ∃ es, u.trace = s.trace ++ es ∧ (writesOf .clk es).count true = r

/-- What the statement says of a moment after the idle gap. -/
def AtPulse (s u : State) : Prop :=
  ∃ n r, InRead s n r u ∧ 1 ≤ n ∧ n ≤ 18 ∧ r ≤ n ∧ n ≤ r + 1

/-- A primitive that leaves position and register alone and makes no rise. -/
theorem InRead.next {s u v : State} {n r : Nat} (h : InRead s n r u) (hp : v.pc = u.pc) (hn : v.n = u.n)
    (ht : ∃ es, v.trace = u.trace ++ es ∧ (writesOf .clk es).count true = 0) : InRead s n r v := by
  obtain ⟨es, he, hc⟩ := h.trace
  obtain ⟨es', he', hc'⟩ := ht
  exact ⟨hp.trans h.pc, hn.trans h.n, es ++ es', by rw [he', he, List.append_assoc], by simp [hc, hc']⟩

theorem inRead_mosi {s u : State} {n r : Nat} (l : Level) (h : InRead s n r u) : InRead s n r (pinWrite .mosi l u) :=
  h.next rfl rfl ⟨[_], rfl, rfl⟩

theorem inRead_wait {s u : State} {n r : Nat} (k : WaitKind) (h : InRead s n r u) : InRead s n r (waitAtLeast k u) :=
  h.next rfl rfl ⟨[_], rfl, rfl⟩

theorem inRead_rise {s u : State} {n r : Nat} (h : InRead s n r u) : InRead s n (r + 1) (pinWrite .clk high u) := by
  obtain ⟨es, he, hc⟩ := h.trace
  exact ⟨h.pc, h.n, es ++ [.pin (.write .clk high)], by simp [he], by simp [hc, writesOf]⟩

theorem inRead_fall {s u : State} {n r : Nat} (h : InRead s n r u) : InRead s n r (pinWrite .clk low u) :=
  h.next rfl rfl ⟨[_], rfl, rfl⟩

/-- Pulse `r + 1` is begun after `r` rises. -/
theorem runs_atPulse {s : State} {n r : Nat} (hr : r < 18) :
    Runs (InRead s n r) (AtPulse s) (InRead s (r + 1) r) (one (atPulse (r + 1))) :=
  runs_one fun u hu =>
    have h : InRead s (r + 1) r (atPulse (r + 1) u) := ⟨rfl, rfl, hu.trace⟩
    ⟨⟨_, _, h, by omega, by omega, by omega, by omega⟩, h⟩

/-- What keeps the place before the rise of pulse `r + 1`. -/
theorem runs_before_rise {s : State} {r : Nat} {m : Moments} (hr : r < 18) (h : Keeps (InRead s (r + 1) r) m) :
    Runs (InRead s (r + 1) r) (AtPulse s) (InRead s (r + 1) r) m :=
  runs_of_keeps h fun _ hu => ⟨_, _, hu, by omega, by omega, by omega, by omega⟩

/-- What keeps the place after the rise of pulse `r + 1`. -/
theorem runs_after_rise {s : State} {r : Nat} {m : Moments} (hr : r < 18) (h : Keeps (InRead s (r + 1) (r + 1)) m) :
    Runs (InRead s (r + 1) (r + 1)) (AtPulse s) (InRead s (r + 1) (r + 1)) m :=
  runs_of_keeps h fun _ hu => ⟨_, _, hu, by omega, by omega, by omega, by omega⟩

theorem runs_pulse {s : State} {r : Nat} (hr : r < 18) :
    Runs (InRead s (r + 1) r) (AtPulse s) (InRead s (r + 1) (r + 1)) pulseMoments := by
  have rise : Runs (InRead s (r + 1) r) (AtPulse s) (InRead s (r + 1) (r + 1)) (one (pinWrite .clk high)) :=
    runs_one fun u hu => ⟨⟨_, _, inRead_rise hu, by omega, by omega, by omega, by omega⟩, inRead_rise hu⟩
  exact runs_followedBy (runs_before_rise hr (keeps_one fun _ => inRead_wait .setup)) (runs_followedBy rise
    (runs_followedBy (runs_after_rise hr (keeps_one fun _ => inRead_wait .high))
      (runs_followedBy (runs_after_rise hr (keeps_one fun _ => inRead_fall)) runs_nil)))

theorem keeps_late {s : State} {n r : Nat} : Keeps (InRead s n r) lateMoments := fun u hu => by
  have : lateMoments u = followedBy (one fun t => { t with draws := (drawMosi t.draws).2 })
      (each (fun l => one (pinWrite .mosi l)) (drawMosi u.draws).1) u := by rw [lateMoments]
  rw [this]
  exact keeps_followedBy (keeps_one fun _ h => ⟨h.pc, h.n, h.trace⟩)
    (keeps_each fun l _ => keeps_one fun _ => inRead_mosi l) u hu

theorem keeps_shiftSample {s : State} {n r : Nat} : Keeps (InRead s n r) (one shiftSample) :=
  keeps_one fun _ h => h.next rfl rfl ⟨[_], rfl, rfl⟩

theorem runs_command {s : State} {n r : Nat} {nb : Nat × Level} (hr : r < 18) (hnb : nb.1 = r + 1) :
    Runs (InRead s n r) (AtPulse s) (InRead s (r + 1) (r + 1)) (commandMoments nb) := by
  have begun : Runs (InRead s n r) (AtPulse s) (InRead s (r + 1) r) (each one [atPulse nb.1, pinWrite .mosi nb.2]) := by
    rw [hnb]
    exact runs_followedBy (runs_atPulse hr)
      (runs_followedBy (runs_before_rise hr (keeps_one fun _ => inRead_mosi nb.2)) runs_nil)
  exact runs_followedBy begun (runs_pulse hr)

theorem runs_null {s : State} {n : Nat} : Runs (InRead s n 5) (AtPulse s) (InRead s 6 6) nullMoments :=
  runs_followedBy (runs_atPulse (by omega))
    (runs_followedBy (runs_before_rise (by omega) keeps_late) (runs_pulse (by omega)))

theorem runs_data {s : State} {n r : Nat} (hr : r < 18) :
    Runs (InRead s n r) (AtPulse s) (InRead s (r + 1) (r + 1)) (dataMoments (r + 1)) :=
  runs_followedBy (runs_atPulse hr) (runs_followedBy (runs_before_rise hr keeps_late)
    (runs_followedBy (runs_pulse hr) (runs_after_rise hr keeps_shiftSample)))

/-- Where a moment of a frame begun at `s` stands: in the idle gap, or at a pulse. -/
def InGapOrAtPulse (s u : State) : Prop :=
  (∃ es, u.trace = s.trace ++ es ∧ u.pc = s.pc ∧ pinEvents es = []) ∨ AtPulse s u

theorem Runs.weaken {P M M' Q : State → Prop} {m : Moments} (h : Runs P M Q m) (hM : ∀ u, M u → M' u) : Runs P M' Q m :=
  fun s hs => ⟨fun u hu => hM u ((h s hs).1 u hu), (h s hs).2⟩

/-- The idle gap, the beginning of the read and the CS assertion. -/
theorem runs_open (c : Chan) (s : State) : Runs (· = s) (InGapOrAtPulse s) (InRead s 1 0) (openMoments c) := by
  have gap : Runs (· = s) (InGapOrAtPulse s) (· = csIdleGap s) (one csIdleGap) :=
    runs_one fun u h => by
      subst h
      exact ⟨.inl ⟨[_], rfl, rfl, rfl⟩, rfl⟩
  have begun : InRead s 1 0 (beginRead c (csIdleGap s)) := ⟨rfl, rfl, [_], rfl, rfl⟩
  have place : ∀ u, InRead s 1 0 u → InGapOrAtPulse s u := fun u h => .inr ⟨1, 0, h, by omega⟩
  refine runs_followedBy gap (runs_followedBy (Q := InRead s 1 0) (runs_one fun u h => ?_)
    (runs_followedBy (runs_of_keeps (keeps_one fun u h => ?_) place) runs_nil))
  · rw [h]
    exact ⟨place _ begun, begun⟩
  · exact h.next rfl rfl ⟨[_], rfl, rfl⟩

/-- The eighteen pulses and the CS release. -/
theorem runs_pulses (c : Chan) (s : State) : Runs (InRead s 1 0) (AtPulse s) (InRead s 18 18)
    (followedBy (each commandMoments (commandPulses c)) (followedBy nullMoments
      (followedBy (each dataMoments dataPulses) (one closeFrame)))) := by
  have commands : Runs (InRead s 1 0) (AtPulse s) (InRead s 5 5) (each commandMoments (commandPulses c)) :=
    runs_each (R := fun k => InRead s (max 1 k) k) (k := 0) (number := Prod.fst) (fun nb hnb k hk => by
      have hk' : k < 18 := by
        have : ∀ nb ∈ commandPulses c, nb.1 ≤ 5 := by simp [commandPulses]
        have := this nb hnb
        omega
      rw [Nat.max_eq_right (Nat.le_add_left 1 k)]
      exact runs_command hk' hk) rfl
  have datas : Runs (InRead s 6 6) (AtPulse s) (InRead s 18 18) (each dataMoments dataPulses) :=
    runs_each (R := fun k => InRead s k k) (k := 6) (number := id) (fun n hn k hk => by
      obtain rfl : n = k + 1 := hk
      have : k + 1 < 7 + 12 := (List.mem_range'_1.1 hn).2
      exact runs_data (by omega)) rfl
  refine runs_followedBy commands (runs_followedBy runs_null (runs_followedBy datas
    (runs_after_rise (r := 17) (by omega) (keeps_one fun u h => ?_))))
  exact h.next rfl rfl ⟨[_], rfl, rfl⟩

/-- Settles O45: the moments of a frame, from the idle gap through the pulses in order to the CS release. -/
theorem positionInsideARead : Obligations.PositionInsideARead := by
  unfold Obligations.PositionInsideARead
  intro s u c hu
  have frame := runs_followedBy (runs_open c s) ((runs_pulses c s).weaken fun _ => .inr)
  rcases (frame s rfl).1 u hu with ⟨es, ht, hp, he⟩ | ⟨n, r, h, h1, h2, h3, h4⟩
  · exact ⟨es, ht, .inl ⟨hp, he⟩⟩
  · obtain ⟨es, ht, rfl⟩ := h.trace
    refine ⟨es, ht, .inr ?_⟩
    rw [h.n]
    exact ⟨h.pc, h1, h2, h3, h4⟩

end Sys2Proof.Machine
end

section
/-!
PROOF of O43, O44 and O51. Another agent's write ends the turn at the moment it had reached with the mark
(`step_during_drive`); what is recorded there is a beginning of the record of the whole turn (`Stepwise.beginning`), and
every beginning is that of some moment (`Stepwise.fine`).
-/

namespace Sys2Proof.Machine

open Sys2Proof.Safety

theorem gate_of_mayStep {s : State} (h : mayStep s = true) (act : State → Host.Outcome State Fault Refusal) :
    gate act s = act s := by
  obtain ⟨hs, hp, hr⟩ := mayStep_iff.1 h
  simp [gate, hs, hp, hr]

/-- A block that takes the whole of a turn that is no construction was allowed to. -/
theorem mayStep_of_ordinary {s t : State} {w : Work} (hw : ∀ cfg u, w ≠ .constructing cfg u)
    (hm : nextMove s = ordinary w) (h : step s = .next t) : mayStep (afterSlot s) = true := by
  have he : endsTheBlock (nextMove s) = false := by
    rw [hm]
    cases w with
    | constructing cfg u => exact absurd rfl (hw cfg u)
    | _ => rfl
  obtain ⟨act, hg⟩ := step_eq_gate he
  obtain ⟨hs, hp, hr, -⟩ := gate_next (hg.symm.trans h)
  exact mayStep_iff.2 ⟨hs, hp, hr⟩

/-- Another agent's write inside a turn, where the turn is a construction or the block may take a step. -/
theorem step_during_drive {s : State} {w : Work} {j : Nat} {p : OutPin} {l : Level}
    (hm : nextMove s = some (.during w j (.drive p l)))
    (ha : hostActs w (.drive p l) = true ∨ mayStep (afterSlot s) = true) :
    step s = .next (refuse .pinInterference (momentAt j (workMoments w) (afterSlot s))) := by
  rw [step, hm, turn]
  split
  · rw [cutTurn, endWith]
  · next hn => rw [gate_of_mayStep (ha.resolve_left hn), cutTurn, endWith]

/-- What a piece has recorded at a moment is a beginning of what the whole of it records. -/
theorem Stepwise.beginning {r : Bool} {m : Moments} {s : State} {es : List Event} (h : Stepwise r m s)
    (he : (ends m s).trace = s.trace ++ es) (j : Nat) :
    ∃ first later, (momentAt j m s).trace = s.trace ++ first ∧ es = first ++ later := by
  obtain ⟨first, hf⟩ := (h.at j).1.trace
  obtain ⟨later, hl⟩ := (h.at j).2.trace
  rw [hl, hf, List.append_assoc, List.append_cancel_left_eq] at he
  exact ⟨first, later, hf, he.symm⟩

/-- Settles O43: a moment of the turn is neither stopped nor failed, so that the mark alone speaks in the step after it. -/
theorem interferenceInsideATurnIsMarked : Obligations.InterferenceInsideATurnIsMarked := by
  unfold Obligations.InterferenceInsideATurnIsMarked
  intro s t w p l rest es hb h ht
  have hw : ∀ cfg u, w ≠ .constructing cfg u := by
    rintro cfg u rfl
    cases hb
  have may : mayStep { s with inputs := rest } = true :=
    mayStep_of_ordinary (s := { s with inputs := ordinary w :: rest }) hw rfl h
  have cut (j : Nat) : step { s with inputs := some (.during w j (.drive p l)) :: rest } =
      .next (refuse .pinInterference (momentAt j (workMoments w) { s with inputs := rest })) :=
    step_during_drive rfl (.inr may)
  have pieces := stepwise_work w { s with inputs := rest } hw
  obtain rfl : t = ends (workMoments w) { s with inputs := rest } := turn_ordinary h
  refine ⟨fun j => ?_, fun first later he => ?_⟩
  · obtain ⟨first, later, hf, he⟩ := pieces.beginning ht j
    refine ⟨_, first, later, cut j, rfl, hf, he, fun hn => ?_⟩
    obtain ⟨hs, hp, -⟩ := mayStep_iff.1 may
    have on := (pieces.at j).1
    exact markedBlockHasNoMeaning _ _ (hp ∘ on.alive) rfl (on.stopped.trans hs) hn
  · obtain ⟨j, hj⟩ := pieces.fine first later (he ▸ ht)
    exact ⟨j, _, cut j, rfl, hj⟩

/-- Settles O44. -/
theorem interferenceInsideAConstructionIsMarked : Obligations.InterferenceInsideAConstructionIsMarked := by
  unfold Obligations.InterferenceInsideAConstructionIsMarked
  intro s cfg u j p l rest hi
  have hm : nextMove s = some (.during (.constructing cfg u) j (.drive p l)) := by simp [nextMove, hi]
  have hin : (momentAt j (workMoments (.constructing cfg u)) (afterSlot s)).inputs = rest := by
    rw [momentAt_inputs, afterSlot_inputs, hi, List.tail_cons]
  exact ⟨_, step_during_drive hm (.inl rfl), rfl, hin⟩

/-- Settles O51: the turn goes through the gate, which lets this block pass. -/
theorem pinInterferenceIsMarked : Obligations.PinInterferenceIsMarked := by
  unfold Obligations.PinInterferenceIsMarked
  intro s p l rest hp hr hs hi
  have hm : nextMove s = some (.drive p l) := by simp [nextMove, hi]
  have may : mayStep (afterSlot s) = true := mayStep_iff.2 ⟨hs, hp, hr⟩
  rw [step, hm, turn, gate_of_mayStep may]
  simp [refuse, afterSlot, hi]

end Sys2Proof.Machine
end

section
/-!
PROOF of O1, O2, O3, O4 and O5. The decoder said once by the words it accepts (`decodeRequest_eq_ok_iff`,
`decodeFrame_eq_ok_iff`); both round trips read off that.
-/

namespace Sys2Proof

/-! ### Numbers that fit their field -/

theorem toNat_ofNat_of_lt {w m : Nat} (h : m < 2 ^ w) : (BitVec.ofNat w m).toNat = m := by
  rw [BitVec.toNat_ofNat, Nat.mod_eq_of_lt h]

theorem ofNat_eq_ofNat_iff {w m n : Nat} (hm : m < 2 ^ w) (hn : n < 2 ^ w) :
    BitVec.ofNat w m = BitVec.ofNat w n ↔ m = n := by
  rw [← BitVec.toNat_inj, toNat_ofNat_of_lt hm, toNat_ofNat_of_lt hn]

/-! ### Fields and words -/

/-- A request word is its two fields. -/
theorem requestWord_fields (w : Word40) : requestWord (opcodeOf w) (operandOf w) = w :=
  request_ext (Laws.TableRow.opcodeOf_requestWord _ _) (Laws.TableRow.operandOf_requestWord _ _)

theorem opcodeOf_ofNat {op arg : Nat} (h : arg < 4294967296) :
    opcodeOf (BitVec.ofNat 40 (op * 4294967296 + arg)) = BitVec.ofNat 8 op := by
  apply BitVec.eq_of_toNat_eq
  rw [opcodeOf_toNat, BitVec.toNat_ofNat, BitVec.toNat_ofNat]
  omega

theorem operandOf_ofNat (op arg : Nat) :
    operandOf (BitVec.ofNat 40 (op * 4294967296 + arg)) = BitVec.ofNat 32 arg := by
  apply BitVec.eq_of_toNat_eq
  rw [operandOf_toNat, BitVec.toNat_ofNat, BitVec.toNat_ofNat]
  omega

theorem frameWord_toNat (c : Chan) : (frameWord c).toNat = 24 + c.toNat := by
  revert c
  decide

/-- A word with the two fixed bits is the frame word of its channel (spec/30_encoding.md R82). -/
theorem eq_frameWord {w : FrameWord} (h : framePrefix w = 0b11#2) : w = frameWord (w.extractLsb' 0 3) := by
  revert w
  decide

/-! ### The words that decode -/

/-- The clauses of spec/30_encoding.md R91 that accept. -/
theorem decodeRequest_eq_ok_iff {w : Word40} {i : Instr} : decodeRequest w = .ok i ↔
    (opcodeOf w = 0x01#8 ∧ i = .readChannel (operandOf w).toInt) ∨
    (opcodeOf w = 0x02#8 ∧ i = .poll (operandOf w).toNat) ∨
    (opcodeOf w = 0x03#8 ∧ operandOf w = 0#32 ∧ i = .pollPass) ∨
    (opcodeOf w = 0x04#8 ∧ operandOf w = 0#32 ∧ i = .run) := by
  rw [decodeRequest]
  by_cases h1 : opcodeOf w = 0x01#8
  · simp [h1, eq_comm]
  by_cases h2 : opcodeOf w = 0x02#8
  · simp [h2, eq_comm]
  by_cases h3 : opcodeOf w = 0x03#8
  · by_cases h0 : operandOf w = 0#32 <;> simp [h3, h0, eq_comm]
  by_cases h4 : opcodeOf w = 0x04#8
  · by_cases h0 : operandOf w = 0#32 <;> simp [h4, h0, eq_comm]
  · simp [h1, h2, h3, h4]

/-- A frame word decodes exactly when it is that of a channel. -/
theorem decodeFrame_eq_ok_iff {w : FrameWord} {i : Instr} :
    decodeFrame w = .ok i ↔ ∃ c, w = frameWord c ∧ i = .spiFrameRead c := by
  have hp : ∀ c, framePrefix (frameWord c) = 0b11#2 ∧ (frameWord c).extractLsb' 0 3 = c := by decide
  unfold decodeFrame
  constructor
  · intro h
    split at h
    · next hw => exact ⟨_, eq_frameWord hw, by simpa using h.symm⟩
    · cases h
  · rintro ⟨c, rfl, rfl⟩
    obtain ⟨h1, h2⟩ := hp c
    rw [if_pos h1, h2]

/-! ### The round trips -/

/-- Settles O1: the words of each instruction satisfy the decoder's clause for it, and an operand that fits its field comes
back whole. -/
theorem decodeOfEncode : Obligations.DecodeOfEncode := by
  unfold Obligations.DecodeOfEncode
  intro i hi
  cases i with
  | readChannel ch =>
    obtain ⟨w, hw, hop, harg⟩ := Laws.TableRow.readChannel ch
    simp only [Instr.wellFormed, Bool.and_eq_true, decide_eq_true_eq] at hi
    have hch : (BitVec.ofInt 32 ch).toInt = ch := BitVec.toInt_ofInt_eq_self (by decide) hi.1 hi.2
    rw [hw, decode, decodeRequest_eq_ok_iff, harg, hch]
    exact .inl ⟨hop, rfl⟩
  | poll k =>
    obtain ⟨w, hw, hop, harg⟩ := Laws.TableRow.poll k
    have hk : (BitVec.ofNat 32 k).toNat = k := toNat_ofNat_of_lt (by simpa [Instr.wellFormed] using hi)
    rw [hw, decode, decodeRequest_eq_ok_iff, harg, hk]
    exact .inr (.inl ⟨hop, rfl⟩)
  | pollPass => rfl
  | run => rfl
  | spiFrameRead c => exact decodeFrame_eq_ok_iff.2 ⟨c, rfl, rfl⟩

/-- Settles O2: in each clause that accepts, the operand is one its field can hold, and the fields make up the word. -/
theorem encodeOfDecode : Obligations.EncodeOfDecode := by
  unfold Obligations.EncodeOfDecode
  intro c i h
  cases c with
  | request w =>
    have hw := requestWord_fields w
    rcases decodeRequest_eq_ok_iff.1 h with ⟨hop, rfl⟩ | ⟨hop, rfl⟩ | ⟨hop, harg, rfl⟩ | ⟨hop, harg, rfl⟩
    · rw [hop] at hw
      have hlo := BitVec.le_toInt (operandOf w)
      have hhi := BitVec.toInt_lt (x := operandOf w)
      refine ⟨by simpa [Instr.wellFormed] using ⟨hlo, hhi⟩, ?_⟩
      rw [encode, BitVec.ofInt_toInt, hw]
    · rw [hop] at hw
      refine ⟨decide_eq_true (operandOf w).isLt, ?_⟩
      rw [encode, BitVec.ofNat_toNat, BitVec.setWidth_eq, hw]
    · rw [hop, harg] at hw
      exact ⟨rfl, by rw [encode, hw]⟩
    · rw [hop, harg] at hw
      exact ⟨rfl, by rw [encode, hw]⟩
  | frame w =>
    obtain ⟨c, rfl, rfl⟩ := decodeFrame_eq_ok_iff.1 h
    exact ⟨rfl, rfl⟩

/-- Settles O4. -/
theorem frameWordsAreTwentyFourPlusChannel : Obligations.FrameWordsAreTwentyFourPlusChannel := by
  unfold Obligations.FrameWordsAreTwentyFourPlusChannel
  intro w c
  rw [decode, decodeFrame_eq_ok_iff, ← frameWord_toNat, BitVec.toNat_inj]
  simp

/-! ### The decoder in numbers -/

/-- Settles O3: the fields of the word are `op` and `arg`, and the clauses are those of `decodeRequest`. -/
theorem requestDecoder : Obligations.RequestDecoder := by
  unfold Obligations.RequestDecoder
  intro op arg hop harg
  have opcode : ∀ n < 256, BitVec.ofNat 8 op = BitVec.ofNat 8 n ↔ op = n := fun n hn => ofNat_eq_ofNat_iff hop hn
  have zero : BitVec.ofNat 32 arg = 0#32 ↔ arg = 0 := ofNat_eq_ofNat_iff harg (by decide)
  have unsigned : (BitVec.ofNat 32 arg).toNat = arg := toNat_ofNat_of_lt harg
  have signed : (BitVec.ofNat 32 arg).toInt = if arg < 2147483648 then (arg : Int) else (arg : Int) - 4294967296 := by
    rw [BitVec.toInt_eq_toNat_cond, unsigned]
    split <;> split <;> omega
  rw [decode, decodeRequest, opcodeOf_ofNat harg, operandOf_ofNat]
  simp only [opcode 1 (by decide), opcode 2 (by decide), opcode 3 (by decide), opcode 4 (by decide), zero, unsigned, signed]

/-- Settles O5: each word is closed, so the decoder runs on it. -/
theorem writtenOutWordsDecode : Obligations.WrittenOutWordsDecode :=
  ⟨rfl, rfl, rfl, rfl, rfl, rfl, rfl, rfl, rfl, rfl, rfl, rfl, rfl⟩

end Sys2Proof
end

section
/-!
PROOF of O7 and O8: the requests that only set the refusal mark.
-/

namespace Sys2Proof.Machine

/-- Settles O7: the gate lets the idle block take the words, and the decoder gives the reason. -/
theorem undecodableRequestIsMarked : Obligations.UndecodableRequestIsMarked := by
  unfold Obligations.UndecodableRequestIsMarked
  intro s c rest r hp hrun hr hs hi hd
  have hm : nextMove s = some (.issue c) := by simp [nextMove, hi]
  have may : mayStep (afterSlot s) = true := mayStep_iff.2 ⟨hs, by simp [hp], hr⟩
  have idle : (afterSlot s).pc = .idle ∧ (afterSlot s).running = false := ⟨hp, hrun⟩
  rw [step, hm, turn, gate_of_mayStep may, takeCode, if_pos idle, hd]
  simp [refuse, afterSlot, hi]

/-- Settles O8. -/
theorem pollOutsideTheTableIsMarked : Obligations.PollOutsideTheTableIsMarked := by
  unfold Obligations.PollOutsideTheTableIsMarked
  intro s k hk
  rw [exec, execPoll, if_pos hk, refuse]

end Sys2Proof.Machine
end

section
/-!
SUPPORT for O12, O13, O14 and O15. The driver's two operations by the values drawn: READ_CHANNEL is one frame and a response
(`exec_readChannel_valid`), or the error response alone; SPI_FRAME_READ is one frame.
-/

namespace Sys2Proof.Machine

open Sys2Proof.Safety

theorem exec_spiFrameRead (c : Chan) (s : State) :
    ∃ f : FrameDraw, f.Fits s ∧ exec (.spiFrameRead c) s = .next (setPos .idle (f.after c s)) := by
  obtain ⟨f, hf, h⟩ := readFrame_spec c s
  exact ⟨f, hf, by rw [exec, execSpiFrameRead, h]⟩

/-- A valid channel is transmitted as its three-bit number (spec/30_encoding.md R84). -/
theorem chanBits_of_nonneg {ch : Int} (h : 0 ≤ ch) : chanBits ch = BitVec.ofNat 3 ch.toNat := by
  rw [chanBits, ← BitVec.ofInt_natCast, Int.toNat_of_nonneg h]

/-- The value of a response is the sum of the bits sampled (spec/30_encoding.md R85, R89). -/
theorem sampleValue_bits {bits : List Level} (h : bits.length = 12) :
    sampleValue (bits.foldl shiftIn 0#12) = BitVec.ofNat 32 (weighted bits) := by
  rw [sampleValue, ← sample_toNat bits h, BitVec.ofNat_toNat]

/-- The response of a read whose frame drew `f` (spec/30_encoding.md R89). -/
def FrameDraw.reply (f : FrameDraw) : Response := ⟨statusOk, BitVec.ofNat 32 (weighted f.bits)⟩

/-- READ_CHANNEL of a valid channel: one frame for it, and the response `OK` with its sample. -/
theorem exec_readChannel_valid {ch : Int} (h0 : 0 ≤ ch) (h7 : ch ≤ 7) (s : State) : ∃ f : FrameDraw, f.Fits s ∧
    exec (.readChannel ch) s = .next (finish f.reply (f.after (BitVec.ofNat 3 ch.toNat) s)) := by
  obtain ⟨f, hf, h⟩ := readFrame_spec (BitVec.ofNat 3 ch.toNat) s
  have hv : channelValid ch = true := by simp [channelValid, h0, h7]
  have hacc : (f.after (BitVec.ofNat 3 ch.toNat) s).acc = f.bits.foldl shiftIn 0#12 := rfl
  refine ⟨f, hf, ?_⟩
  rw [exec, execReadChannel, if_pos hv, chanBits_of_nonneg h0, h, hacc, sampleValue_bits (FrameDraw.bits_length hf),
    FrameDraw.reply]

/-- READ_CHANNEL of an invalid channel: the error response alone. -/
theorem exec_readChannel_invalid {ch : Int} (h : ch < 0 ∨ 7 < ch) (s : State) :
    exec (.readChannel ch) s = .next (raiseInvalidChannel ch s) := by
  have hv : ¬ channelValid ch = true := by
    simp only [channelValid, Bool.and_eq_true, decide_eq_true_eq]
    omega
  rw [exec, execReadChannel, if_neg hv]

/-- The record after a frame and its response. -/
theorem finish_after_trace (r : Response) (f : FrameDraw) (c : Chan) (s : State) :
    (finish r (f.after c s)).trace = s.trace ++ (f.record s.cfg c ++ [.response r]) :=
  List.append_assoc _ _ _

end Sys2Proof.Machine
end

section
/-!
PROOF of O12, O13, O14 and O15. What a read puts on the wire, and what it makes of the bits it samples, read off the record of
its frame.
-/

namespace Sys2Proof.Machine

open Sys2Proof.Safety

/-! ### The command field -/

/-- The five levels of pulses 1 to 5 as a number, and the four after the start bit (spec/30_encoding.md R81, R82). -/
theorem weighted_commandLevels (c : Chan) :
    weighted (commandLevels c) = 24 + c.toNat ∧ weighted (commandLevels c).tail = 8 + c.toNat := by
  revert c
  decide

/-- Settles O12: the levels at the rises of a frame begin with those of the command field. -/
theorem commandFieldOnTheWire : Obligations.CommandFieldOnTheWire := by
  unfold Obligations.CommandFieldOnTheWire
  intro s c
  obtain ⟨f, hf, h⟩ := exec_spiFrameRead c s
  obtain ⟨rest, hrise, -⟩ := mosiAtRise_record s.mosi f s.cfg c hf.cmd_length hf.data_length
  obtain ⟨hfive, hfour⟩ := weighted_commandLevels c
  exact ⟨_, f.record s.cfg c, h, rfl, by rw [hrise]; exact hfive, by rw [hrise]; exact hfour, by rw [hrise]; rfl⟩

/-! ### The clock -/

/-- `n` pulses from a low line are `n` edges up and `n` down. -/
theorem edges_pulses (n : Nat) : risingEdges false (List.replicate n [true, false]).flatten = n ∧
    fallingEdges false (List.replicate n [true, false]).flatten = n := by
  induction n with
  | zero => exact ⟨rfl, rfl⟩
  | succ n ih => simp [List.replicate_succ, risingEdges, fallingEdges, ih, Nat.add_comm]

/-- The CLK writes of a frame are those of its eighteen pulses. -/
theorem writesOf_clk_record {f : FrameDraw} {s : State} (hf : f.Fits s) (c : Chan) :
    writesOf .clk (f.record s.cfg c) = (List.replicate 18 [true, false]).flatten := by
  have hcmd : f.cmd.length = (commandLevels c).length := hf.cmd_length
  simp [FrameDraw.record, writesOf, hcmd, hf.data_length, commandLevels, List.replicate_succ]

/-- A frame is the idle gap, the CS assertion, a part with all its CLK writes in which CS is not written, and the CS release. -/
theorem record_inside_chipSelect {f : FrameDraw} {s : State} (hf : f.Fits s) (c : Chan) : ∃ inside,
    f.record s.cfg c = [.csIdle f.gap] ++ .pin (.write .cs s.cfg.csActive) :: inside ++
      [.pin (.write .cs (!s.cfg.csActive))] ∧
    writesOf .clk inside = writesOf .clk (f.record s.cfg c) ∧ writesOf .cs inside = [] := by
  have hcmd : f.cmd.length = (commandLevels c).length := hf.cmd_length
  exact ⟨_, rfl, by simp [FrameDraw.record, writesOf], by simp [hcmd]⟩

/-- Settles O13: the pulses of a valid read stand inside chip-select; an invalid read writes no pin. -/
theorem eighteenPulsesOrNone : Obligations.EighteenPulsesOrNone := by
  unfold Obligations.EighteenPulsesOrNone
  intro s ch hclk
  by_cases hv : 0 ≤ ch ∧ ch ≤ 7
  · obtain ⟨f, hf, h⟩ := exec_readChannel_valid hv.1 hv.2 s
    generalize BitVec.ofNat 3 ch.toNat = c at h
    obtain ⟨inside, hrec, hclks, hcs⟩ := record_inside_chipSelect hf c
    obtain ⟨hup, hdown⟩ := edges_pulses 18
    have hall : writesOf .clk (f.record s.cfg c ++ [.response f.reply]) = writesOf .clk (f.record s.cfg c) := by
      simp [writesOf]
    refine ⟨_, _, h, finish_after_trace f.reply f c s, fun _ => ?_, by omega⟩
    rw [hall, hclk]
    refine ⟨?_, ?_, [.csIdle f.gap], inside, [.response f.reply], by simp [hrec], hclks, hcs⟩
    · rw [writesOf_clk_record hf, hup]
    · rw [writesOf_clk_record hf, hdown]
  · exact ⟨_, [.response ⟨statusInvalidChannel, BitVec.ofInt 32 ch⟩], exec_readChannel_invalid (by omega) s, rfl,
      fun hv' => absurd hv' hv, fun _ => ⟨rfl, rfl⟩⟩

/-! ### The sampled bits in the register -/

theorem shiftIn_getLsbD_zero (a : Sample) (d : Level) : (shiftIn a d).getLsbD 0 = d := by
  cases d <;> simp [shiftIn]

theorem shiftIn_getLsbD_succ (a : Sample) (d : Level) {i : Nat} (h : i + 1 < 12) :
    (shiftIn a d).getLsbD (i + 1) = a.getLsbD i := by
  have hi : i < 12 := by omega
  simp [shiftIn, h, BitVec.getLsbD_eq_getElem hi]

/-- The bits shifted in stand in the register in their order, the last one lowest (spec/30_encoding.md R85). -/
theorem foldl_shiftIn_getLsbD (bits : List Level) (a : Sample) {i : Nat} (hi : i < bits.length) (h12 : i < 12) :
    some ((bits.foldl shiftIn a).getLsbD i) = bits.reverse[i]? := by
  induction bits using List.reverseRecOn generalizing i with
  | nil => simp at hi
  | append_singleton bits b ih =>
    rw [List.foldl_append, List.reverse_append]
    cases i with
    | zero => exact congrArg some (shiftIn_getLsbD_zero _ b)
    | succ i => simpa [shiftIn_getLsbD_succ _ _ h12] using ih (by simpa using hi) (by omega)

/-- Settles O14: the bits sampled are those driven, and twelve shifts place each of them. -/
theorem resultIsTheSampledBits : Obligations.ResultIsTheSampledBits := by
  unfold Obligations.ResultIsTheSampledBits
  intro s ch d rest h0 h7 hd hmiso
  obtain ⟨f, hf, h⟩ := exec_readChannel_valid h0 h7 s
  generalize BitVec.ofNat 3 ch.toNat = c at h
  obtain ⟨rfl, hrest⟩ := hf.miso d rest hd hmiso
  have hlt := weighted_lt f.bits
  rw [hd] at hlt
  refine ⟨_, _, h, finish_after_trace f.reply f c s, ?_, ?_, by omega, ?_, hrest⟩
  · simp [samples_record, samples]
  · simp [responses_record, responses, FrameDraw.reply, statusOk]
  · intro n h1 h2
    have hbit := foldl_shiftIn_getLsbD f.bits 0#12 (i := 18 - n) (by omega) (by omega)
    have hplace : 12 - 1 - (18 - n) = n - 7 := by omega
    rw [List.getElem?_reverse (by omega), hd, hplace] at hbit
    exact hbit

/-! ### The reference trace -/

/-- Where MOSI is not written after pulse 5, the pin events of a frame are those of spec/40_adc_driver.md R108. -/
theorem framePins_eq_frameEvents {f : FrameDraw} (cfg : Config) (c : Chan) (hnull : f.late = [])
    (hdata : ∀ x ∈ f.data, x.late = []) :
    framePins f cfg c = frameEvents cfg.csActive c f.cmd f.null (f.data.map fun x => (x.waits, x.bit)) := by
  have hpulses : f.data.map dataEvents = (f.data.map fun x => (x.waits, x.bit)).map fun d =>
      pulseEvents d.1 ++ [.sample d.2] := by
    rw [List.map_map]
    exact List.map_congr_left fun x hx => by simp [dataEvents, hdata x hx]
  rw [framePins, frameEvents, hnull, hpulses]
  simp

/-- `1 + 5 * 5 + 4 + 12 * 5 + 1` events (spec/40_adc_driver.md R108). -/
theorem frameEvents_length (active : Level) (c : Chan) {cmd : List (Nat × Nat)} (null : Nat × Nat)
    {data : List ((Nat × Nat) × Level)} (hcmd : cmd.length = 5) (hdata : data.length = 12) :
    (frameEvents active c cmd null data).length = 91 := by
  match cmd, hcmd with
  | [_, _, _, _, _], _ => simp [frameEvents, commandLevels, pulseEvents, List.length_flatten, Function.comp_def, hdata]

/-- Settles O15: with no late MOSI level drawn, the pin events are those of the reference trace. -/
theorem referenceTraceHasNinetyOneEvents : Obligations.ReferenceTraceHasNinetyOneEvents := by
  unfold Obligations.ReferenceTraceHasNinetyOneEvents
  intro s ch rest h0 h7 hmosi
  obtain ⟨f, hf, h⟩ := exec_readChannel_valid h0 h7 s
  generalize BitVec.ofNat 3 ch.toNat = c at h ⊢
  obtain ⟨hlate, -⟩ := hf.mosi (List.replicate 13 []) rest (by simp) hmosi
  rw [List.replicate_succ, List.cons.injEq] at hlate
  obtain ⟨hnull, hlates⟩ := hlate
  have hdata : ∀ x ∈ f.data, x.late = [] := fun x hx =>
    List.eq_of_mem_replicate (hlates ▸ List.mem_map_of_mem hx)
  have hpins : pinEvents (f.record s.cfg c ++ [.response f.reply]) =
      frameEvents s.cfg.csActive c f.cmd f.null (f.data.map fun x => (x.waits, x.bit)) := by
    rw [pinEvents_append, pinEvents_record, framePins_eq_frameEvents s.cfg c hnull hdata]
    exact List.append_nil _
  have hlen : (f.data.map fun x => (x.waits, x.bit)).length = 12 := by rw [List.length_map, hf.data_length]
  refine ⟨_, _, f.cmd, f.null, _, h, finish_after_trace f.reply f c s, hpins, ?_, hf.cmd_length, hlen, ?_⟩
  · rw [hpins]
    exact frameEvents_length _ _ _ hf.cmd_length hlen
  · intro p hp
    rcases List.mem_append.1 hp with hp | hp
    · exact hf.cmd_min p hp
    rcases List.mem_cons.1 hp with rfl | hp
    · exact hf.null_min
    · obtain ⟨x, hx, rfl⟩ : ∃ x ∈ f.data, x.waits = p := by simpa using hp
      exact hf.data_min x hx

end Sys2Proof.Machine
end

section
/-!
PROOF of O9, O10, O11, O16 and O50. The driver's two operations, each read off the state after its frame
(`exec_readChannel_valid`, `exec_spiFrameRead`), and the request that reaches a busy block.
-/

namespace Sys2Proof.Machine

open Sys2Proof.Safety

/-! ### One frame and its sample -/

/-- The register after a frame is the sum of the bits it sampled (spec/30_encoding.md R85). -/
theorem FrameDraw.after_acc_toNat {f : FrameDraw} {s : State} (hf : f.Fits s) (c : Chan) :
    (f.after c s).acc.toNat = weighted (samples (f.record s.cfg c)) := by
  rw [samples_record]
  exact sample_toNat f.bits (FrameDraw.bits_length hf)

/-- The first five rises of a frame carry the command field, whatever is recorded after it (spec/30_encoding.md R82). -/
theorem mosiAtRise_record_take_five {f : FrameDraw} {s : State} (hf : f.Fits s) (c : Chan) (m : Level) (es : List Event) :
    (mosiAtRise m (f.record s.cfg c ++ es)).take 5 = commandLevels c := by
  obtain ⟨late, hrise, -⟩ := mosiAtRise_record m f s.cfg c hf.cmd_length hf.data_length
  rw [mosiAtRise_append, hrise]
  rfl

theorem mosiAtRise_record_length {f : FrameDraw} {s : State} (hf : f.Fits s) (c : Chan) (m : Level) :
    (mosiAtRise m (f.record s.cfg c)).length = 18 := by
  obtain ⟨late, hrise, hlate⟩ := mosiAtRise_record m f s.cfg c hf.cmd_length hf.data_length
  rw [hrise, List.length_append, hlate]
  rfl

/-- Settles O9: one frame for the channel, then the response with the sum of its twelve bits. -/
theorem readChannelCompletes : Obligations.ReadChannelCompletes := by
  unfold Obligations.ReadChannelCompletes
  intro s ch h0 h7
  obtain ⟨f, hf, h⟩ := exec_readChannel_valid h0 h7 s
  generalize BitVec.ofNat 3 ch.toNat = c at h ⊢
  obtain ⟨hst, hkept⟩ := driverOperationsLeaveTheRest s _ _ (.inl ⟨ch, rfl⟩) h
  have hbits : samples (f.record s.cfg c ++ [.response f.reply]) = f.bits := by simp [samples_record, samples]
  refine ⟨_, _, h, finish_after_trace f.reply f c s, mosiAtRise_record_take_five hf c s.mosi _, ?_, ?_, ?_, ?_, ?_,
    rfl, rfl, rfl, hst, hkept⟩
  · rw [hbits, FrameDraw.bits_length hf]
  · rw [hbits, ← samples_record f s.cfg c]
    exact FrameDraw.after_acc_toNat hf c
  · rw [hbits, responses_append, responses_record]
    rfl
  · rw [hbits, List.getLast?_concat]
    rfl
  · rw [presses_append, presses_record]
    rfl

/-- Settles O11: the record is that of the frame alone. -/
theorem spiFrameReadCompletes : Obligations.SpiFrameReadCompletes := by
  unfold Obligations.SpiFrameReadCompletes
  intro s c
  obtain ⟨f, hf, h⟩ := exec_spiFrameRead c s
  obtain ⟨hst, hkept⟩ := driverOperationsLeaveTheRest s _ _ (.inr ⟨c, rfl⟩) h
  have hfive : (mosiAtRise s.mosi (f.record s.cfg c)).take 5 = commandLevels c := by
    simpa using mosiAtRise_record_take_five hf c s.mosi []
  have hbits : (samples (f.record s.cfg c)).length = 12 := by rw [samples_record, FrameDraw.bits_length hf]
  exact ⟨_, _, h, rfl, hfive, mosiAtRise_record_length hf c s.mosi, hbits, FrameDraw.after_acc_toNat hf c,
    responses_record f s.cfg c, presses_record f s.cfg c, rfl, rfl, rfl, rfl, rfl, hst, hkept⟩

/-! ### The pins -/

/-- Under the reference choice MOSI stays at the last command bit, `chan[0]` (spec/30_encoding.md R83). -/
theorem FrameDraw.mosi_of_reference {f : FrameDraw} {s : State} (hf : f.Fits s) {rest : List (List Level)}
    (h : s.draws.mosi = List.replicate 13 [] ++ rest) (c : Chan) : f.mosi c = c.getLsbD 0 := by
  obtain ⟨hlate, -⟩ := hf.mosi (List.replicate 13 []) rest (by simp) h
  calc f.mosi c = (f.late :: f.data.map (·.late)).foldl lastLevel (c.getLsbD 0) := by
        rw [List.foldl_cons, List.foldl_map, FrameDraw.mosi]
    _ = (List.replicate 13 []).foldl lastLevel (c.getLsbD 0) := by rw [hlate]
    _ = c.getLsbD 0 := rfl

/-- Settles O16: a valid read leaves the pins as its frame does, an invalid one writes none. -/
theorem pinsAfterARead : Obligations.PinsAfterARead := by
  unfold Obligations.PinsAfterARead
  intro s ch
  by_cases hv : 0 ≤ ch ∧ ch ≤ 7
  · obtain ⟨f, hf, h⟩ := exec_readChannel_valid hv.1 hv.2 s
    exact ⟨_, h, fun _ => ⟨rfl, rfl, fun rest hmosi => FrameDraw.mosi_of_reference hf hmosi _⟩, by omega⟩
  · exact ⟨_, exec_readChannel_invalid (by omega) s, fun hv' => absurd hv' hv, fun _ => ⟨rfl, rfl, rfl⟩⟩

/-! ### The requests that make no frame -/

/-- Settles O10: the error response is all that `raiseInvalidChannel` records. -/
theorem invalidChannelTouchesNothing : Obligations.InvalidChannelTouchesNothing := by
  unfold Obligations.InvalidChannelTouchesNothing
  intro s ch h
  rw [exec_readChannel_invalid h, raiseInvalidChannel, finish, setPos, emit, statusInvalidChannel]

/-- Settles O50: the gate lets the block take the slot, and the busy block marks the request. -/
theorem requestWhileBusyIsMarked : Obligations.RequestWhileBusyIsMarked := by
  unfold Obligations.RequestWhileBusyIsMarked
  intro s c rest hp hr hs hi hbusy
  have hm : nextMove s = some (.issue c) := by simp [nextMove, hi]
  have may : mayStep (afterSlot s) = true := mayStep_iff.2 ⟨hs, hp, hr⟩
  have busy : ¬ ((afterSlot s).pc = .idle ∧ (afterSlot s).running = false) := by
    rintro ⟨hidle, hrun⟩
    rcases hbusy with hpos | hrunning
    · exact hpos hidle
    · exact Bool.false_ne_true (hrun.symm.trans hrunning)
  rw [step, hm, turn, gate_of_mayStep may, takeCode, if_neg busy]
  simp [refuse, afterSlot, hi]

end Sys2Proof.Machine
end

section
/-!
SUPPORT for O21, O22, O23, O25 and O26. The hysteresis function, one equation a branch of spec/41_touch_channel.md R132; and
POLL by the values its one frame drew (`exec_poll_inside`).
-/

namespace Sys2Proof.Machine

open Sys2Proof.Safety

/-! ### The branches of the hysteresis function -/

theorem hyst_released_below {cfg : Config} {x : Nat} (h : x < cfg.pressThreshold) :
    hyst cfg .released x = (.pressed, true) := if_pos h

theorem hyst_released_above {cfg : Config} {x : Nat} (h : cfg.pressThreshold ≤ x) :
    hyst cfg .released x = (.released, false) := if_neg (Nat.not_lt.2 h)

theorem hyst_pressed_inBand {cfg : Config} {x : Nat} (h : cfg.releaseLow < x ∧ x < cfg.releaseHigh) :
    hyst cfg .pressed x = (.released, false) := if_pos h

theorem hyst_pressed_outside {cfg : Config} {x : Nat} (h : ¬ (cfg.releaseLow < x ∧ x < cfg.releaseHigh)) :
    hyst cfg .pressed x = (.pressed, false) := if_neg h

/-- A press is the move from Released to Pressed, the only one into Pressed (spec/41_touch_channel.md R141). -/
theorem hyst_press_iff_moves {cfg : Config} {t : Touch} {x : Nat} :
    (hyst cfg t x).2 = true ↔ t = .released ∧ (hyst cfg t x).1 = .pressed := by
  cases t with
  | released =>
    by_cases h : x < cfg.pressThreshold
    · simp [hyst_released_below h]
    · simp [hyst_released_above (Nat.not_lt.1 h)]
  | pressed =>
    by_cases h : cfg.releaseLow < x ∧ x < cfg.releaseHigh
    · simp [hyst_pressed_inBand h]
    · simp [hyst_pressed_outside h]

/-- With the thresholds in order, a sample in the band leaves either state Released. -/
theorem hyst_inBand {cfg : Config} {x : Nat} (hP : cfg.pressThreshold < cfg.releaseLow)
    (h : cfg.releaseLow < x ∧ x < cfg.releaseHigh) (t : Touch) : hyst cfg t x = (.released, false) := by
  cases t with
  | released => exact hyst_released_above (by omega)
  | pressed => exact hyst_pressed_inBand h

/-! ### POLL by the values drawn -/

theorem FrameDraw.afterPoll_kept (f : FrameDraw) (k : Nat) (s : State) : Kept s (f.afterPoll k s) :=
  ⟨rfl, rfl, rfl, rfl, rfl, rfl, rfl, rfl⟩

theorem FrameDraw.afterPoll_touchAt_self {f : FrameDraw} {s : State} (hf : f.Fits s) {k : Nat} (hk : k < s.st.length) :
    touchAt (f.afterPoll k s) k = (hyst s.cfg (touchAt s k) (weighted f.bits)).1 := by
  rw [← sample_toNat f.bits (FrameDraw.bits_length hf)]
  exact touchAt_set_self (s := s) hk _

theorem FrameDraw.afterPoll_touchAt_ne (f : FrameDraw) (s : State) {j k : Nat} (h : j ≠ k) :
    touchAt (f.afterPoll k s) j = touchAt s j :=
  touchAt_set_ne (s := s) h.symm _

theorem FrameDraw.presses_eq {f : FrameDraw} {s : State} (hf : f.Fits s) (k : Nat) :
    f.presses k s = (hyst s.cfg (touchAt s k) (weighted f.bits)).2 := by
  rw [FrameDraw.presses, sample_toNat f.bits (FrameDraw.bits_length hf)]

theorem getLast?_finish (r : Response) (s : State) : (finish r s).trace.getLast? = some (.response r) :=
  List.getLast?_concat

theorem touchAt_finish (r : Response) (s : State) (k : Nat) : touchAt (finish r s) k = touchAt s k := rfl

theorem exec_poll_of_lt {k : Nat} {s : State} (hk : k < s.cfg.channels.length) :
    exec (.poll k) s = .next (finish ⟨statusOk, pressValue (pollStep k s).1⟩ (pollStep k s).2) := by
  rw [exec, execPoll, if_neg (Nat.not_le.2 hk)]

/-- POLL of a position in the table: one frame for its channel, and the response `OK` with its result. -/
theorem exec_poll_inside {k : Nat} {s : State} (hk : k < s.cfg.channels.length) : ∃ f : FrameDraw, f.Fits s ∧
    exec (.poll k) s = .next (finish ⟨statusOk, pressValue (f.presses k s)⟩ (f.afterPoll k s)) := by
  obtain ⟨f, hf, h⟩ := pollStep_spec k s
  exact ⟨f, hf, by rw [exec_poll_of_lt hk, h]⟩

end Sys2Proof.Machine
end

section
/-!
PROOF of O21, O22 and O23. The table of the hysteresis function, and what one POLL does, read off the state after its frame
(`exec_poll_inside`).
-/

namespace Sys2Proof.Machine

open Sys2Proof.Safety

/-- Settles O21: each row of the table is one branch for either state. -/
theorem hysteresisTable : Obligations.HysteresisTable := by
  unfold Obligations.HysteresisTable
  intro cfg x hP hR
  refine ⟨fun h => ⟨hyst_released_below h, hyst_pressed_outside ?_⟩,
    fun h => ⟨hyst_released_above h.1, hyst_pressed_outside ?_⟩,
    fun h => ⟨hyst_inBand hP h .released, hyst_inBand hP h .pressed⟩,
    fun h => ⟨hyst_released_above ?_, hyst_pressed_outside ?_⟩⟩
  all_goals omega

/-- Settles O22: the frame for the position's channel, the hysteresis function on its twelve bits, then the response. -/
theorem pollCompletes : Obligations.PollCompletes := by
  unfold Obligations.PollCompletes
  intro s k e he hl
  obtain ⟨hk, -⟩ := List.getElem?_eq_some_iff.1 he
  obtain ⟨f, hf, h⟩ := exec_poll_inside hk
  generalize hr : (⟨statusOk, pressValue (f.presses k s)⟩ : Response) = r at h
  have hch : channelAt s.cfg k = BitVec.ofInt 3 e.ch := channelAt_of he
  have hbits : samples (f.record s.cfg (channelAt s.cfg k) ++ [.response r]) = f.bits := by simp [samples_record, samples]
  have htrace : (finish r (f.afterPoll k s)).trace = s.trace ++ (f.record s.cfg (channelAt s.cfg k) ++ [.response r]) :=
    finish_after_trace r f _ s
  refine ⟨_, _, h, htrace, rfl, ?_, ?_, ?_, ?_, fun j hj => f.afterPoll_touchAt_ne s hj, List.length_set, ?_,
    rfl, rfl, rfl, f.afterPoll_kept k s⟩
  · rw [mosiAtRise_append, List.length_append, mosiAtRise_record_length hf]
    rfl
  · rw [← hch]
    exact mosiAtRise_record_take_five hf _ s.mosi _
  · rw [hbits, FrameDraw.bits_length hf]
  · rw [hbits]
    exact FrameDraw.afterPoll_touchAt_self hf (hl ▸ hk)
  · rw [hbits, responses_append, responses_record, ← FrameDraw.presses_eq hf, ← hr]
    rfl

/-- Settles O23: the result of the hysteresis function is a press exactly on that move. -/
theorem pollReportsExactlyThePresses : Obligations.PollReportsExactlyThePresses := by
  unfold Obligations.PollReportsExactlyThePresses
  intro s k hk hl
  obtain ⟨t, es, h, htrace, -, -, -, -, htouch, -, -, hresp, -⟩ := pollCompletes s k _ (List.getElem?_eq_getElem hk) hl
  have hone : ∀ p : Bool, (if p then 1#32 else 0#32) = 1#32 ↔ p = true := by decide
  refine ⟨t, es, _, h, htrace, hresp, ?_, ?_, ?_⟩
  · rw [hone, hyst_press]
  · rw [hone, htouch, hyst_press_iff_moves]
  · exact ite_eq_or_eq _ _ _

end Sys2Proof.Machine
end

section
/-!
PROOF of O25. The sample a frame leaves is determined by the draws to come alone: two states with the same draws and the same
sample register are kept so by every piece of a frame, whatever else differs in them; and a poll decides on that sample and
its own state (spec/41_touch_channel.md R137, R139).
-/

namespace Sys2Proof.Machine

/-! ### The draws of a frame -/

/-- Two states from which a frame samples and assembles the same bits. -/
def SameDraws (s s' : State) : Prop := s'.draws = s.draws ∧ s'.acc = s.acc

theorem sameDraws_pulse {s s' : State} (h : SameDraws s s') : SameDraws (pulse s) (pulse s') :=
  ⟨congrArg (fun d => (drawDelay (drawDelay d).2).2) h.1, h.2⟩

theorem sameDraws_lateMosi {s s' : State} (h : SameDraws s s') : SameDraws (lateMosi s) (lateMosi s') := by
  rw [lateMosi_eq, lateMosi_eq]
  exact ⟨congrArg (fun d => (drawMosi d).2) h.1, h.2⟩

theorem sameDraws_shiftSample {s s' : State} (h : SameDraws s s') : SameDraws (shiftSample s) (shiftSample s') :=
  ⟨congrArg (fun d => (drawMiso d).2) h.1, congrArg₂ (fun d a => shiftIn a (drawMiso d).1) h.1 h.2⟩

theorem sameDraws_openFrame {s s' : State} (c : Chan) (h : s'.draws = s.draws) :
    SameDraws (openFrame c s) (openFrame c s') :=
  ⟨congrArg (fun d => (drawDelay d).2) h, rfl⟩

theorem sameDraws_commandPulse {s s' : State} (nb : Nat × Level) (h : SameDraws s s') :
    SameDraws (commandPulse s nb) (commandPulse s' nb) :=
  sameDraws_pulse (s := pinWrite .mosi nb.2 (atPulse nb.1 s)) (s' := pinWrite .mosi nb.2 (atPulse nb.1 s')) h

theorem sameDraws_nullPulse {s s' : State} (h : SameDraws s s') : SameDraws (nullPulse s) (nullPulse s') :=
  sameDraws_pulse (sameDraws_lateMosi (s := atPulse 6 s) (s' := atPulse 6 s') h)

theorem sameDraws_dataPulse {s s' : State} (n : Nat) (h : SameDraws s s') :
    SameDraws (dataPulse s n) (dataPulse s' n) :=
  sameDraws_shiftSample (sameDraws_pulse (sameDraws_lateMosi (s := atPulse n s) (s' := atPulse n s') h))

theorem sameDraws_closeFrame {s s' : State} (h : SameDraws s s') : SameDraws (closeFrame s) (closeFrame s') := h

/-- Same draws before a frame, same draws and same sample after it. -/
theorem sameDraws_readFrame (c : Chan) {s s' : State} (h : s'.draws = s.draws) :
    SameDraws (readFrame c s) (readFrame c s') := by
  have hcmd := List.foldl_rel (l := commandPulses c) (sameDraws_openFrame c h) fun nb _ _ _ => sameDraws_commandPulse nb
  have hdata := List.foldl_rel (l := dataPulses) (sameDraws_nullPulse hcmd) fun n _ _ _ => sameDraws_dataPulse n
  exact sameDraws_closeFrame hdata

/-! ### The two parts of a poll -/

theorem pollRead_st (k : Nat) (s : State) : (pollRead k s).st = s.st := by
  rw [pollRead, setPos_st, (readFrame_kept (channelAt s.cfg k) s).1]

theorem pollRead_cfg (k : Nat) (s : State) : (pollRead k s).cfg = s.cfg := by
  rw [pollRead, setPos_cfg, kept_cfg (readFrame_kept (channelAt s.cfg k) s).2]

theorem pollHyst_pollRead (k : Nat) (s : State) :
    pollHyst k (pollRead k s) = hyst s.cfg (touchAt s k) (readFrame (channelAt s.cfg k) s).acc.toNat := by
  rw [pollHyst, pollRead_cfg, touchAt, pollRead_st, pollRead, setPos_acc, ← touchAt]

/-- The state and the result of a poll are those of its own position and of the draws to come. -/
theorem pollHyst_congr {s s' : State} {k : Nat} (hcfg : s'.cfg = s.cfg) (hdraws : s'.draws = s.draws)
    (htouch : touchAt s' k = touchAt s k) : pollHyst k (pollRead k s') = pollHyst k (pollRead k s) := by
  obtain ⟨-, hacc⟩ := sameDraws_readFrame (channelAt s.cfg k) hdraws
  rw [pollHyst_pollRead, pollHyst_pollRead, hcfg, htouch, hacc]

theorem pollStep_press (k : Nat) (s : State) : (pollStep k s).1 = (pollHyst k (pollRead k s)).2 := by
  rw [pollStep]

theorem pollStep_touchAt {s : State} {k : Nat} (hk : k < s.st.length) :
    touchAt (pollStep k s).2 k = (pollHyst k (pollRead k s)).1 :=
  touchAt_set_self (s := pollRead k s) (by rwa [pollRead_st]) _

/-- Settles O25: the response and the new state are the two parts of `pollHyst`. -/
theorem pollDependsOnItsOwnStateAlone : Obligations.PollDependsOnItsOwnStateAlone := by
  unfold Obligations.PollDependsOnItsOwnStateAlone
  intro s s' k hk hl hl' hcfg hdraws htouch
  have hk' : k < s'.cfg.channels.length := hcfg ▸ hk
  have hsame := pollHyst_congr hcfg hdraws htouch
  have hres : (pollStep k s').1 = (pollStep k s).1 := by rw [pollStep_press, pollStep_press, hsame]
  refine ⟨_, _, ⟨statusOk, pressValue (pollStep k s).1⟩, exec_poll_of_lt hk, exec_poll_of_lt hk',
    getLast?_finish _ _, ?_, ?_⟩
  · rw [hres]
    exact getLast?_finish _ _
  · rw [touchAt_finish, touchAt_finish, pollStep_touchAt (hl' ▸ hk'), pollStep_touchAt (hl ▸ hk), hsame]

end Sys2Proof.Machine
end

section
/-!
PROOF of O26. The hysteresis function folded over the samples of one position: what makes it press, release and stay.
-/

namespace Sys2Proof.Machine

/-- The state of a position before its poll number `n`, its polls having read `xs` from Released on. -/
def touchBefore (cfg : Config) (xs : List Nat) (n : Nat) : Touch :=
  (xs.take n).foldl (fun t x => (hyst cfg t x).1) .released

section

variable {cfg : Config} {xs : List Nat}

theorem touchBefore_succ {n x : Nat} (h : xs[n]? = some x) :
    touchBefore cfg xs (n + 1) = (hyst cfg (touchBefore cfg xs n) x).1 := by
  simp [touchBefore, List.take_add_one, h]

theorem touchBefore_succ_of_none {n : Nat} (h : xs[n]? = none) :
    touchBefore cfg xs (n + 1) = touchBefore cfg xs n := by
  simp [touchBefore, List.take_add_one, h]

/-- A state that each sample read from poll `m` up to poll `n` keeps is the state before poll `n` too. -/
theorem touchBefore_stays {m n : Nat} (hmn : m ≤ n)
    (hkeep : ∀ l x, m ≤ l → l < n → xs[l]? = some x →
      (hyst cfg (touchBefore cfg xs m) x).1 = touchBefore cfg xs m) :
    touchBefore cfg xs n = touchBefore cfg xs m := by
  induction n, hmn using Nat.le_induction with
  | base => rfl
  | succ n hmn ih =>
    have hn : touchBefore cfg xs n = touchBefore cfg xs m :=
      ih fun l x hml hln => hkeep l x hml (Nat.lt_succ_of_lt hln)
    cases hx : xs[n]? with
    | none => rw [touchBefore_succ_of_none hx, hn]
    | some x => rw [touchBefore_succ hx, hn, hkeep n x hmn n.lt_succ_self hx]

/-- A released channel stays so while no sample is below the press threshold. -/
theorem touchBefore_released {m n : Nat} (hmn : m ≤ n) (hm : touchBefore cfg xs m = .released)
    (h : ∀ l x, m ≤ l → l < n → xs[l]? = some x → cfg.pressThreshold ≤ x) : touchBefore cfg xs n = .released := by
  rw [← hm]
  refine touchBefore_stays hmn fun l x hml hln hx => ?_
  rw [hm, hyst_released_above (h l x hml hln hx)]

/-- A pressed channel stays so while no sample is in the band. -/
theorem touchBefore_pressed {m n : Nat} (hmn : m ≤ n) (hm : touchBefore cfg xs m = .pressed)
    (h : ∀ l x, m ≤ l → l < n → xs[l]? = some x → ¬ (cfg.releaseLow < x ∧ x < cfg.releaseHigh)) :
    touchBefore cfg xs n = .pressed := by
  rw [← hm]
  refine touchBefore_stays hmn fun l x hml hln hx => ?_
  rw [hm, hyst_pressed_outside (h l x hml hln hx)]

end

/-- Settles O26 (its `before` is `touchBefore cfg xs`): a press leaves Pressed, which only a band sample ends; a band
sample leaves Released, which only a sample below the threshold ends, with a press. -/
theorem onePressPerExcursion : Obligations.OnePressPerExcursion := by
  unfold Obligations.OnePressPerExcursion
  intro cfg xs hP _ before presses below inBand
  have press_of_released : ∀ n, touchBefore cfg xs n = .released → below n → presses n := by
    rintro n hn ⟨x, hx, hlt⟩
    exact ⟨x, hx, hyst_press.2 ⟨hn, hlt⟩⟩
  have above : ∀ {l x}, ¬ below l → xs[l]? = some x → cfg.pressThreshold ≤ x :=
    fun hl hx => Nat.not_lt.1 fun hlt => hl ⟨_, hx, hlt⟩
  refine ⟨?_, ?_, ?_⟩
  · intro n hn hfirst
    exact press_of_released n (touchBefore_released n.zero_le rfl fun l x _ hln => above (hfirst l hln)) hn
  · rintro i j hij ⟨x, hx, hpress⟩ ⟨y, -, hpress'⟩
    by_contra hnone
    have hi : touchBefore cfg xs (i + 1) = .pressed := (touchBefore_succ hx).trans (hyst_press_iff_moves.1 hpress).2
    have hj : touchBefore cfg xs j = .pressed :=
      touchBefore_pressed hij hi fun l z hil hlj hz hband => hnone ⟨l, hil, hlj, z, hz, hband⟩
    have hj' : touchBefore cfg xs j = .released := (hyst_press_iff_moves.1 hpress').1
    exact Touch.noConfusion (hj.symm.trans hj')
  · rintro i m j - hmj - ⟨x, hx, hband⟩ hj hnone
    have hm : touchBefore cfg xs (m + 1) = .released := by rw [touchBefore_succ hx, hyst_inBand hP hband]
    exact press_of_released j (touchBefore_released hmj hm fun l z hml hlj => above (hnone l hml hlj)) hj

end Sys2Proof.Machine
end

section
/-!
SUPPORT for O27 to O32 and O41. A step by the move in its slot, and what a pass from position `k` goes through
outside RUN and inside it.
-/

namespace Sys2Proof.Machine

open Sys2Proof.Safety

variable {s : State} {k : Nat} {rest : List (Option Move)}

/-! ### One step, by its slot -/

theorem step_of_inputs {m : Option Move} (hi : s.inputs = m :: rest) : step s = turn m { s with inputs := rest } := by
  simp [step, nextMove, afterSlot, hi]

/-- A stop inside a turn leaves the moment the turn had reached, halted. -/
theorem step_during_stop {w : Work} {j : Nat} (hi : s.inputs = some (.during w j .stop) :: rest) :
    step s = .next (halt (momentAt j (workMoments w) { s with inputs := rest })) := by
  rw [step_of_inputs hi, turn, hostActs, if_pos rfl, cutTurn, endWith]

/-- Where nothing reaches a block that may take a step, it goes on by itself. -/
theorem step_by_itself (hp : s.pc ≠ .failed) (hr : s.refused = none) (hs : s.stopped = false)
    (hi : s.inputs = none :: rest) : step s = advance { s with inputs := rest } := by
  have may : mayStep { s with inputs := rest } = true := mayStep_iff.2 ⟨hs, hp, hr⟩
  rw [step_of_inputs hi, turn, gate_of_mayStep may]

/-- A pass goes on where nothing reaches the block (spec/42_poll_loop.md R159). -/
theorem step_passing (hp : s.pc = .passing k) (hr : s.refused = none) (hs : s.stopped = false)
    (hi : s.inputs = none :: rest) : step s = .next (passFrom k { s with inputs := rest }) := by
  rw [step_by_itself (by simp [hp]) hr hs hi]
  simp [advance, hp]

/-- The completion of the outstanding press event (spec/42_poll_loop.md R155). -/
theorem step_completing (hp : s.pc = .dispatching k) (hr : s.refused = none) (hs : s.stopped = false)
    (hi : s.inputs = some .complete :: rest) : step s = .next (completeDispatch k { s with inputs := rest }) := by
  have may : mayStep { s with inputs := rest } = true := mayStep_iff.2 ⟨hs, by simp [hp], hr⟩
  rw [step_of_inputs hi, turn, gate_of_mayStep may]
  simp [takeCompletion, hp]

/-! ### A pass -/

/-- A pass of POLL_PASS waits at a press, or it is over and the response `OK, 0` is made last. -/
theorem passFrom_spec_not_running (hr : s.running = false) (hk : k ≤ s.cfg.channels.length)
    (hl : s.st.length = s.cfg.channels.length) :
    ∃ es m, PassGoes k s (passFrom k s) es m ∧
      ((PassEnds k s es m ∧ responses es = [⟨0x00#8, 0#32⟩] ∧ es.getLast? = some (.response ⟨0x00#8, 0#32⟩) ∧
          (passFrom k s).pc = .idle) ∨
        PassWaits k s (passFrom k s) es m) := by
  obtain ⟨es, m, goes, ⟨hend, ⟨hrun, -⟩ | ⟨-, hresp⟩⟩ | waits⟩ := passLoop_spec _ k s rfl hk hl
  · simp [hr] at hrun
  · exact ⟨es, m, goes, .inl ⟨hend, hresp⟩⟩
  · exact ⟨es, m, goes, .inr waits⟩

/-- A pass of RUN waits at a press, or it is over with no response and the next pass begins. -/
theorem passFrom_spec_running (hr : s.running = true) (hk : k ≤ s.cfg.channels.length)
    (hl : s.st.length = s.cfg.channels.length) :
    ∃ es m, PassGoes k s (passFrom k s) es m ∧
      ((PassEnds k s es m ∧ responses es = [] ∧ (passFrom k s).pc = .passing 0) ∨
        PassWaits k s (passFrom k s) es m) := by
  obtain ⟨es, m, goes, ⟨hend, ⟨-, hresp⟩ | ⟨hrun, -⟩⟩ | waits⟩ := passLoop_spec _ k s rfl hk hl
  · exact ⟨es, m, goes, .inl ⟨hend, hresp⟩⟩
  · simp [hr] at hrun
  · exact ⟨es, m, goes, .inr waits⟩

/-- A pass over an empty table is over at once. -/
theorem passFrom_of_empty (hc : s.cfg.channels = []) (k : Nat) : passFrom k s = endPass s := by
  rw [passFrom, hc, List.drop_nil, passLoop]

theorem passFrom_empty_not_running (hc : s.cfg.channels = []) (hr : s.running = false) (k : Nat) :
    passFrom k s = { s with trace := s.trace ++ [.response ⟨0x00#8, 0#32⟩], pc := .idle } := by
  rw [passFrom_of_empty hc, endPass, if_neg (by simp [hr]), finish, setPos, emit, statusOk]

theorem passFrom_empty_running (hc : s.cfg.channels = []) (hr : s.running = true) (k : Nat) :
    passFrom k s = { s with pc := .passing 0 } := by
  rw [passFrom_of_empty hc, endPass, if_pos hr, setPos]

end Sys2Proof.Machine
end

section
/-!
PROOF of O27 to O32: POLL_PASS, RUN, the step inside a pass of RUN, a completion and an outstanding press
event, each by the pass it makes or waits in (spec/42_poll_loop.md R150 to R159).
-/

namespace Sys2Proof.Machine

open Sys2Proof.Safety

/-- Settles O27. -/
theorem pollPassCompletes : Obligations.PollPassCompletes := by
  unfold Obligations.PollPassCompletes
  intro s hr hl
  obtain ⟨es, m, pass⟩ := passFrom_spec_not_running hr (Nat.zero_le _) hl
  exact ⟨passFrom 0 s, es, m, rfl, pass⟩

/-- Settles O28: the first pass is one of RUN, and keeps `running`. -/
theorem runCompletes : Obligations.RunCompletes := by
  unfold Obligations.RunCompletes
  intro s hl
  obtain ⟨es, m, goes, stands⟩ := passFrom_spec_running (s := { s with running := true }) rfl (Nat.zero_le _) hl
  exact ⟨passFrom 0 { s with running := true }, es, m, rfl, kept_running goes.kept, goes, stands⟩

/-- Settles O29. -/
theorem runGoesOnWithThePass : Obligations.RunGoesOnWithThePass := by
  unfold Obligations.RunGoesOnWithThePass
  intro s k rest hp hrun hr hs hi hl hk
  obtain ⟨es, m, pass⟩ := passFrom_spec_running (s := { s with inputs := rest }) hrun hk hl
  exact ⟨_, es, m, step_passing hp hr hs hi, pass⟩

/-- Settles O30: the pass behind position `k` begins in the state with the completion recorded. -/
theorem completionLetsThePassGoOn : Obligations.CompletionLetsThePassGoOn := by
  unfold Obligations.CompletionLetsThePassGoOn
  intro s k rest hp hr hs hi hl hk
  have answers : step s = .next (passFrom (k + 1) (emit .completed { s with inputs := rest })) :=
    step_completing hp hr hs hi
  by_cases hrun : s.running = true
  · obtain ⟨es, m, goes, stands⟩ := passFrom_spec_running (s := emit .completed { s with inputs := rest }) hrun hk hl
    exact ⟨_, es, m, answers, goes, stands.imp_left fun ⟨hend, hresp⟩ => ⟨hend, .inl ⟨hrun, hresp⟩⟩⟩
  · have hrun : s.running = false := by simpa using hrun
    obtain ⟨es, m, goes, stands⟩ := passFrom_spec_not_running (s := emit .completed { s with inputs := rest }) hrun hk hl
    exact ⟨_, es, m, answers, goes,
      stands.imp_left fun ⟨hend, hresp, _, hidle⟩ => ⟨hend, .inr ⟨hrun, hresp, hidle⟩⟩⟩

/-- Settles O31: at `Dispatching(k)` the block does nothing of itself. -/
theorem outstandingEventHoldsTheBlock : Obligations.OutstandingEventHoldsTheBlock := by
  unfold Obligations.OutstandingEventHoldsTheBlock
  intro s k rest hp hr hs hi
  rw [step_by_itself (by simp [hp]) hr hs hi]
  simp [advance, hp]

/-- Settles O32: every pass is over at once, outside RUN with the response and inside it where the next one begins. -/
theorem emptyTableMakesNoEvent : Obligations.EmptyTableMakesNoEvent := by
  unfold Obligations.EmptyTableMakesNoEvent
  intro s hc hrun
  refine ⟨?_, ?_, fun rest hr hs hi => ?_⟩
  · rw [exec, execPollPass, passFrom_empty_not_running hc hrun]
  · exact congrArg Host.Outcome.next (passFrom_empty_running (s := { s with running := true }) hc rfl 0)
  · rw [step_passing (s := { s with running := true, pc := .passing 0 }) rfl hr hs hi]
    exact congrArg Host.Outcome.next
      (passFrom_empty_running (s := { s with running := true, pc := .passing 0, inputs := rest }) hc rfl 0)

end Sys2Proof.Machine
end

section
/-!
PROOF of O24. A frame records no press event, and a read, a frame and a poll record nothing else but a response.
-/

namespace Sys2Proof.Machine

open Sys2Proof.Safety

/-- From `s` to `t` the record grows by no press event. -/
def Undispatched (s t : State) : Prop := ∃ es, t.trace = s.trace ++ es ∧ presses es = []

theorem Undispatched.refl (s : State) : Undispatched s s := ⟨[], by simp, rfl⟩

theorem undispatched_readFrame (c : Chan) (s : State) : Undispatched s (readFrame c s) := by
  obtain ⟨f, -, h⟩ := readFrame_spec c s
  rw [h]
  exact ⟨f.record s.cfg c, rfl, presses_record f s.cfg c⟩

theorem undispatched_pollStep (k : Nat) (s : State) : Undispatched s (pollStep k s).2 := by
  obtain ⟨f, -, h⟩ := pollStep_spec k s
  rw [h]
  exact ⟨f.record s.cfg (channelAt s.cfg k), rfl, presses_record f s.cfg _⟩

theorem undispatched_finish {s t : State} (r : Response) (h : Undispatched s t) : Undispatched s (finish r t) := by
  obtain ⟨es, ht, he⟩ := h
  exact ⟨es ++ [.response r], by simp [ht], by simp [he, presses]⟩

/-- Settles O24: a read of a valid and of an invalid channel, a frame, a poll outside and inside the table. -/
theorem onlyAPassDispatches : Obligations.OnlyAPassDispatches := by
  unfold Obligations.OnlyAPassDispatches
  rintro s t i (⟨ch, rfl⟩ | ⟨c, rfl⟩ | ⟨k, rfl⟩) h <;> obtain rfl : _ = t := Host.Outcome.next.inj h
  · split
    · exact undispatched_finish _ (undispatched_readFrame (chanBits ch) s)
    · exact undispatched_finish _ (.refl s)
  · exact undispatched_readFrame c s
  · split
    · exact Undispatched.refl s
    · exact undispatched_finish _ (undispatched_pollStep k s)

end Sys2Proof.Machine
end

section
/-!
PROOF of O41 and O47. A stop inside a turn leaves what is recorded at the moment the turn had reached (`step_during_stop`): a
beginning of the record of the whole turn, and every beginning is that of some moment. A stopped block does not pass the gate.
-/

namespace Sys2Proof.Machine

/-- Settles O41. -/
theorem stopFallsAfterAnyEvent : Obligations.StopFallsAfterAnyEvent := by
  unfold Obligations.StopFallsAfterAnyEvent
  intro s t w rest es hb h ht
  have hw : ∀ cfg u, w ≠ .constructing cfg u := by
    rintro cfg u rfl
    cases hb
  have pieces := stepwise_work w { s with inputs := rest } hw
  obtain rfl : t = ends (workMoments w) { s with inputs := rest } := turn_ordinary h
  refine ⟨fun j => ?_, fun first later he => ?_⟩
  · obtain ⟨first, later, hf, he⟩ := pieces.beginning ht j
    exact ⟨_, first, later, step_during_stop rfl, rfl, hf, he⟩
  · obtain ⟨j, hj⟩ := pieces.fine first later (he ▸ ht)
    exact ⟨j, _, step_during_stop rfl, rfl, hj⟩

/-- Settles O47. -/
theorem stoppedBlockTakesNoStep : Obligations.StoppedBlockTakesNoStep := by
  unfold Obligations.StoppedBlockTakesNoStep
  intro s hs he
  obtain ⟨act, h⟩ := step_eq_gate he
  rw [h, gate, afterSlot_stopped, if_pos hs]

end Sys2Proof.Machine
end

section
/-!
PROOF of O6, O53 and O55. The taking of a request by an idle block; what an acquisition gives; and the acquisition loop up to
the first line that is not to be had (spec/60_exceptions.md R173, R176, R180, R186, spec/70_reset_and_hazards.md R200, R201).
-/

namespace Sys2Proof.Machine

/-- Settles O6: the gate lets the idle block take the words, and the decoder gives the instruction. -/
theorem stepRunsTheDecodedInstruction : Obligations.StepRunsTheDecodedInstruction := by
  unfold Obligations.StepRunsTheDecodedInstruction
  intro s c rest i hp hrun hr hs hi hd
  have may : mayStep { s with inputs := rest } = true := mayStep_iff.2 ⟨hs, by simp [hp], hr⟩
  rw [step_of_inputs hi, turn, gate_of_mayStep may, takeCode, if_pos ⟨hp, hrun⟩, hd]

/-! ### Acquisition -/

theorem acquire_of_lookup {p : Platform} {pin : Int} {h : Nat} (hl : p.held.lookup pin = some h) (unavailable : List Int) :
    acquire unavailable pin p = some (h, p) := by
  rw [acquire, hl]

/-- The line acquired is one the platform holds from then on, with the handle given. -/
theorem acquire_lookup_self {unavailable : List Int} {pin : Int} {p p' : Platform} {h : Nat}
    (ha : acquire unavailable pin p = some (h, p')) : p'.held.lookup pin = some h := by
  cases hl : p.held.lookup pin with
  | some h' =>
    obtain ⟨rfl, rfl⟩ : h' = h ∧ p = p' := by simpa [acquire_of_lookup hl] using ha
    exact hl
  | none =>
    obtain ⟨-, rfl, rfl⟩ : pin ∉ unavailable ∧ p.next = h ∧ ⟨p.held ++ [(pin, p.next)], p.next + 1⟩ = p' := by
      simpa [acquire, hl] using ha
    simp [List.lookup_append, hl]

/-- Settles O55. -/
theorem acquisitionIsIdempotent : Obligations.AcquisitionIsIdempotent := by
  unfold Obligations.AcquisitionIsIdempotent
  intro u u' pin h p q ha
  exact acquire_of_lookup (acquire_lookup_self ha) u'

/-! ### The acquisition loop -/

theorem setHandle_eq (r : Role) (h : Nat) (s : State) :
    setHandle r h s = { s with handles := (setHandle r h s).handles } := by
  cases r <;> rfl

theorem acquirePins_of_unavailable {unavailable : List Int} {r : Role} {s : State}
    (h : ¬ Available unavailable s.platform (pinOf s.cfg r)) (rs : List Role) :
    acquirePins unavailable (r :: rs) s =
      { s with fault := some (.pinAcquisitionFailure (pinOf s.cfg r)), pc := .failed } := by
  have ha : acquire unavailable (pinOf s.cfg r) s.platform = none := by
    rwa [← acquire_isSome, Option.not_isSome_iff_eq_none] at h
  rw [acquirePins, ha]

theorem acquirePins_of_acquired {unavailable : List Int} {r : Role} {s : State} {h : Nat} {p : Platform}
    (ha : acquire unavailable (pinOf s.cfg r) s.platform = some (h, p)) (rs : List Role) :
    acquirePins unavailable (r :: rs) s = acquirePins unavailable rs
      { s with handles := (setHandle r h { s with platform := p }).handles, platform := p } := by
  rw [acquirePins, ha]
  exact congrArg _ (setHandle_eq r h { s with platform := p })

/-- The loop over roles of distinct pins, up to the first whose line is not to be had: the lines before it are held, and every
other is as it was. -/
theorem acquirePins_first_missing {unavailable : List Int} {r : Role} {after before : List Role} {s : State}
    (hd : ((before ++ r :: after).map (pinOf s.cfg)).Nodup)
    (hb : ∀ q ∈ before, Available unavailable s.platform (pinOf s.cfg q))
    (hr : ¬ Available unavailable s.platform (pinOf s.cfg r)) :
    ∃ hs p, acquirePins unavailable (before ++ r :: after) s = { s with
        handles := hs, platform := p, fault := some (.pinAcquisitionFailure (pinOf s.cfg r)), pc := .failed } ∧
      (∀ q ∈ before, (p.held.lookup (pinOf s.cfg q)).isSome) ∧
      ∀ pin ∉ before.map (pinOf s.cfg), p.held.lookup pin = s.platform.held.lookup pin := by
  induction before generalizing s with
  | nil => exact ⟨s.handles, s.platform, acquirePins_of_unavailable hr after, by simp, fun _ _ => rfl⟩
  | cons q before ih =>
    obtain ⟨⟨h, p⟩, ha⟩ := Option.isSome_iff_exists.1 (acquire_isSome.2 (hb q List.mem_cons_self))
    obtain ⟨hq, hd⟩ := List.nodup_cons.1 hd
    have kept : ∀ x ∈ before ++ r :: after, Available unavailable p (pinOf s.cfg x) ↔
        Available unavailable s.platform (pinOf s.cfg x) := fun x hx => by
      have hne : pinOf s.cfg x ≠ pinOf s.cfg q := fun he => hq (he ▸ List.mem_map_of_mem hx)
      rw [Available, acquire_lookup ha hne, Available]
    obtain ⟨hs, p', hc, held, same⟩ :=
      ih (s := { s with handles := (setHandle q h { s with platform := p }).handles, platform := p }) hd
        (fun x hx => (kept x (by simp [hx])).2 (hb x (List.mem_cons_of_mem q hx)))
        (mt (kept r (by simp)).1 hr)
    refine ⟨hs, p', (acquirePins_of_acquired ha _).trans hc, ?_, fun pin hpin => ?_⟩
    · have hqb : pinOf s.cfg q ∉ before.map (pinOf s.cfg) := fun hm => hq (by simp [hm])
      refine List.forall_mem_cons.2 ⟨?_, held⟩
      rw [same _ hqb, acquire_lookup_self ha, Option.isSome_some]
    · obtain ⟨hne, hpin⟩ := not_or.1 (mt List.mem_cons.2 hpin)
      rw [same pin hpin, acquire_lookup ha hne]

/-- A configuration that meets each of the spec's conditions is well-formed (spec/10_state.md R20, R23, R26). -/
theorem configWf_eq_true {cfg : Config} (h1 : cfg.pressThreshold < cfg.releaseLow) (h2 : cfg.releaseLow < cfg.releaseHigh)
    (h3 : ∀ e ∈ cfg.channels, 0 ≤ e.ch ∧ e.ch ≤ 7)
    (h4 : [cfg.pinCs, cfg.pinClk, cfg.pinMosi, cfg.pinMiso].Nodup) : configWf cfg = true := by
  have hpins : (acquisitionOrder.map (pinOf cfg)).Nodup := h4
  simpa [configWf, thresholdsWf, channelsWf, pinsWf, h1, h2, hpins] using h3

/-- Settles O53: the four roles in acquisition order are the roles before `r`, `r` and those after it. -/
theorem constructionFailsAtTheFirstMissingPin : Obligations.ConstructionFailsAtTheFirstMissingPin := by
  unfold Obligations.ConstructionFailsAtTheFirstMissingPin
  intro s cfg u rest before after r hi h1 h2 h3 h4 horder hbefore hnone hu
  have hd : ((before ++ r :: after).map (pinOf cfg)).Nodup := horder ▸ h4
  have missing : ¬ Available u s.platform (pinOf cfg r) := by simp [Available, hnone, hu]
  have hm : nextMove s = some (.construct cfg u) := by simp [nextMove, hi]
  obtain ⟨hs, p, hc, held, same⟩ := acquirePins_first_missing (s := blank cfg (afterSlot s)) hd hbefore missing
  refine ⟨construct cfg u (afterSlot s), step_construct hm, ?_⟩
  rw [construct, if_pos (configWf_eq_true h1 h2 h3 h4), acquisitionOrder, horder, hc]
  rw [List.map_append] at hd
  exact ⟨rfl, rfl, rfl, rfl, rfl,
    fun q hq => same _ fun hm => List.disjoint_of_nodup_append hd hm (List.mem_map_of_mem hq), held⟩

end Sys2Proof.Machine
end

section
/-!
PROOF of O17. The waits of a frame are those of its eighteen pulses, so they are eighteen of each kind and none is shorter than
its minimum (spec/70_reset_and_hazards.md R210, R211, R212, R218).
-/

namespace Sys2Proof.Machine

open Sys2Proof.Safety

/-- The wait times of the eighteen pulses of a frame, in order. -/
def FrameDraw.waits (f : FrameDraw) : List (Nat × Nat) := f.cmd ++ f.null :: f.data.map (·.waits)

section
variable {f : FrameDraw} {s : State} (hf : f.Fits s)
include hf

theorem FrameDraw.waits_length : f.waits.length = 18 := by
  simp [FrameDraw.waits, hf.cmd_length, hf.data_length]

theorem FrameDraw.waits_ok {t : Nat × Nat} (ht : t ∈ f.waits) : WaitsOk s.cfg t := by
  simp only [FrameDraw.waits, List.mem_append, List.mem_cons, List.mem_map] at ht
  rcases ht with ht | rfl | ⟨d, hd, rfl⟩
  · exact hf.cmd_min t ht
  · exact hf.null_min
  · exact hf.data_min d hd

/-- The record holds one wait of each kind a pulse. -/
theorem waitsOf_record (k : WaitKind) (c : Chan) :
    waitsOf k (f.record s.cfg c) = f.waits.map fun t => waitTime t k := by
  have hcmd : f.cmd.length = (commandLevels c).length := hf.cmd_length
  simp [FrameDraw.record, FrameDraw.waits, waitsOf, hcmd]

theorem waitsOf_record_length (k : WaitKind) (c : Chan) : (waitsOf k (f.record s.cfg c)).length = 18 := by
  rw [waitsOf_record hf, List.length_map, FrameDraw.waits_length hf]

theorem minWait_le_of_mem_record {k : WaitKind} {c : Chan} {ns : Nat} (hns : ns ∈ waitsOf k (f.record s.cfg c)) :
    minWait s.cfg k ≤ ns := by
  rw [waitsOf_record hf] at hns
  obtain ⟨t, ht, rfl⟩ := List.mem_map.1 hns
  obtain ⟨hsetup, hhigh⟩ := FrameDraw.waits_ok hf ht
  cases k with
  | setup => exact hsetup
  | high => exact hhigh

/-- The waits of one kind last at least eighteen times their minimum together. -/
theorem minWait_le_sum_record (k : WaitKind) (c : Chan) :
    18 * minWait s.cfg k ≤ (waitsOf k (f.record s.cfg c)).sum := by
  have h := List.card_nsmul_le_sum _ (minWait s.cfg k) fun ns => minWait_le_of_mem_record hf (k := k) (c := c)
  rwa [waitsOf_record_length hf, smul_eq_mul] at h

end

/-- Settles O17: the record of the operation is that of its frame, and the two kinds of wait add up. -/
theorem frameLastsAtLeastItsMinimum : Obligations.FrameLastsAtLeastItsMinimum := by
  unfold Obligations.FrameLastsAtLeastItsMinimum
  intro s c
  obtain ⟨f, hf, h⟩ := exec_spiFrameRead c s
  refine ⟨_, f.record s.cfg c, h, rfl, waitsOf_record_length hf .setup c, waitsOf_record_length hf .high c,
    fun ns => minWait_le_of_mem_record hf, fun ns => minWait_le_of_mem_record hf, ?_⟩
  rw [Nat.mul_add]
  exact Nat.add_le_add (minWait_le_sum_record hf .setup c) (minWait_le_sum_record hf .high c)

end Sys2Proof.Machine
end

section
/-!
PROOF of O35 and O52. The record at reset, and the construction of a block whose four lines the platform holds or can provide
(spec/70_reset_and_hazards.md R200, R202, R203, R204, R205).
-/

namespace Sys2Proof.Machine

open Sys2Proof.Safety

/-- Settles O35: nothing is recorded behind the writes of reset, and the levels are the checker's first ones. -/
theorem busProtocolHoldsAtReset : Obligations.BusProtocolHoldsAtReset :=
  .inr (.inr ⟨[], Bus.start State.reset.cfg, rfl, rfl, rfl, rfl, rfl, rfl, rfl, rfl, rfl, rfl⟩)

/-- An acquisition takes no line away: what the platform holds or can provide it still does. -/
theorem available_of_acquire {unavailable : List Int} {pin pin' : Int} {p p' : Platform} {h : Nat}
    (ha : acquire unavailable pin p = some (h, p')) (hav : Available unavailable p pin') :
    Available unavailable p' pin' := by
  by_cases he : pin' = pin
  · rw [he]
    exact .inl (by rw [acquire_lookup_self ha, Option.isSome_some])
  · rwa [Available, acquire_lookup ha he]

/-- Where every line is to be had, no acquisition fails. -/
theorem acquirePins_available {unavailable : List Int} {rs : List Role} {s : State} (hp : s.pc ≠ .failed)
    (hav : ∀ r ∈ rs, Available unavailable s.platform (pinOf s.cfg r)) : (acquirePins unavailable rs s).pc ≠ .failed := by
  induction rs generalizing s with
  | nil => exact hp
  | cons r rs ih =>
    obtain ⟨⟨h, p⟩, ha⟩ := Option.isSome_iff_exists.1 (acquire_isSome.2 (hav r List.mem_cons_self))
    rw [acquirePins_of_acquired ha]
    exact ih hp fun q hq => available_of_acquire ha (hav q (List.mem_cons_of_mem r hq))

/-- A well-formed construction with every line to be had leaves the block as it is right after reset. -/
theorem construct_available {cfg : Config} {unavailable : List Int} {s : State} (hwf : configWf cfg = true)
    (hav : ∀ r, Available unavailable s.platform (pinOf cfg r)) :
    ∃ hs p, construct cfg unavailable s = idlePins { blank cfg s with handles := hs, platform := p } ∧ Equipped hs := by
  rcases construct_cases cfg unavailable s with ⟨hn, -⟩ | ⟨-, hs, p, ⟨hc, hh⟩ | ⟨r, hc⟩⟩
  · simp [hn] at hwf
  · exact ⟨hs, p, hc, equipped_of_handleOf hh⟩
  · have alive : (construct cfg unavailable s).pc ≠ .failed := by
      rw [construct, if_pos hwf]
      exact acquirePins_available (by simp [blank]) fun r _ => hav r
    exact absurd (congrArg State.pc hc) alive

/-- Settles O52: the step is the construction, which begins from a blank block and ends with the three writes of reset. -/
theorem constructionSucceeds : Obligations.ConstructionSucceeds := by
  unfold Obligations.ConstructionSucceeds
  intro s cfg u rest hi h1 h2 h3 h4 hav
  have hm : nextMove s = some (.construct cfg u) := by simp [nextMove, hi]
  have hin : (afterSlot s).inputs = rest := by simp [afterSlot, hi]
  obtain ⟨hs, p, hc, he⟩ := construct_available (s := afterSlot s) (configWf_eq_true h1 h2 h3 h4) hav
  refine ⟨_, step_construct hm, ?_⟩
  rw [hc]
  exact ⟨rfl, he, rfl, rfl, rfl, rfl, rfl, rfl, rfl, rfl, rfl, rfl, hin⟩

end Sys2Proof.Machine
end
